-- ==== Sys2Proof/Word.lean ====
section
/-! DEFINITION. The plainest data of the block: bytes, texts, and the 64 bits of a FLOAT (00_scope.md R6, R8, R9). -/

namespace Sys2Proof

/-- A byte, an unsigned integer 0..255 with bit 0 least significant (R8). -/
abbrev Byte := BitVec 8

/-- A string is a sequence of characters (R9). -/
abbrev Text := List Char

/-- The 64 bits of a `FLOAT` value: IEEE 754 binary64 (R6, D21). -/
abbrev F64 := BitVec 64

end Sys2Proof
end

