-- ==== Sys2Proof/Config.lean ====
section
/-! DEFINITION. The block's parameters (00_scope.md R6, R7): the default value of each constant, the structure `Constants`
that a block takes them in, the checksum table, the shape of the message-definition catalog, and the one free value the
spec leaves open (the sign and fraction bits of a NaN result). -/

namespace Sys2Proof

namespace Config

/-! ### The default values of R6 -/

/-- `SYN`, the synchronisation byte. -/
def syn : Byte := 0xAA

/-- `ACK`, the acknowledgement byte. -/
def ack : Byte := 0x00

/-- `NACK`, the negative acknowledgement byte. -/
def nack : Byte := 0xFF

/-- `BROADCAST`, the reserved destination. -/
def broadcast : Byte := 0xFE

/-- `MAX_LEN`, 5 bits: the largest payload length of a Request or a Response. -/
def maxLen : BitVec 5 := 16

/-- The default `MAX_LEN` as a byte, as the table's length rows have it. -/
def maxLenByte : Byte := maxLen.setWidth 8

/-- `PAYLOAD_CAP`, the bytes of one payload buffer. -/
def payloadCap : Nat := 16

/-- `IN_QUEUE_CAP`, the bytes the input queue holds: unbounded (R26, D2). -/
def inQueueCap : Option Nat := none

/-- `ESC_MIN`: a raw byte at or above it starts an escape pair (R53). -/
def escMin : Byte := 0xC0

/-- `CMD_RECEIVED`: the one adapter command that forwards its data byte (R58, R84). -/
def cmdReceived : BitVec 4 := 1

/-- `CRC_INIT`: the value a checksum starts from (R72). -/
def crcInit : Byte := 0

/-- `TYPE_U8`, the catalog's spelling of the 8-bit unsigned type (R65). -/
def typeU8 : Text := ['u', '8']

/-- `TYPE_U16LE`, the catalog's spelling of the 16-bit little-endian unsigned type (R65). -/
def typeU16le : Text := ['u', '1', '6', 'l', 'e']

/-- `TYPE_U16BE`, the catalog's spelling of the 16-bit big-endian unsigned type (R65). -/
def typeU16be : Text := ['u', '1', '6', 'b', 'e']

/-- The `FLOAT` value 1.0 in binary64: the factor that keeps a raw value an integer (R131). -/
def floatOne : F64 := 0x3FF0000000000000

/-! ### The free value -/

/-- FREE VALUE (log entry 5). R132 says only that a scaling gives NaN for a NaN factor, and for an infinite factor on a
raw 0. Which NaN of binary64 results (its sign bit and its fraction) is stated nowhere, so those 53 bits are an
uninterpreted function of the two operands. -/
opaque nanRest : F64 → BitVec 16 → BitVec 53

/-! ### The default checksum table of R70 -/

/-- The 256 entries of R70, sixteen a row, as the spec prints them. -/
def crcEntries : List Byte :=
  [0x00, 0x9B, 0xAD, 0x36, 0xC1, 0x5A, 0x6C, 0xF7, 0x19, 0x82, 0xB4, 0x2F, 0xD8, 0x43, 0x75, 0xEE] ++
  [0x32, 0xA9, 0x9F, 0x04, 0xF3, 0x68, 0x5E, 0xC5, 0x2B, 0xB0, 0x86, 0x1D, 0xEA, 0x71, 0x47, 0xDC] ++
  [0x64, 0xFF, 0xC9, 0x52, 0xA5, 0x3E, 0x08, 0x93, 0x7D, 0xE6, 0xD0, 0x4B, 0xBC, 0x27, 0x11, 0x8A] ++
  [0x56, 0xCD, 0xFB, 0x60, 0x97, 0x0C, 0x3A, 0xA1, 0x4F, 0xD4, 0xE2, 0x79, 0x8E, 0x15, 0x23, 0xB8] ++
  [0xC8, 0x53, 0x65, 0xFE, 0x09, 0x92, 0xA4, 0x3F, 0xD1, 0x4A, 0x7C, 0xE7, 0x10, 0x8B, 0xBD, 0x26] ++
  [0xFA, 0x61, 0x57, 0xCC, 0x3B, 0xA0, 0x96, 0x0D, 0xE3, 0x78, 0x4E, 0xD5, 0x22, 0xB9, 0x8F, 0x14] ++
  [0xAC, 0x37, 0x01, 0x9A, 0x6D, 0xF6, 0xC0, 0x5B, 0xB5, 0x2E, 0x18, 0x83, 0x74, 0xEF, 0xD9, 0x42] ++
  [0x9E, 0x05, 0x33, 0xA8, 0x5F, 0xC4, 0xF2, 0x69, 0x87, 0x1C, 0x2A, 0xB1, 0x46, 0xDD, 0xEB, 0x70] ++
  [0x0B, 0x90, 0xA6, 0x3D, 0xCA, 0x51, 0x67, 0xFC, 0x12, 0x89, 0xBF, 0x24, 0xD3, 0x48, 0x7E, 0xE5] ++
  [0x39, 0xA2, 0x94, 0x0F, 0xF8, 0x63, 0x55, 0xCE, 0x20, 0xBB, 0x8D, 0x16, 0xE1, 0x7A, 0x4C, 0xD7] ++
  [0x6F, 0xF4, 0xC2, 0x59, 0xAE, 0x35, 0x03, 0x98, 0x76, 0xED, 0xDB, 0x40, 0xB7, 0x2C, 0x1A, 0x81] ++
  [0x5D, 0xC6, 0xF0, 0x6B, 0x9C, 0x07, 0x31, 0xAA, 0x44, 0xDF, 0xE9, 0x72, 0x85, 0x1E, 0x28, 0xB3] ++
  [0xC3, 0x58, 0x6E, 0xF5, 0x02, 0x99, 0xAF, 0x34, 0xDA, 0x41, 0x77, 0xEC, 0x1B, 0x80, 0xB6, 0x2D] ++
  [0xF1, 0x6A, 0x5C, 0xC7, 0x30, 0xAB, 0x9D, 0x06, 0xE8, 0x73, 0x45, 0xDE, 0x29, 0xB2, 0x84, 0x1F] ++
  [0xA7, 0x3C, 0x0A, 0x91, 0x66, 0xFD, 0xCB, 0x50, 0xBE, 0x25, 0x13, 0x88, 0x7F, 0xE4, 0xD2, 0x49] ++
  [0x95, 0x0E, 0x38, 0xA3, 0x54, 0xCF, 0xF9, 0x62, 0x8C, 0x17, 0x21, 0xBA, 0x4D, 0xD6, 0xE0, 0x7B]

/-- One of the eight shifts that R70 computes an entry by. -/
def crcShift (c : Byte) : Byte :=
  if c.msb then (c <<< 1) ^^^ 0x9B else c <<< 1

/-- `Table(i)` as R70 computes it: eight shifts from `i`. -/
def crcEntry (i : Byte) : Byte :=
  crcShift (crcShift (crcShift (crcShift (crcShift (crcShift (crcShift (crcShift i)))))))

/-- The default `CRC_TABLE` (R70, G1): PRESUMED from general knowledge by the spec itself (log entry 3). -/
def crcTable : Vector Byte 256 := ⟨⟨crcEntries⟩, by decide +kernel⟩

end Config

/-! ### The parameters of R6 -/

/-- `FLOAT`, the number format of scaled values. The spec gives one (R6, D21). -/
inductive FloatFormat where
  /-- IEEE 754 binary64, round to nearest, ties to even. -/
  | binary64
  deriving DecidableEq, Repr

/-- The constants of R6 that a block is constructed with (R31, R154), each with the source's value as its default.
`CRC_TABLE` and `CATALOG` stand beside them in `Params`. -/
structure Constants where
  /-- `SYN`. -/
  syn : Byte := Config.syn
  /-- `ACK`. -/
  ack : Byte := Config.ack
  /-- `NACK`. -/
  nack : Byte := Config.nack
  /-- `BROADCAST`. -/
  broadcast : Byte := Config.broadcast
  /-- `MAX_LEN`, 5 bits (I8). -/
  maxLen : BitVec 5 := Config.maxLen
  /-- `ESC_MIN`. -/
  escMin : Byte := Config.escMin
  /-- `CMD_RECEIVED`. -/
  cmdReceived : BitVec 4 := Config.cmdReceived
  /-- `CRC_INIT`. -/
  crcInit : Byte := Config.crcInit
  /-- `PAYLOAD_CAP`. -/
  payloadCap : Nat := Config.payloadCap
  /-- `IN_QUEUE_CAP`, none for unbounded (I16). -/
  inQueueCap : Option Nat := Config.inQueueCap
  /-- `FLOAT` (I4). -/
  float : FloatFormat := .binary64
  /-- `TYPE_U8`. -/
  typeU8 : Text := Config.typeU8
  /-- `TYPE_U16LE`. -/
  typeU16le : Text := Config.typeU16le
  /-- `TYPE_U16BE`. -/
  typeU16be : Text := Config.typeU16be
  deriving DecidableEq, Repr

/-- The constants at their defaults: the block that spec/ describes (R6). -/
def Constants.default : Constants := {}

/-- `MAX_LEN` as a byte, the width it is compared at (R97, R98, R110, R111). -/
def Constants.maxLenByte (c : Constants) : Byte := c.maxLen.setWidth 8

/-- What R7 asks of the constants: `MAX_LEN` is at most `PAYLOAD_CAP`. -/
def Constants.wf (c : Constants) : Bool := c.maxLen.toNat ≤ c.payloadCap

/-! ### The catalog (R62, R63) -/

/-- A Field entry of a field map (R63). `unit` is carried and never read (R135). -/
structure Field where
  name : Text
  offset : Nat
  dataType : Text
  factor : F64
  unit : Text
  deriving DecidableEq, Repr

/-- The four request-match patterns of a definition, each possibly absent (R62, R120). -/
structure RequestMatch where
  src : Option Text
  dst : Option Text
  pbsb : Option Text
  data : Option Text
  deriving DecidableEq, Repr

/-- A message definition: patterns, and the two optional field maps. An empty map is present (R122). -/
structure MessageDef where
  comment : Text
  requestMatch : RequestMatch
  requestMap : Option (List Field)
  responseMap : Option (List Field)
  deriving DecidableEq, Repr

/-- A circuit: a name and its message definitions in catalog order. -/
structure Circuit where
  name : Text
  messages : List MessageDef
  deriving DecidableEq, Repr

/-- The message-definition catalog (R62), already loaded and validated (R155). -/
structure Catalog where
  appliance : Text
  bus : Text
  circuits : List Circuit
  deriving DecidableEq, Repr

/-- What construction hands the block (R31, R154): the constants, the checksum table and the catalog. -/
structure Params extends Constants where
  crcTable : Vector Byte 256
  catalog : Catalog
  deriving DecidableEq, Repr

/-- A catalog with no circuit. -/
def Catalog.empty : Catalog := { appliance := [], bus := [], circuits := [] }

/-- The parameters of `State.reset`: the constants at their defaults, the default table of R70 and a catalog with no
circuit (log entries 3 and 4). -/
def Params.default : Params := { Constants.default with crcTable := Config.crcTable, catalog := Catalog.empty }

end Sys2Proof
end

