-- ==== Sys2Proof/Syntax.lean ====
section
/-! DEFINITION. The instructions: one constructor of `Instr` for each of the 52 rows of opcode_table.json, and `Code`,
the formats an instruction is read from (30_encoding.md). The block has no instruction words; its instructions are the
symbols it acts on, so a row's operands are the fields of its symbol. -/

namespace Sys2Proof

/-- The ten states of the Telegram State Machine, by the names of R16. -/
inductive FsmState where
  | waitSyn
  | waitSrc
  | waitDest
  | waitCmdHi
  | waitCmdLo
  | waitLen
  | waitData
  | waitCrc
  | waitAck
  | waitResponse
  deriving DecidableEq, Repr

/-- Where a field is read for: the definition's circuit and message index, the field's name and its offset. These are
what R125 to R130 use of the field besides its type. -/
structure FieldSite where
  ci : Nat
  mi : Nat
  name : Text
  offset : Nat
  deriving DecidableEq, Repr

/-- One constructor per row of opcode_table.json, in the table's order. -/
inductive Instr where
  /-- FEED (R77). -/
  | feed (bytes : List Byte)
  /-- RESET (R156). -/
  | reset
  /-- RAW_PLAIN_LO (R80): `b[7] = 0`. -/
  | rawPlainLo (b : Byte)
  /-- RAW_PLAIN_HI (R80): `b[7:6] = 10`. -/
  | rawPlainHi (b : Byte)
  /-- RAW_ESC_PREFIX (R81): `b[7:6] = 11`. -/
  | rawEscPrefix (b : Byte)
  /-- ESC_FRAMING_ERROR (R82): the prefix `b1`, and `b2` with bit 7 clear. -/
  | escFramingError (b1 b2 : Byte)
  /-- ESC_RECEIVED (R84): command 1. In this and the next rows `dd` is `b1[1:0]` and `e` is `b2[6:0]` (R54). -/
  | escReceived (dd : BitVec 2) (e : BitVec 7)
  /-- ESC_RESETTED (R85): command 0. -/
  | escResetted (dd : BitVec 2) (e : BitVec 7)
  /-- ESC_STARTED (R85): command 2. -/
  | escStarted (dd : BitVec 2) (e : BitVec 7)
  /-- ESC_INFO (R85): command 3. -/
  | escInfo (dd : BitVec 2) (e : BitVec 7)
  /-- ESC_UNKNOWN_4 (R85). -/
  | escUnknown4 (dd : BitVec 2) (e : BitVec 7)
  /-- ESC_UNKNOWN_5 (R85). -/
  | escUnknown5 (dd : BitVec 2) (e : BitVec 7)
  /-- ESC_UNKNOWN_6 (R85). -/
  | escUnknown6 (dd : BitVec 2) (e : BitVec 7)
  /-- ESC_UNKNOWN_7 (R85). -/
  | escUnknown7 (dd : BitVec 2) (e : BitVec 7)
  /-- ESC_UNKNOWN_8 (R85). -/
  | escUnknown8 (dd : BitVec 2) (e : BitVec 7)
  /-- ESC_UNKNOWN_9 (R85). -/
  | escUnknown9 (dd : BitVec 2) (e : BitVec 7)
  /-- ESC_FAILED (R85): command 10. -/
  | escFailed (dd : BitVec 2) (e : BitVec 7)
  /-- ESC_ERROR_EBUS (R85): command 11. -/
  | escErrorEbus (dd : BitVec 2) (e : BitVec 7)
  /-- ESC_ERROR_HOST (R85): command 12. -/
  | escErrorHost (dd : BitVec 2) (e : BitVec 7)
  /-- ESC_UNKNOWN_D (R85). -/
  | escUnknownD (dd : BitVec 2) (e : BitVec 7)
  /-- ESC_UNKNOWN_E (R85). -/
  | escUnknownE (dd : BitVec 2) (e : BitVec 7)
  /-- ESC_UNKNOWN_F (R85). -/
  | escUnknownF (dd : BitVec 2) (e : BitVec 7)
  /-- FSM_WAITSYN_SYN (R90). -/
  | fsmWaitSynSyn
  /-- FSM_WAITSYN_OTHER (R91). -/
  | fsmWaitSynOther (b : Byte)
  /-- FSM_WAITSRC_SYN (R93). -/
  | fsmWaitSrcSyn
  /-- FSM_WAITSRC_OTHER (R92). -/
  | fsmWaitSrcOther (b : Byte)
  /-- FSM_WAITDEST_ANY (R94). -/
  | fsmWaitDestAny (b : Byte)
  /-- FSM_WAITCMDHI_ANY (R95). -/
  | fsmWaitCmdHiAny (b : Byte)
  /-- FSM_WAITCMDLO_ANY (R96). -/
  | fsmWaitCmdLoAny (b : Byte)
  /-- FSM_WAITLEN_OK_LO (R98): a length 0x00 to 0x0F, its low four bits. -/
  | fsmWaitLenOkLo (n : BitVec 4)
  /-- FSM_WAITLEN_OK_16 (R98): the length 0x10. -/
  | fsmWaitLenOk16
  /-- FSM_WAITLEN_BAD (R97). -/
  | fsmWaitLenBad (b : Byte)
  /-- FSM_WAITDATA_ANY (R99, R100). -/
  | fsmWaitDataAny (b : Byte)
  /-- FSM_WAITCRC_ANY (R101, R102). -/
  | fsmWaitCrcAny (b : Byte)
  /-- FSM_WAITACK_ACK (R103, R104). -/
  | fsmWaitAckAck
  /-- FSM_WAITACK_NACK (R105). -/
  | fsmWaitAckNack
  /-- FSM_WAITACK_SYN (R106, R107). -/
  | fsmWaitAckSyn
  /-- FSM_WAITACK_OTHER (R108). -/
  | fsmWaitAckOther (b : Byte)
  /-- FSM_WAITRSP_SYN (R109). -/
  | fsmWaitRspSyn
  /-- FSM_WAITRSP_OK_LO (R110): a Response length 0x00 to 0x0F, its low four bits. -/
  | fsmWaitRspOkLo (n : BitVec 4)
  /-- FSM_WAITRSP_OK_16 (R110): the Response length 0x10. -/
  | fsmWaitRspOk16
  /-- FSM_WAITRSP_BAD (R111). -/
  | fsmWaitRspBad (b : Byte)
  /-- CRC8 (R71). -/
  | crc8 (running byte : Byte)
  /-- CHECKSUM (R72). -/
  | checksum (bytes : List Byte)
  /-- PAT_ANY (R117), applied to `value`. -/
  | patAny (value : Text)
  /-- PAT_PREFIX (R118): the characters `q` after `^`, applied to `value`. -/
  | patPrefix (q value : Text)
  /-- PAT_LITERAL (R119): the whole pattern `p`, applied to `value`. -/
  | patLiteral (p value : Text)
  /-- PAT_ABSENT (R120), applied to `value`. -/
  | patAbsent (value : Text)
  /-- TYPE_U8 (R126), reading `payload`. -/
  | typeU8 (site : FieldSite) (payload : List Byte)
  /-- TYPE_U16LE (R127), reading `payload`. -/
  | typeU16le (site : FieldSite) (payload : List Byte)
  /-- TYPE_U16BE (R128), reading `payload`. -/
  | typeU16be (site : FieldSite) (payload : List Byte)
  /-- TYPE_UNSUPPORTED (R129): the type string `ty` names no supported type. -/
  | typeUnsupported (site : FieldSite) (ty : Text)
  deriving DecidableEq, Repr

/-- The formats an instruction is read from (30_encoding.md): the three bit formats, the catalog texts with the value
they are applied to, and the host and internal operations, which the table gives no bits. -/
inductive Code where
  /-- Format RAW, 8 bits: one raw byte with no prefix pending (R53). -/
  | raw (b : Byte)
  /-- Format ESC, 16 bits: `w = b1 << 8 | b2` (R54). -/
  | esc (w : BitVec 16)
  /-- Format FSM, 12 bits: the decode word `W = st << 8 | b` (R61). -/
  | fsm (w : BitVec 12)
  /-- Format HOST: `feed(bytes)` (R77). -/
  | feed (bytes : List Byte)
  /-- Format HOST: `reset()` (R156). -/
  | reset
  /-- Format OP: `crc8(running, byte)` (R71). -/
  | crc8 (running byte : Byte)
  /-- Format OP: `checksum(bytes)` (R72). -/
  | checksum (bytes : List Byte)
  /-- Format PATTERN: a request-match field of the catalog, possibly absent, and the value it is compared with
  (R64, R115). -/
  | pattern (p : Option Text) (value : Text)
  /-- Format DTYPE: a field's type text, its site and the payload it is read from (R65, R125). -/
  | dataType (ty : Text) (site : FieldSite) (payload : List Byte)
  deriving DecidableEq, Repr

/-- Why a code is no instruction. -/
inductive Reject where
  /-- A 16-bit word whose first byte is no escape prefix is no ESC symbol (R54, R56). -/
  | notAnEscapePair (w : BitVec 16)
  /-- The state encodings 10 to 15 name no state (R17, R66). -/
  | reservedFsmState (st : BitVec 4)
  deriving DecidableEq, Repr

end Sys2Proof
end

