-- ==== Sys2Proof/WellFormed.lean ====
section
/-! DEFINITION. Which terms of `Instr` stand for a symbol of their row: the operand ranges that opcode_table.json's
matches and masks and the rules' "Operands" lines give, with the constants at their defaults as the table has them. -/

namespace Sys2Proof

/-- The four forms of a pattern are told apart by its text (R116): a text is a Literal when it is neither `*` nor
begins with `^`. -/
def isLiteralText (p : Text) : Bool :=
  p ≠ ['*'] && p.head? ≠ some '^'

/-- The texts that name a supported data type, at their default spellings (R65). -/
def isSupportedType (ty : Text) : Bool :=
  ty = Config.typeU8 || ty = Config.typeU16le || ty = Config.typeU16be

/-- `i` is a symbol of its row. -/
def Instr.wf : Instr → Bool
  | .feed _ => true
  | .reset => true
  | .rawPlainLo b => b < 0x80
  | .rawPlainHi b => 0x80 ≤ b && b < Config.escMin
  | .rawEscPrefix b => Config.escMin ≤ b
  | .escFramingError b1 b2 => Config.escMin ≤ b1 && b2 < 0x80
  | .escReceived _ _ => true
  | .escResetted _ _ => true
  | .escStarted _ _ => true
  | .escInfo _ _ => true
  | .escUnknown4 _ _ => true
  | .escUnknown5 _ _ => true
  | .escUnknown6 _ _ => true
  | .escUnknown7 _ _ => true
  | .escUnknown8 _ _ => true
  | .escUnknown9 _ _ => true
  | .escFailed _ _ => true
  | .escErrorEbus _ _ => true
  | .escErrorHost _ _ => true
  | .escUnknownD _ _ => true
  | .escUnknownE _ _ => true
  | .escUnknownF _ _ => true
  | .fsmWaitSynSyn => true
  | .fsmWaitSynOther b => b ≠ Config.syn
  | .fsmWaitSrcSyn => true
  | .fsmWaitSrcOther b => b ≠ Config.syn
  | .fsmWaitDestAny _ => true
  | .fsmWaitCmdHiAny _ => true
  | .fsmWaitCmdLoAny _ => true
  | .fsmWaitLenOkLo _ => true
  | .fsmWaitLenOk16 => true
  | .fsmWaitLenBad b => Config.maxLenByte < b
  | .fsmWaitDataAny _ => true
  | .fsmWaitCrcAny _ => true
  | .fsmWaitAckAck => true
  | .fsmWaitAckNack => true
  | .fsmWaitAckSyn => true
  | .fsmWaitAckOther b => b ≠ Config.ack && b ≠ Config.nack && b ≠ Config.syn
  | .fsmWaitRspSyn => true
  | .fsmWaitRspOkLo _ => true
  | .fsmWaitRspOk16 => true
  | .fsmWaitRspBad b => Config.maxLenByte < b && b ≠ Config.syn
  | .crc8 _ _ => true
  | .checksum _ => true
  | .patAny _ => true
  | .patPrefix _ _ => true
  | .patLiteral p _ => isLiteralText p
  | .patAbsent _ => true
  | .typeU8 _ _ => true
  | .typeU16le _ _ => true
  | .typeU16be _ _ => true
  | .typeUnsupported _ ty => !isSupportedType ty

end Sys2Proof
end

