-- ==== Sys2Proof/Decode.lean ====
section
/-! DEFINITION. The decoder: total on every code, rejecting by name, and after it the encoder (30_encoding.md). The
machine fetches through `decodeRaw`, `decodePair`, `decodeFsm`, `decodePattern` and `decodeType`. -/

namespace Sys2Proof

/-! ### The FSM state register's encoding (R16) -/

/-- The 4-bit encoding of a state. -/
def FsmState.code : FsmState → BitVec 4
  | .waitSyn => 0
  | .waitSrc => 1
  | .waitDest => 2
  | .waitCmdHi => 3
  | .waitCmdLo => 4
  | .waitLen => 5
  | .waitData => 6
  | .waitCrc => 7
  | .waitAck => 8
  | .waitResponse => 9

/-- The state an encoding names; 10 to 15 name none (R17). -/
def FsmState.ofCode (c : BitVec 4) : Option FsmState :=
  match c.toNat with
  | 0 => some .waitSyn
  | 1 => some .waitSrc
  | 2 => some .waitDest
  | 3 => some .waitCmdHi
  | 4 => some .waitCmdLo
  | 5 => some .waitLen
  | 6 => some .waitData
  | 7 => some .waitCrc
  | 8 => some .waitAck
  | 9 => some .waitResponse
  | _ => none

/-! ### Bit fields of a pair (R54) -/

/-- `c = b1[5:2]`, the adapter command. -/
def escCommand (b1 : Byte) : BitVec 4 := b1.extractLsb' 2 4

/-- `dd = b1[1:0]`, data bits 7:6. -/
def escHigh (b1 : Byte) : BitVec 2 := b1.extractLsb' 0 2

/-- `e = b2[6:0]`, the data's low part. -/
def escLow (b2 : Byte) : BitVec 7 := b2.extractLsb' 0 7

/-! ### Decoding -/

/-- The symbol a raw byte is when no prefix is pending: a prefix from `ESC_MIN` on (R53, R56, R78). -/
def decodeRaw (c : Constants) (b : Byte) : Instr :=
  if c.escMin ≤ b then .rawEscPrefix b
  else if b < 0x80 then .rawPlainLo b
  else .rawPlainHi b

/-- The symbol that a pending prefix `b1` and the next raw byte `b2` form (R54, R58, R78): a framing error when
`b2[7] = 0`, else the row of the command `b1[5:2]`. The pending prefix's two top bits are not looked at again. Which
command forwards its data byte (`CMD_RECEIVED`) is tested by the row's meaning. -/
def decodePair (b1 b2 : Byte) : Instr :=
  if b2.msb = false then .escFramingError b1 b2
  else
    match (escCommand b1).toNat with
    | 0 => .escResetted (escHigh b1) (escLow b2)
    | 1 => .escReceived (escHigh b1) (escLow b2)
    | 2 => .escStarted (escHigh b1) (escLow b2)
    | 3 => .escInfo (escHigh b1) (escLow b2)
    | 4 => .escUnknown4 (escHigh b1) (escLow b2)
    | 5 => .escUnknown5 (escHigh b1) (escLow b2)
    | 6 => .escUnknown6 (escHigh b1) (escLow b2)
    | 7 => .escUnknown7 (escHigh b1) (escLow b2)
    | 8 => .escUnknown8 (escHigh b1) (escLow b2)
    | 9 => .escUnknown9 (escHigh b1) (escLow b2)
    | 10 => .escFailed (escHigh b1) (escLow b2)
    | 11 => .escErrorEbus (escHigh b1) (escLow b2)
    | 12 => .escErrorHost (escHigh b1) (escLow b2)
    | 13 => .escUnknownD (escHigh b1) (escLow b2)
    | 14 => .escUnknownE (escHigh b1) (escLow b2)
    | _ => .escUnknownF (escHigh b1) (escLow b2)

/-- The symbol the Deframer has when it takes the raw byte `b`, by the pending-prefix register (R56, R78). -/
def decodeStream (c : Constants) (pend : Option Byte) (b : Byte) : Instr :=
  match pend with
  | none => decodeRaw c b
  | some b1 => decodePair b1 b

/-- The length rows of WaitLen: OK_LO, OK_16 and BAD, split at the default `MAX_LEN` (R97, R98). -/
def decodeWaitLen (b : Byte) : Instr :=
  if b = Config.maxLenByte then .fsmWaitLenOk16
  else if b < Config.maxLenByte then .fsmWaitLenOkLo (b.setWidth 4)
  else .fsmWaitLenBad b

/-- The length rows of WaitResponse, tried after its SYN row (R110, R111). -/
def decodeWaitRsp (b : Byte) : Instr :=
  if b = Config.maxLenByte then .fsmWaitRspOk16
  else if b < Config.maxLenByte then .fsmWaitRspOkLo (b.setWidth 4)
  else .fsmWaitRspBad b

/-- The row that state `q` selects for the logical byte `b`: the rows of one state in table order (R61, R87). -/
def decodeState (q : FsmState) (b : Byte) : Instr :=
  match q with
  | .waitSyn => if b = Config.syn then .fsmWaitSynSyn else .fsmWaitSynOther b
  | .waitSrc => if b = Config.syn then .fsmWaitSrcSyn else .fsmWaitSrcOther b
  | .waitDest => .fsmWaitDestAny b
  | .waitCmdHi => .fsmWaitCmdHiAny b
  | .waitCmdLo => .fsmWaitCmdLoAny b
  | .waitLen => decodeWaitLen b
  | .waitData => .fsmWaitDataAny b
  | .waitCrc => .fsmWaitCrcAny b
  | .waitAck =>
    if b = Config.ack then .fsmWaitAckAck
    else if b = Config.nack then .fsmWaitAckNack
    else if b = Config.syn then .fsmWaitAckSyn
    else .fsmWaitAckOther b
  | .waitResponse => if b = Config.syn then .fsmWaitRspSyn else decodeWaitRsp b

/-- The row that the decode word `st << 8 | b` selects, none for a reserved state (R61, R17). -/
def decodeFsm (st : BitVec 4) (b : Byte) : Option Instr :=
  (FsmState.ofCode st).map fun q => decodeState q b

/-- The form of a request-match field, by its text (R64, R116, R120), applied to `value`. -/
def decodePattern (p : Option Text) (value : Text) : Instr :=
  match p with
  | none => .patAbsent value
  | some ['*'] => .patAny value
  | some ('^' :: q) => .patPrefix q value
  | some p => .patLiteral p value

/-- The row of a field's data type, by exact comparison of its text (R65, R125). -/
def decodeType (c : Constants) (ty : Text) (site : FieldSite) (payload : List Byte) : Instr :=
  if ty = c.typeU8 then .typeU8 site payload
  else if ty = c.typeU16le then .typeU16le site payload
  else if ty = c.typeU16be then .typeU16be site payload
  else .typeUnsupported site ty

/-- The decoder, total on every code. The matches of opcode_table.json have the constants at their defaults in them, so
this reads the table's words with those (log entry 13); a block's own constants enter where the machine reads:
`decodeStream`, `fsm`, `readField`. -/
def decode : Code → Except Reject Instr
  | .raw b => .ok (decodeRaw Constants.default b)
  | .esc w =>
    if Config.escMin ≤ w.extractLsb' 8 8 then .ok (decodePair (w.extractLsb' 8 8) (w.extractLsb' 0 8))
    else .error (.notAnEscapePair w)
  | .fsm w =>
    match decodeFsm (w.extractLsb' 8 4) (w.extractLsb' 0 8) with
    | some i => .ok i
    | none => .error (.reservedFsmState (w.extractLsb' 8 4))
  | .feed bytes => .ok (.feed bytes)
  | .reset => .ok .reset
  | .crc8 r b => .ok (.crc8 r b)
  | .checksum bytes => .ok (.checksum bytes)
  | .pattern p v => .ok (decodePattern p v)
  | .dataType ty site pay => .ok (decodeType Constants.default ty site pay)

/-! ### Encoding -/

/-- The word of an ESC row: `11`, the command, `dd`, the continuation bit 1, `e` (R54). -/
def escWord (c : BitVec 4) (dd : BitVec 2) (e : BitVec 7) : BitVec 16 :=
  0b11#2 ++ c ++ dd ++ 1#1 ++ e

/-- The decode word of a logical byte in a state (R61). -/
def fsmWord (q : FsmState) (b : Byte) : BitVec 12 :=
  q.code ++ b

/-- The code of an instruction, from the formats of 30_encoding.md and the matches of opcode_table.json. -/
def encode : Instr → Code
  | .feed bytes => .feed bytes
  | .reset => .reset
  | .rawPlainLo b => .raw b
  | .rawPlainHi b => .raw b
  | .rawEscPrefix b => .raw b
  | .escFramingError b1 b2 => .esc (b1 ++ b2)
  | .escReceived dd e => .esc (escWord 1 dd e)
  | .escResetted dd e => .esc (escWord 0 dd e)
  | .escStarted dd e => .esc (escWord 2 dd e)
  | .escInfo dd e => .esc (escWord 3 dd e)
  | .escUnknown4 dd e => .esc (escWord 4 dd e)
  | .escUnknown5 dd e => .esc (escWord 5 dd e)
  | .escUnknown6 dd e => .esc (escWord 6 dd e)
  | .escUnknown7 dd e => .esc (escWord 7 dd e)
  | .escUnknown8 dd e => .esc (escWord 8 dd e)
  | .escUnknown9 dd e => .esc (escWord 9 dd e)
  | .escFailed dd e => .esc (escWord 10 dd e)
  | .escErrorEbus dd e => .esc (escWord 11 dd e)
  | .escErrorHost dd e => .esc (escWord 12 dd e)
  | .escUnknownD dd e => .esc (escWord 13 dd e)
  | .escUnknownE dd e => .esc (escWord 14 dd e)
  | .escUnknownF dd e => .esc (escWord 15 dd e)
  | .fsmWaitSynSyn => .fsm (fsmWord .waitSyn 0xAA)
  | .fsmWaitSynOther b => .fsm (fsmWord .waitSyn b)
  | .fsmWaitSrcSyn => .fsm (fsmWord .waitSrc 0xAA)
  | .fsmWaitSrcOther b => .fsm (fsmWord .waitSrc b)
  | .fsmWaitDestAny b => .fsm (fsmWord .waitDest b)
  | .fsmWaitCmdHiAny b => .fsm (fsmWord .waitCmdHi b)
  | .fsmWaitCmdLoAny b => .fsm (fsmWord .waitCmdLo b)
  | .fsmWaitLenOkLo n => .fsm (fsmWord .waitLen (0#4 ++ n))
  | .fsmWaitLenOk16 => .fsm (fsmWord .waitLen 0x10)
  | .fsmWaitLenBad b => .fsm (fsmWord .waitLen b)
  | .fsmWaitDataAny b => .fsm (fsmWord .waitData b)
  | .fsmWaitCrcAny b => .fsm (fsmWord .waitCrc b)
  | .fsmWaitAckAck => .fsm (fsmWord .waitAck 0x00)
  | .fsmWaitAckNack => .fsm (fsmWord .waitAck 0xFF)
  | .fsmWaitAckSyn => .fsm (fsmWord .waitAck 0xAA)
  | .fsmWaitAckOther b => .fsm (fsmWord .waitAck b)
  | .fsmWaitRspSyn => .fsm (fsmWord .waitResponse 0xAA)
  | .fsmWaitRspOkLo n => .fsm (fsmWord .waitResponse (0#4 ++ n))
  | .fsmWaitRspOk16 => .fsm (fsmWord .waitResponse 0x10)
  | .fsmWaitRspBad b => .fsm (fsmWord .waitResponse b)
  | .crc8 r b => .crc8 r b
  | .checksum bytes => .checksum bytes
  | .patAny v => .pattern (some ['*']) v
  | .patPrefix q v => .pattern (some ('^' :: q)) v
  | .patLiteral p v => .pattern (some p) v
  | .patAbsent v => .pattern none v
  | .typeU8 site pay => .dataType Config.typeU8 site pay
  | .typeU16le site pay => .dataType Config.typeU16le site pay
  | .typeU16be site pay => .dataType Config.typeU16be site pay
  | .typeUnsupported site ty => .dataType ty site []

/-! ### The table's words -/

/-- The code that the table's `nbits` bits `w` are. Rows of 8 bits are raw bytes. Rows of 16 bits are escape pairs,
first byte in the high half (R54), when bits 15:14 are `11`; the 12-bit decode words of R61 stand in 16 bits with
bits 15:12 zero, so the two formats never meet. -/
def tableCode (nbits w : Nat) : Option Code :=
  match nbits with
  | 8 => if w < 0x100 then some (.raw (BitVec.ofNat 8 w)) else none
  | 12 => if w < 0x1000 then some (.fsm (BitVec.ofNat 12 w)) else none
  | 16 =>
    if w < 0x1000 then some (.fsm (BitVec.ofNat 12 w))
    else if w < 0x10000 then some (.esc (BitVec.ofNat 16 w))
    else none
  | _ => none

/-- The instruction the decoder reads from the table's `nbits` bits `w`. -/
def decodeTableWord (nbits w : Nat) : Option Instr :=
  match tableCode nbits w with
  | none => none
  | some c =>
    match decode c with
    | .ok i => some i
    | .error _ => none

end Sys2Proof
end

