-- ==== Sys2Proof/Machine/State.lean ====
section
/-! DEFINITION. The machine's state as plain data: every register of 10_state.md, the output sequence, the parameters
fixed at construction, and three fields of the model's own (`agenda`, `unitOut`, `outBeforeReset`; log entries 1, 2 and
6). The block has no addressable memory (R38), so State holds none. -/

namespace Sys2Proof.Machine

/-! ### Telegrams, records and events -/

/-- The Request registers `req.*` (R18 to R23). -/
structure Request where
  src : Byte
  dest : Byte
  cmdHi : Byte
  cmdLo : Byte
  len : Byte
  payload : List Byte
  crc : Byte
  deriving DecidableEq, Repr

/-- The Response registers `rsp.*` (R24). -/
structure Response where
  len : Byte
  payload : List Byte
  crc : Byte
  deriving DecidableEq, Repr

/-- A `TEL` item (R34): the seven Request fields, and the Response or none. -/
structure Tel extends Request where
  rsp : Option Response
  deriving DecidableEq, Repr

/-- Which half of a telegram: `REQ` or `RSP`. -/
inductive Part where
  | req
  | rsp
  deriving DecidableEq, Repr

/-- The labels of the adapter commands (R58). -/
inductive StatusLabel where
  | resetted
  | received
  | started
  | info
  | failed
  | errorEbus
  | errorHost
  | unknown
  deriving DecidableEq, Repr

/-- The diagnostic events with their info (R137). -/
inductive Event where
  /-- 0x01: the discarded prefix and the byte after it. -/
  | framingError (b1 b2 : Byte)
  /-- 0x02: command, data byte, label. -/
  | adapterStatus (c : BitVec 4) (d : Byte) (label : StatusLabel)
  /-- 0x03: part and length byte. -/
  | lengthViolation (part : Part) (b : Byte)
  /-- 0x04: part, computed checksum, received byte. -/
  | checksumMismatch (part : Part) (computed received : Byte)
  /-- 0x05: the byte received in WaitAck. -/
  | protocolError (b : Byte)
  /-- 0x06: the definition's indices, the field's name and its type text. -/
  | unsupportedFieldType (ci mi : Nat) (name ty : Text)
  /-- 0x07: the definition's indices, the field's name, its offset and the payload's length. -/
  | fieldOutOfRange (ci mi : Nat) (name : Text) (offset len : Nat)
  /-- 0x08: the definition's indices. -/
  | matchNoExtract (ci mi : Nat)
  deriving DecidableEq, Repr

/-- A record value (R133): `Int(n)` and `Float(x)` are different values even of one number. -/
inductive Value where
  | int (n : BitVec 16)
  | float (x : F64)
  deriving DecidableEq, Repr

/-- A `REC` item (R135). -/
structure Record where
  ci : Nat
  mi : Nat
  src : Part
  fields : List (Text × Value)
  deriving DecidableEq, Repr

/-- An item of the output sequence, tagged with its port (R33). -/
inductive Item where
  | tel (t : Tel)
  | record (r : Record)
  | evt (e : Event)
  deriving DecidableEq, Repr

/-! ### The model's own data -/

/-- Whose turn it is (log entry 1): a Host operation, or one turn of the Core. A list of these is one schedule of the
interleaving that R5 leaves open. -/
inductive Turn where
  | feed (bytes : List Byte)
  | reset
  | core
  deriving DecidableEq, Repr

/-- The result of an OP, PATTERN or DTYPE row performed as an instruction of its own (log entry 2). -/
inductive UnitOut where
  | idle
  /-- A checksum byte (R71, R72). -/
  | crc (v : Byte)
  /-- Whether a pattern accepts its value (R117 to R120). -/
  | accept (v : Bool)
  /-- The raw integer of a field (R126 to R128). -/
  | raw (n : BitVec 16)
  /-- The field is skipped (R129, R130). -/
  | skip
  deriving DecidableEq, Repr

/-! ### The state -/

/-- The whole state. Fields `st` to `ackReceived` are the block's state by R15; `out` is the output sequence of R33. -/
structure State where
  /-- The FSM state register, 4 bits (R16). -/
  st : BitVec 4
  /-- The Request registers (R18 to R23). -/
  req : Request
  /-- The Response registers (R24). -/
  rsp : Response
  /-- Payload bytes still expected for the active buffer, 5 bits (R25). -/
  remaining : BitVec 5
  /-- The input queue, head first (R26). -/
  inQ : List Byte
  /-- The pending-prefix register (R27). -/
  pend : Option Byte
  /-- R28. -/
  gotResponse : Bool
  /-- R29. -/
  gotBroadcast : Bool
  /-- R30. -/
  ackReceived : Bool
  /-- The items output since construction or the last reset, oldest first (R33, R36). -/
  out : List Item
  /-- MODEL: the items that were already output when the Host last reset the block (log entry 6). -/
  outBeforeReset : List Item
  /-- `CRC_TABLE` and `CATALOG`, fixed at construction (R31). -/
  params : Params
  /-- MODEL: the turns to come (log entry 1). -/
  agenda : List Turn
  /-- MODEL: the result of the last unit operation performed on its own (log entry 2). -/
  unitOut : UnitOut
  deriving DecidableEq, Repr

/-- The machine's faults: there are none. The block has no traps, and no condition of it is fatal (60_exceptions.md,
R148, R152), so the type is empty and a step can never answer a fault. -/
inductive Fault where
  deriving DecidableEq, Repr

/-- Why a step has no meaning. -/
inductive Refusal where
  /-- Raised by an arm of `exec` for an instruction that has no meaning yet; no arm does. Safe. -/
  | notModelled (mnemonic : String)
  /-- Raised when the state register holds one of the encodings 10 to 15, which name no state: the spec has the model
  refuse (R17, D35). Raised by a Core turn that has a byte to take, and by the rows that hand a byte to the state
  machine. Safe: no reachable state holds such an encoding. -/
  | reservedFsmState (st : BitVec 4)
  deriving DecidableEq, Repr

/-- The outcome of a step or of an instruction. -/
abbrev Result := Host.Outcome State Fault Refusal

/-! ### Reset -/

/-- The cleared Request registers (R36). -/
def Request.cleared : Request :=
  { src := 0, dest := 0, cmdHi := 0, cmdLo := 0, len := 0, payload := [], crc := 0 }

/-- The cleared Response registers (R36). -/
def Response.cleared : Response := { len := 0, payload := [], crc := 0 }

/-- The block right after construction with the parameters `p` (R36, R154). -/
def State.construct (p : Params) : State :=
  { st := FsmState.waitSyn.code
    req := Request.cleared
    rsp := Response.cleared
    remaining := 0
    inQ := []
    pend := none
    gotResponse := false
    gotBroadcast := false
    ackReceived := false
    out := []
    outBeforeReset := []
    params := p
    agenda := []
    unitOut := .idle }

/-- The machine right after reset: constructed with the default parameters (R36, R154). -/
def State.reset : State := State.construct Params.default

end Sys2Proof.Machine
end

