-- ==== Sys2Proof/Machine/Float64.lean ====
section
/-! DEFINITION. The FLOAT arithmetic the Field Extractor needs (R131, R132): binary64 multiplication of an exact
integer 0..65535 by a factor, rounded to nearest with ties to even (log entry 5 for NaN results, 7 for the rest). A
finite binary64 is `(-1)^sign * m * 2^(eb - 1075)` with the significand `m < 2^53` and the exponent `eb` in 1..2046. -/

namespace Sys2Proof.Machine

/-- The sign bit. -/
def floatSign (x : F64) : Bool := x.msb

/-- The 11 exponent bits. -/
def floatExp (x : F64) : Nat := (x.extractLsb' 52 11).toNat

/-- The 52 fraction bits. -/
def floatFrac (x : F64) : Nat := (x.extractLsb' 0 52).toNat

/-- NaN: exponent all ones, fraction not zero. -/
def floatIsNan (x : F64) : Bool := floatExp x = 2047 && floatFrac x ≠ 0

/-- An infinity: exponent all ones, fraction zero. -/
def floatIsInf (x : F64) : Bool := floatExp x = 2047 && floatFrac x = 0

/-- The significand of a finite value: with the implicit bit unless the value is subnormal. -/
def floatSig (x : F64) : Nat :=
  if floatExp x = 0 then floatFrac x else floatFrac x + 2 ^ 52

/-- The exponent of a finite value, 1 for a subnormal. -/
def floatScale (x : F64) : Nat :=
  if floatExp x = 0 then 1 else floatExp x

/-- `p / 2^sh` rounded to the nearest integer, ties to even. -/
def roundShift (p sh : Nat) : Nat :=
  let q := p / 2 ^ sh
  let r := p % 2 ^ sh
  if 2 * r > 2 ^ sh ∨ (2 * r = 2 ^ sh ∧ q % 2 = 1) then q + 1 else q

/-- The exponent and fraction bits, as one number, of the binary64 nearest to `p * 2^(eb - 1075)`. A significand
rounded up to `2^53` carries into the exponent, a subnormal one leaves it 0, and anything past the largest finite value
is the infinity, 2047 * 2^52. -/
def packMagnitude (p eb : Nat) : Nat :=
  if p = 0 then 0
  else if p < 2 ^ 53 then
    let k := min (52 - Nat.log2 p) (eb - 1)
    (eb - k - 1) * 2 ^ 52 + p * 2 ^ k
  else
    let sh := Nat.log2 p - 52
    min ((eb + sh - 1) * 2 ^ 52 + roundShift p sh) (2047 * 2 ^ 52)

/-- A value from its sign and the 63 bits below it. -/
def packFloat (sign : Bool) (mag : Nat) : F64 :=
  BitVec.ofBool sign ++ BitVec.ofNat 63 mag

/-- A NaN whose sign and fraction are the free value of log entry 5. A fraction of 0 would be an infinity, so the
fraction 1 stands in for it: every NaN can result, and nothing else. -/
def freeNan (n : BitVec 16) (factor : F64) : F64 :=
  let r := Config.nanRest factor n
  let frac : BitVec 52 := r.extractLsb' 0 52
  r.extractLsb' 52 1 ++ 0b11111111111#11 ++ (if frac = 0 then 1 else frac)

/-- `fl(n) * factor` in binary64 (R132). -/
def floatMulNat (n : BitVec 16) (factor : F64) : F64 :=
  if floatIsNan factor then freeNan n factor
  else if floatIsInf factor then
    if n = 0 then freeNan n factor else factor
  else packFloat (floatSign factor) (packMagnitude (n.toNat * floatSig factor) (floatScale factor))

/-- `scale(n, factor)` in the format `FLOAT` (R131, R132): an integer when the factor equals 1.0, else the product as a
float. -/
def scale (format : FloatFormat) (n : BitVec 16) (factor : F64) : Value :=
  match format with
  | .binary64 => if factor = Config.floatOne then .int n else .float (floatMulNat n factor)

end Sys2Proof.Machine
end

