-- ==== Sys2Proof/Machine/Ops.lean ====
section
/-! DEFINITION. The shared operations: the output ports, the diagnostic events, the pending-prefix register, the two
procedures that end a telegram's life (`clearTelegram`, and `dropTelegram`, the block's equivalent of taking an
exception), and the updates of the active buffer. -/

namespace Sys2Proof.Machine

/-! ### Output ports (R33, R137, R149) -/

/-- Append items to the output sequence, in order (R12, R33). -/
def State.output (s : State) (items : List Item) : State :=
  { s with out := s.out ++ items }

/-- `raise E(info)`: append one diagnostic event; no register changes (R10, R138). -/
def State.raise (s : State) (e : Event) : State :=
  s.output [.evt e]

/-- The code of an event (R137). -/
def Event.code : Event → Byte
  | .framingError _ _ => 0x01
  | .adapterStatus _ _ _ => 0x02
  | .lengthViolation _ _ => 0x03
  | .checksumMismatch _ _ _ => 0x04
  | .protocolError _ => 0x05
  | .unsupportedFieldType _ _ _ _ => 0x06
  | .fieldOutOfRange _ _ _ _ _ => 0x07
  | .matchNoExtract _ _ => 0x08

/-- Whether an event is of class "error"; the other two are of class "information" (R137). -/
def Event.isError : Event → Bool
  | .framingError _ _ => true
  | .adapterStatus _ _ _ => false
  | .lengthViolation _ _ => true
  | .checksumMismatch _ _ _ => true
  | .protocolError _ => true
  | .unsupportedFieldType _ _ _ _ => true
  | .fieldOutOfRange _ _ _ _ _ => true
  | .matchNoExtract _ _ => false

/-! ### Registers -/

/-- `st <- S` (R10). -/
def State.goto (s : State) (q : FsmState) : State :=
  { s with st := q.code }

/-- Write the pending-prefix register (R27). -/
def State.setPend (s : State) (p : Option Byte) : State :=
  { s with pend := p }

/-- MODEL: latch the result of a unit operation performed on its own (log entry 2). -/
def State.setUnit (s : State) (u : UnitOut) : State :=
  { s with unitOut := u }

/-! ### The input queue's capacity (R26, R159) -/

/-- How many bytes of a chunk the input queue has room for: all of them when `IN_QUEUE_CAP` is unbounded. -/
def State.roomFor (s : State) (bytes : List Byte) : Nat :=
  match s.params.inQueueCap with
  | none => bytes.length
  | some cap => min bytes.length (cap - s.inQ.length)

/-- Whether a full queue holds the Host back: there are bytes to feed and no room for one (R159). -/
def State.holdsBack (s : State) (bytes : List Byte) : Bool :=
  bytes ≠ [] && s.roomFor bytes = 0

/-! ### Clearing, dropping -/

/-- `clear_telegram()` (R88): it does not write `st`, `pend` or `in_q`. -/
def State.clearTelegram (s : State) : State :=
  { s with
    req := Request.cleared
    rsp := Response.cleared
    remaining := 0
    gotResponse := false
    ackReceived := false
    gotBroadcast := false }

/-- TAKING AN EXCEPTION. What a drop does, the block's equivalent of trap entry (R148): it saves nothing, clears the
telegram and writes the next state; there is no vector, no handler and no mode. The event, where the condition has one,
is raised before it by the rule that detects the condition (R138). There is no return operation (R150): the next
logical byte is processed by the ordinary rules. -/
def State.dropTelegram (s : State) (next : FsmState) : State :=
  s.clearTelegram.goto next

/-! ### The active buffer (R13: `A = req` while `got_response = 0`, else `A = rsp`) -/

/-- Which half is active. -/
def State.activePart (s : State) : Part :=
  if s.gotResponse then .rsp else .req

/-- `A.payload`. -/
def State.activePayload (s : State) : List Byte :=
  if s.gotResponse then s.rsp.payload else s.req.payload

/-- `A.len`. -/
def State.activeLen (s : State) : Byte :=
  if s.gotResponse then s.rsp.len else s.req.len

/-- `A.len <- b`. -/
def State.setActiveLen (s : State) (b : Byte) : State :=
  if s.gotResponse then { s with rsp.len := b } else { s with req.len := b }

/-- `A.payload <- A.payload ++ [b]`. -/
def State.appendActive (s : State) (b : Byte) : State :=
  if s.gotResponse then { s with rsp.payload := s.rsp.payload ++ [b] }
  else { s with req.payload := s.req.payload ++ [b] }

/-- `A.crc <- b`. -/
def State.setActiveCrc (s : State) (b : Byte) : State :=
  if s.gotResponse then { s with rsp.crc := b } else { s with req.crc := b }

/-- The length rule's shared effect (R98, R110): `A.len <- b; remaining <- b`, then WaitData, or WaitCRC for length 0. -/
def State.acceptLength (s : State) (b : Byte) : State :=
  ({ s.setActiveLen b with remaining := b.setWidth 5 } : State).goto (if b = 0 then .waitCrc else .waitData)

/-- The data rule (R99): append to the active payload, count down, and leave for WaitCRC at zero. -/
def State.takeData (s : State) (b : Byte) : State :=
  ({ s.appendActive b with remaining := s.remaining - 1 } : State).goto
    (if s.remaining - 1 = 0 then .waitCrc else .waitData)

/-- The telegram value an emit hands over, copied from the registers (R34, R89): the Response is present exactly when
`got_response = 1`. -/
def State.telegram (s : State) : Tel :=
  { s.req with rsp := if s.gotResponse then some s.rsp else none }

end Sys2Proof.Machine
end

