-- ==== Sys2Proof/Machine/Operands.lean ====
section
/-! DEFINITION. The operand forms: the data byte and label of an escape pair, the hex rendering the patterns compare
with, the reads of payload bytes, and the canonical escape pair that carries a byte. -/

namespace Sys2Proof.Machine

/-! ### Escape pairs (R55, R57, R58) -/

/-- The data byte of a valid pair: `((b1[1:0] << 6) + b2[6:0]) mod 256` (R55). -/
def escapeData (dd : BitVec 2) (e : BitVec 7) : Byte :=
  (dd ++ 0#6) + e.setWidth 8

/-- The label of an adapter command (R58); the numbers other than 1 are the spec's general knowledge (log entry 12). -/
def statusLabel (c : BitVec 4) : StatusLabel :=
  match c.toNat with
  | 0 => .resetted
  | 1 => .received
  | 2 => .started
  | 3 => .info
  | 10 => .failed
  | 11 => .errorEbus
  | 12 => .errorHost
  | _ => .unknown

/-- First byte of the canonical pair `ESC(c, d)` (R57). -/
def escPairFirst (c : BitVec 4) (d : Byte) : Byte :=
  0b11#2 ++ c ++ d.extractLsb' 6 2

/-- Second byte of the canonical pair `ESC(c, d)` (R57). -/
def escPairSecond (d : Byte) : Byte :=
  0b10#2 ++ d.extractLsb' 0 6

/-- `D(d)`: the raw bytes an adapter sends the logical byte `d` as (R67): plain below `ESC_MIN`, else `ESC(1, d)`. -/
def adapterBytes (c : Constants) (d : Byte) : List Byte :=
  if d < c.escMin then [d] else [escPairFirst c.cmdReceived d, escPairSecond d]

/-! ### Hex rendering (R114, R115) -/

/-- The sixteen digits of the rendering. -/
def hexDigits : Text :=
  ['0', '1', '2', '3', '4', '5', '6', '7', '8', '9', 'A', 'B', 'C', 'D', 'E', 'F']

/-- One upper-case hex digit. -/
def hexDigit (n : BitVec 4) : Char :=
  hexDigits.getD n.toNat '0'

/-- `hex2(v)`: high nibble, then low nibble. -/
def hex2 (v : Byte) : Text :=
  [hexDigit (v.extractLsb' 4 4), hexDigit (v.extractLsb' 0 4)]

/-- `hexs(s)`: the bytes' renderings in order, with no separator. -/
def hexs (s : List Byte) : Text :=
  s.flatMap hex2

/-! ### Payload reads (R10, R44, R45, R126 to R130) -/

/-- `MemRead(buf, off, n)`: defined only when `off + n <= len(buf)` (R10). No alignment (R45). -/
def memRead (buf : List Byte) (off n : Nat) : Option (List Byte) :=
  if off + n ≤ buf.length then some ((buf.drop off).take n) else none

/-- What reading a field gives (R125): its raw integer, or a skip with the event it raises. -/
inductive FieldRead where
  | raw (n : BitVec 16)
  | skip (e : Event)
  deriving DecidableEq, Repr

/-- The event of a field whose bytes lie beyond the payload (R130). -/
def outOfRange (site : FieldSite) (payload : List Byte) : FieldRead :=
  .skip (.fieldOutOfRange site.ci site.mi site.name site.offset payload.length)

/-- `u8` (R126). -/
def readU8 (site : FieldSite) (payload : List Byte) : FieldRead :=
  match memRead payload site.offset 1 with
  | some [b] => .raw (b.setWidth 16)
  | _ => outOfRange site payload

/-- `u16le` (R127): the byte at the lower offset is the least significant. -/
def readU16le (site : FieldSite) (payload : List Byte) : FieldRead :=
  match memRead payload site.offset 2 with
  | some [lo, hi] => .raw (hi ++ lo)
  | _ => outOfRange site payload

/-- `u16be` (R128): the byte at the lower offset is the most significant. -/
def readU16be (site : FieldSite) (payload : List Byte) : FieldRead :=
  match memRead payload site.offset 2 with
  | some [hi, lo] => .raw (hi ++ lo)
  | _ => outOfRange site payload

/-- An unsupported type (R129). -/
def readUnsupported (site : FieldSite) (ty : Text) : FieldRead :=
  .skip (.unsupportedFieldType site.ci site.mi site.name ty)

end Sys2Proof.Machine
end

