-- ==== Sys2Proof/Machine/Matcher.lean ====
section
/-! DEFINITION. The Message Matcher (43_matcher_extractor.md sections 1 and 2): the pattern forms, the rows of format
PATTERN, and whether a definition matches a telegram. -/

namespace Sys2Proof.Machine

/-! ### Pattern forms -/

/-- `"*"` accepts every value (R117). -/
def anyAccepts (_value : Text) : Bool := true

/-- `"^" ++ q` accepts the values that begin with exactly `q` (R118). -/
def prefixAccepts (q value : Text) : Bool :=
  q.length ≤ value.length && value.take q.length = q

/-- A Literal compares position by position; `*` in the pattern stands for any one character (R119). -/
def literalAccepts : Text → Text → Bool
  | [], [] => true
  | p :: ps, v :: vs => (p = '*' || p = v) && literalAccepts ps vs
  | _, _ => false

/-- An absent field accepts every value, as if it were `"*"` (R120). -/
def absentAccepts (value : Text) : Bool := anyAccepts value

/-- `accepts(p, v)` for a request-match field: its form by R116, then the form's rule. -/
def accepts (p : Option Text) (value : Text) : Bool :=
  match p with
  | none => absentAccepts value
  | some ['*'] => anyAccepts value
  | some ('^' :: q) => prefixAccepts q value
  | some p => literalAccepts p value

/-! ### Rows of format PATTERN -/

/-- PAT_ANY (R117). -/
def execPatAny (value : Text) (s : State) : Result :=
  .next (s.setUnit (.accept (anyAccepts value)))

/-- PAT_PREFIX (R118). -/
def execPatPrefix (q value : Text) (s : State) : Result :=
  .next (s.setUnit (.accept (prefixAccepts q value)))

/-- PAT_LITERAL (R119). -/
def execPatLiteral (p value : Text) (s : State) : Result :=
  .next (s.setUnit (.accept (literalAccepts p value)))

/-- PAT_ABSENT (R120). -/
def execPatAbsent (value : Text) (s : State) : Result :=
  .next (s.setUnit (.accept (absentAccepts value)))

/-! ### Matching a definition -/

/-- `def_matches(rm, t)` (R115, R121): only the Request part of `t` is compared. -/
def defMatches (rm : RequestMatch) (t : Tel) : Bool :=
  accepts rm.src (hex2 t.src) && accepts rm.dst (hex2 t.dest) &&
    accepts rm.pbsb (hex2 t.cmdHi ++ hex2 t.cmdLo) && accepts rm.data (hexs t.payload)

end Sys2Proof.Machine
end

