-- ==== Sys2Proof/Machine/Extractor.lean ====
section
/-! DEFINITION. The Field Extractor (43_matcher_extractor.md section 3): the rows of format DTYPE, the selection of a
field map, and the items a matching definition outputs; then the scan over the whole catalog. -/

namespace Sys2Proof.Machine

/-! ### Rows of format DTYPE -/

/-- A field read as an instruction of its own: the raw integer is latched, or the skip's event is raised (R125). -/
def State.readField (s : State) : FieldRead → State
  | .raw n => s.setUnit (.raw n)
  | .skip e => (s.raise e).setUnit .skip

/-- TYPE_U8 (R126, R130). -/
def execTypeU8 (site : FieldSite) (payload : List Byte) (s : State) : Result :=
  .next (s.readField (readU8 site payload))

/-- TYPE_U16LE (R127, R130). -/
def execTypeU16le (site : FieldSite) (payload : List Byte) (s : State) : Result :=
  .next (s.readField (readU16le site payload))

/-- TYPE_U16BE (R128, R130). -/
def execTypeU16be (site : FieldSite) (payload : List Byte) (s : State) : Result :=
  .next (s.readField (readU16be site payload))

/-- TYPE_UNSUPPORTED (R129). -/
def execTypeUnsupported (site : FieldSite) (ty : Text) (s : State) : Result :=
  .next (s.readField (readUnsupported site ty))

/-! ### Extraction -/

/-- `read_field(f, pay)` (R125): the type is tested before the range. -/
def readField (c : Constants) (ty : Text) (site : FieldSite) (payload : List Byte) : FieldRead :=
  if ty = c.typeU8 then readU8 site payload
  else if ty = c.typeU16le then readU16le site payload
  else if ty = c.typeU16be then readU16be site payload
  else readUnsupported site ty

/-- `put(fields, name, v)` (R134): replace the value of a name already there, in place, else append. -/
def putField (name : Text) (v : Value) : List (Text × Value) → List (Text × Value)
  | [] => [(name, v)]
  | (n, old) :: rest => if n = name then (n, v) :: rest else (n, old) :: putField name v rest

/-- `select(m, t)` (R122): the part decoded, its field map, and its payload. -/
def selectMap (m : MessageDef) (t : Tel) : Option (Part × List Field × List Byte) :=
  match m.responseMap, t.rsp with
  | some fmap, some r => some (.rsp, fmap, r.payload)
  | _, _ => m.requestMap.map fun fmap => (.req, fmap, t.payload)

/-- The events and the fields gathered so far while a field map is walked (R123). -/
structure Gathered where
  events : List Event
  fields : List (Text × Value)
  deriving DecidableEq, Repr

/-- One field of the map (R123): its value is put, or its event is kept and the field skipped. -/
def extractField (c : Constants) (ci mi : Nat) (payload : List Byte) (g : Gathered) (f : Field) : Gathered :=
  match readField c f.dataType { ci := ci, mi := mi, name := f.name, offset := f.offset } payload with
  | .raw n => { g with fields := putField f.name (scale c.float n f.factor) g.fields }
  | .skip e => { g with events := g.events ++ [e] }

/-- `Extract(ci, mi, m, t)` (R123, R124, R135): the events in field order, then the record; or MATCH_NO_EXTRACT. -/
def extract (c : Constants) (ci mi : Nat) (m : MessageDef) (t : Tel) : List Item :=
  match selectMap m t with
  | none => [.evt (.matchNoExtract ci mi)]
  | some (src, fmap, payload) =>
    let g := fmap.foldl (extractField c ci mi payload) { events := [], fields := [] }
    g.events.map Item.evt ++ [.record { ci := ci, mi := mi, src := src, fields := g.fields }]

/-- One circuit's part of the scan, from message index `mi` on (R113). -/
def matchMessages (c : Constants) (ci : Nat) (t : Tel) : Nat → List MessageDef → List Item
  | _, [] => []
  | mi, m :: rest =>
    (if defMatches m.requestMatch t then extract c ci mi m t else []) ++ matchMessages c ci t (mi + 1) rest

/-- The scan from circuit index `ci` on (R113). -/
def matchCircuits (c : Constants) (t : Tel) : Nat → List Circuit → List Item
  | _, [] => []
  | ci, circuit :: rest => matchMessages c ci t 0 circuit.messages ++ matchCircuits c t (ci + 1) rest

/-- `Match(t)` (R113): the items of every matching definition, in catalog order, with no short-circuit. -/
def matchItems (p : Params) (t : Tel) : List Item :=
  matchCircuits p.toConstants t 0 p.catalog.circuits

end Sys2Proof.Machine
end

