-- ==== Sys2Proof/Machine/Crc8.lean ====
section
/-! DEFINITION. The CRC8 Engine (40_crc8.md): pure functions of the construction-time parameters, and its
two rows. -/

namespace Sys2Proof.Machine

/-- `crc8(running, byte) = Table(running) ^ byte` (R71). -/
def crcStep (table : Vector Byte 256) (running byte : Byte) : Byte :=
  table[running.toNat]'(running.isLt) ^^^ byte

/-- `checksum(bytes)`: the fold of `crc8` from `CRC_INIT` (R72). -/
def crcFold (p : Params) (bytes : List Byte) : Byte :=
  bytes.foldl (crcStep p.crcTable) p.crcInit

/-- The Request checksum's input (R73). -/
def Request.crcInput (r : Request) : List Byte :=
  [r.src, r.dest, r.cmdHi, r.cmdLo, r.len] ++ r.payload

/-- The Response checksum's input (R74). -/
def Response.crcInput (r : Response) : List Byte :=
  r.len :: r.payload

/-- `crc_ok(req)` (R73). -/
def Request.crcOk (p : Params) (r : Request) : Bool :=
  crcFold p r.crcInput = r.crc

/-- `crc_ok(rsp)` (R74). -/
def Response.crcOk (p : Params) (r : Response) : Bool :=
  crcFold p r.crcInput = r.crc

/-- `checksum(input(A))` of the active buffer (R101, R102). -/
def State.activeChecksum (s : State) : Byte :=
  crcFold s.params (if s.gotResponse then s.rsp.crcInput else s.req.crcInput)

/-! ### Rows of format OP -/

/-- CRC8 (R71). -/
def execCrc8 (running byte : Byte) (s : State) : Result :=
  .next (s.setUnit (.crc (crcStep s.params.crcTable running byte)))

/-- CHECKSUM (R72). -/
def execChecksum (bytes : List Byte) (s : State) : Result :=
  .next (s.setUnit (.crc (crcFold s.params bytes)))

end Sys2Proof.Machine
end

