-- ==== Sys2Proof/Machine/Flags.lean ====
section
/-! DEFINITION. The flags (10_state.md R28 to R30): what sets each one, and the checksum comparison, the one condition
a rule computes rather than stores. All three are cleared by `clearTelegram` alone (R88). -/

namespace Sys2Proof.Machine

/-- `if b = BROADCAST then got_broadcast <- 1`, otherwise unchanged (R94). -/
def State.noteDestination (s : State) (b : Byte) : State :=
  { s with gotBroadcast := s.gotBroadcast || b = s.params.broadcast }

/-- `got_response <- 1` (R110, R111). -/
def State.noteResponse (s : State) : State :=
  { s with gotResponse := true }

/-- `ack_received <- 1` (R104). -/
def State.noteAck (s : State) : State :=
  { s with ackReceived := true }

/-- The comparison of WaitCRC: the received byte equals `checksum(input(A))` (R101, R102). -/
def State.checksumMatches (s : State) (b : Byte) : Bool :=
  b = s.activeChecksum

end Sys2Proof.Machine
end

