-- ==== Sys2Proof/Machine/Telegram.lean ====
section
/-! DEFINITION. The Telegram State Machine (42_telegram_fsm.md): the emit, one meaning per row of format FSM, and the
dispatch `fsm` on a logical byte. A row's actions never read `st`: the row's word holds it (log entry 10). -/

namespace Sys2Proof.Machine

/-! ### Shared transitions -/

/-- `emit(); st <- next` (R89, R103, R106, R109): the TEL item, the items of the scan, then the telegram is cleared. -/
def State.emit (s : State) (next : FsmState) : State :=
  ((s.output (.tel s.telegram :: matchItems s.params s.telegram)).clearTelegram).goto next

/-- The checksum byte (R101, R102): stored, then compared; a mismatch raises its event and drops the telegram. -/
def State.takeChecksum (s : State) (b : Byte) : State :=
  if s.checksumMatches b then (s.setActiveCrc b).goto .waitAck
  else ((s.setActiveCrc b).raise (.checksumMismatch s.activePart s.activeChecksum b)).dropTelegram .waitSyn

/-! ### WaitSYN to WaitCmdLo -/

/-- FSM_WAITSYN_SYN (R90). -/
def execFsmWaitSynSyn (s : State) : Result := .next (s.goto .waitSrc)

/-- FSM_WAITSYN_OTHER (R91): the byte is ignored. -/
def execFsmWaitSynOther (_b : Byte) (s : State) : Result := .next (s.goto .waitSyn)

/-- FSM_WAITSRC_SYN (R93). -/
def execFsmWaitSrcSyn (s : State) : Result := .next (s.goto .waitSrc)

/-- FSM_WAITSRC_OTHER (R92). -/
def execFsmWaitSrcOther (b : Byte) (s : State) : Result :=
  .next (({ s with req.src := b } : State).goto .waitDest)

/-- FSM_WAITDEST_ANY (R94). -/
def execFsmWaitDestAny (b : Byte) (s : State) : Result :=
  .next ((({ s with req.dest := b } : State).noteDestination b).goto .waitCmdHi)

/-- FSM_WAITCMDHI_ANY (R95). -/
def execFsmWaitCmdHiAny (b : Byte) (s : State) : Result :=
  .next (({ s with req.cmdHi := b } : State).goto .waitCmdLo)

/-- FSM_WAITCMDLO_ANY (R96). -/
def execFsmWaitCmdLoAny (b : Byte) (s : State) : Result :=
  .next (({ s with req.cmdLo := b } : State).goto .waitLen)

/-! ### WaitLen, WaitData, WaitCRC -/

/-- FSM_WAITLEN_OK_LO (R98): a length 0 to 15. -/
def execFsmWaitLenOkLo (n : BitVec 4) (s : State) : Result := .next (s.acceptLength (n.setWidth 8))

/-- FSM_WAITLEN_OK_16 (R98). -/
def execFsmWaitLenOk16 (s : State) : Result := .next (s.acceptLength Config.maxLenByte)

/-- FSM_WAITLEN_BAD (R97): length violation. -/
def execFsmWaitLenBad (b : Byte) (s : State) : Result :=
  .next ((s.raise (.lengthViolation .req b)).dropTelegram .waitSyn)

/-- FSM_WAITDATA_ANY (R99); with nothing remaining it acts as WaitCRC (R100). -/
def execFsmWaitDataAny (b : Byte) (s : State) : Result :=
  if s.remaining = 0 then .next (s.takeChecksum b) else .next (s.takeData b)

/-- FSM_WAITCRC_ANY (R101, R102). -/
def execFsmWaitCrcAny (b : Byte) (s : State) : Result := .next (s.takeChecksum b)

/-! ### WaitAck -/

/-- FSM_WAITACK_ACK: after a Response it completes the telegram (R103), else the Response is awaited (R104). -/
def execFsmWaitAckAck (s : State) : Result :=
  if s.gotResponse then .next (s.emit .waitSyn) else .next (s.noteAck.goto .waitResponse)

/-- FSM_WAITACK_NACK (R105): dropped with no event. -/
def execFsmWaitAckNack (s : State) : Result := .next (s.dropTelegram .waitSyn)

/-- FSM_WAITACK_SYN: it ends a broadcast (R106), and drops any other telegram with no event (R107). -/
def execFsmWaitAckSyn (s : State) : Result :=
  if s.gotBroadcast then .next (s.emit .waitSrc) else .next (s.dropTelegram .waitSrc)

/-- FSM_WAITACK_OTHER (R108): protocol error. -/
def execFsmWaitAckOther (b : Byte) (s : State) : Result :=
  .next ((s.raise (.protocolError b)).dropTelegram .waitSyn)

/-! ### WaitResponse -/

/-- FSM_WAITRSP_SYN (R109): a telegram without Response. -/
def execFsmWaitRspSyn (s : State) : Result := .next (s.emit .waitSyn)

/-- FSM_WAITRSP_OK_LO (R110): a Response length 0 to 15. -/
def execFsmWaitRspOkLo (n : BitVec 4) (s : State) : Result := .next (s.noteResponse.acceptLength (n.setWidth 8))

/-- FSM_WAITRSP_OK_16 (R110). -/
def execFsmWaitRspOk16 (s : State) : Result := .next (s.noteResponse.acceptLength Config.maxLenByte)

/-- FSM_WAITRSP_BAD (R111): Response length violation. -/
def execFsmWaitRspBad (b : Byte) (s : State) : Result :=
  .next ((s.noteResponse.raise (.lengthViolation .rsp b)).dropTelegram .waitSyn)

/-! ### Dispatch (R87) -/

/-- WaitLen on a byte: accepted up to `MAX_LEN` (R98), the effect of the OK rows, else a violation (R97). -/
def fsmWaitLen (b : Byte) (s : State) : Result :=
  if b ≤ s.params.maxLenByte then .next (s.acceptLength b) else execFsmWaitLenBad b s

/-- The rows of WaitAck on a byte. -/
def fsmWaitAck (b : Byte) (s : State) : Result :=
  if b = s.params.ack then execFsmWaitAckAck s
  else if b = s.params.nack then execFsmWaitAckNack s
  else if b = s.params.syn then execFsmWaitAckSyn s
  else execFsmWaitAckOther b s

/-- WaitResponse on a byte: a SYN (R109), then a length up to `MAX_LEN` (R110), the effect of the OK rows, else a
violation (R111). -/
def fsmWaitRsp (b : Byte) (s : State) : Result :=
  if b = s.params.syn then execFsmWaitRspSyn s
  else if b ≤ s.params.maxLenByte then .next (s.noteResponse.acceptLength b)
  else execFsmWaitRspBad b s

/-- `FSM(b)`: one transition on the logical byte `b`, the rule whose state equals `st` and whose guard holds for the
block's own constants, guards tried in the table's order (R87). A reserved state is refused (R17). -/
def fsm (b : Byte) (s : State) : Result :=
  match FsmState.ofCode s.st with
  | some .waitSyn => if b = s.params.syn then execFsmWaitSynSyn s else execFsmWaitSynOther b s
  | some .waitSrc => if b = s.params.syn then execFsmWaitSrcSyn s else execFsmWaitSrcOther b s
  | some .waitDest => execFsmWaitDestAny b s
  | some .waitCmdHi => execFsmWaitCmdHiAny b s
  | some .waitCmdLo => execFsmWaitCmdLoAny b s
  | some .waitLen => fsmWaitLen b s
  | some .waitData => execFsmWaitDataAny b s
  | some .waitCrc => execFsmWaitCrcAny b s
  | some .waitAck => fsmWaitAck b s
  | some .waitResponse => fsmWaitRsp b s
  | none => .refused (.reservedFsmState s.st)

end Sys2Proof.Machine
end

