-- ==== Sys2Proof/Machine/Deframer.lean ====
section
/-! DEFINITION. The Deframer's rows (41_deframer.md R80 to R85): raw bytes and escape pairs. The byte has already left
the input queue when a row runs (`Machine/Fetch.lean`). -/

namespace Sys2Proof.Machine

/-! ### Rows of format RAW -/

/-- RAW_PLAIN_LO (R80). -/
def execRawPlainLo (b : Byte) (s : State) : Result := fsm b s

/-- RAW_PLAIN_HI (R80). -/
def execRawPlainHi (b : Byte) (s : State) : Result := fsm b s

/-- RAW_ESC_PREFIX (R81): the prefix is held, nothing is output. -/
def execRawEscPrefix (b : Byte) (s : State) : Result := .next (s.setPend (some b))

/-! ### Rows of format ESC -/

/-- ESC_FRAMING_ERROR (R82): the event, the prefix is discarded, and `b2` goes on as a plain byte. -/
def execEscFramingError (b1 b2 : Byte) (s : State) : Result :=
  fsm b2 ((s.raise (.framingError b1 b2)).setPend none)

/-- A status pair (R83, R85): the event, no logical byte, and no state but `pend` changes. -/
def State.takeStatus (s : State) (c : BitVec 4) (dd : BitVec 2) (e : BitVec 7) : State :=
  (s.setPend none).raise (.adapterStatus c (escapeData dd e) (statusLabel c))

/-- A valid pair of command `c` (R83): the data byte is forwarded when `c` is `CMD_RECEIVED` (R84), else the pair is a
status event (R85). -/
def takePair (c : BitVec 4) (dd : BitVec 2) (e : BitVec 7) (s : State) : Result :=
  if c = s.params.cmdReceived then fsm (escapeData dd e) (s.setPend none) else .next (s.takeStatus c dd e)

/-- ESC_RECEIVED (R84): command 1, the default `CMD_RECEIVED`. -/
def execEscReceived (dd : BitVec 2) (e : BitVec 7) (s : State) : Result := takePair 1 dd e s

/-- ESC_RESETTED (R85). -/
def execEscResetted (dd : BitVec 2) (e : BitVec 7) (s : State) : Result := takePair 0 dd e s

/-- ESC_STARTED (R85). -/
def execEscStarted (dd : BitVec 2) (e : BitVec 7) (s : State) : Result := takePair 2 dd e s

/-- ESC_INFO (R85). -/
def execEscInfo (dd : BitVec 2) (e : BitVec 7) (s : State) : Result := takePair 3 dd e s

/-- ESC_UNKNOWN_4 (R85). -/
def execEscUnknown4 (dd : BitVec 2) (e : BitVec 7) (s : State) : Result := takePair 4 dd e s

/-- ESC_UNKNOWN_5 (R85). -/
def execEscUnknown5 (dd : BitVec 2) (e : BitVec 7) (s : State) : Result := takePair 5 dd e s

/-- ESC_UNKNOWN_6 (R85). -/
def execEscUnknown6 (dd : BitVec 2) (e : BitVec 7) (s : State) : Result := takePair 6 dd e s

/-- ESC_UNKNOWN_7 (R85). -/
def execEscUnknown7 (dd : BitVec 2) (e : BitVec 7) (s : State) : Result := takePair 7 dd e s

/-- ESC_UNKNOWN_8 (R85). -/
def execEscUnknown8 (dd : BitVec 2) (e : BitVec 7) (s : State) : Result := takePair 8 dd e s

/-- ESC_UNKNOWN_9 (R85). -/
def execEscUnknown9 (dd : BitVec 2) (e : BitVec 7) (s : State) : Result := takePair 9 dd e s

/-- ESC_FAILED (R85). -/
def execEscFailed (dd : BitVec 2) (e : BitVec 7) (s : State) : Result := takePair 10 dd e s

/-- ESC_ERROR_EBUS (R85). -/
def execEscErrorEbus (dd : BitVec 2) (e : BitVec 7) (s : State) : Result := takePair 11 dd e s

/-- ESC_ERROR_HOST (R85). -/
def execEscErrorHost (dd : BitVec 2) (e : BitVec 7) (s : State) : Result := takePair 12 dd e s

/-- ESC_UNKNOWN_D (R85). -/
def execEscUnknownD (dd : BitVec 2) (e : BitVec 7) (s : State) : Result := takePair 13 dd e s

/-- ESC_UNKNOWN_E (R85). -/
def execEscUnknownE (dd : BitVec 2) (e : BitVec 7) (s : State) : Result := takePair 14 dd e s

/-- ESC_UNKNOWN_F (R85). -/
def execEscUnknownF (dd : BitVec 2) (e : BitVec 7) (s : State) : Result := takePair 15 dd e s

end Sys2Proof.Machine
end

