-- ==== Sys2Proof/Machine/HostOps.lean ====
section
/-! DEFINITION. The Host's two operations (R5): `feed` and `reset`. -/

namespace Sys2Proof.Machine

/-- FEED (R77): the chunk joins the tail of the input queue. With a finite `IN_QUEUE_CAP` the bytes that do not fit stay
with the Host, as the rest of its turn (log entry 18). -/
def execFeed (bytes : List Byte) (s : State) : Result :=
  .next { s with
    inQ := s.inQ ++ bytes.take (s.roomFor bytes)
    agenda := if s.roomFor bytes < bytes.length then .feed (bytes.drop (s.roomFor bytes)) :: s.agenda else s.agenda }

/-- RESET (R156): every register takes its reset value, as if the block were constructed anew with the same parameters;
no event. The output sequence restarts empty (R36) and the items already output stay where they are counted apart (log
entry 6); the turns to come are the Host's and the schedule's, not the block's. -/
def execReset (s : State) : Result :=
  .next { State.construct s.params with
    outBeforeReset := s.outBeforeReset ++ s.out
    agenda := s.agenda }

end Sys2Proof.Machine
end

