-- ==== Sys2Proof/Machine/Dispatch.lean ====
section
/-! DEFINITION. One arm per instruction, each one call of its meaning. -/

namespace Sys2Proof.Machine

/-- What an instruction does. -/
def exec (i : Instr) (s : State) : Host.Outcome State Fault Refusal :=
  match i with
  | .feed bytes => Sys2Proof.Machine.execFeed bytes s
  | .reset => Sys2Proof.Machine.execReset s
  | .rawPlainLo b => Sys2Proof.Machine.execRawPlainLo b s
  | .rawPlainHi b => Sys2Proof.Machine.execRawPlainHi b s
  | .rawEscPrefix b => Sys2Proof.Machine.execRawEscPrefix b s
  | .escFramingError b1 b2 => Sys2Proof.Machine.execEscFramingError b1 b2 s
  | .escReceived dd e => Sys2Proof.Machine.execEscReceived dd e s
  | .escResetted dd e => Sys2Proof.Machine.execEscResetted dd e s
  | .escStarted dd e => Sys2Proof.Machine.execEscStarted dd e s
  | .escInfo dd e => Sys2Proof.Machine.execEscInfo dd e s
  | .escUnknown4 dd e => Sys2Proof.Machine.execEscUnknown4 dd e s
  | .escUnknown5 dd e => Sys2Proof.Machine.execEscUnknown5 dd e s
  | .escUnknown6 dd e => Sys2Proof.Machine.execEscUnknown6 dd e s
  | .escUnknown7 dd e => Sys2Proof.Machine.execEscUnknown7 dd e s
  | .escUnknown8 dd e => Sys2Proof.Machine.execEscUnknown8 dd e s
  | .escUnknown9 dd e => Sys2Proof.Machine.execEscUnknown9 dd e s
  | .escFailed dd e => Sys2Proof.Machine.execEscFailed dd e s
  | .escErrorEbus dd e => Sys2Proof.Machine.execEscErrorEbus dd e s
  | .escErrorHost dd e => Sys2Proof.Machine.execEscErrorHost dd e s
  | .escUnknownD dd e => Sys2Proof.Machine.execEscUnknownD dd e s
  | .escUnknownE dd e => Sys2Proof.Machine.execEscUnknownE dd e s
  | .escUnknownF dd e => Sys2Proof.Machine.execEscUnknownF dd e s
  | .fsmWaitSynSyn => Sys2Proof.Machine.execFsmWaitSynSyn s
  | .fsmWaitSynOther b => Sys2Proof.Machine.execFsmWaitSynOther b s
  | .fsmWaitSrcSyn => Sys2Proof.Machine.execFsmWaitSrcSyn s
  | .fsmWaitSrcOther b => Sys2Proof.Machine.execFsmWaitSrcOther b s
  | .fsmWaitDestAny b => Sys2Proof.Machine.execFsmWaitDestAny b s
  | .fsmWaitCmdHiAny b => Sys2Proof.Machine.execFsmWaitCmdHiAny b s
  | .fsmWaitCmdLoAny b => Sys2Proof.Machine.execFsmWaitCmdLoAny b s
  | .fsmWaitLenOkLo n => Sys2Proof.Machine.execFsmWaitLenOkLo n s
  | .fsmWaitLenOk16 => Sys2Proof.Machine.execFsmWaitLenOk16 s
  | .fsmWaitLenBad b => Sys2Proof.Machine.execFsmWaitLenBad b s
  | .fsmWaitDataAny b => Sys2Proof.Machine.execFsmWaitDataAny b s
  | .fsmWaitCrcAny b => Sys2Proof.Machine.execFsmWaitCrcAny b s
  | .fsmWaitAckAck => Sys2Proof.Machine.execFsmWaitAckAck s
  | .fsmWaitAckNack => Sys2Proof.Machine.execFsmWaitAckNack s
  | .fsmWaitAckSyn => Sys2Proof.Machine.execFsmWaitAckSyn s
  | .fsmWaitAckOther b => Sys2Proof.Machine.execFsmWaitAckOther b s
  | .fsmWaitRspSyn => Sys2Proof.Machine.execFsmWaitRspSyn s
  | .fsmWaitRspOkLo n => Sys2Proof.Machine.execFsmWaitRspOkLo n s
  | .fsmWaitRspOk16 => Sys2Proof.Machine.execFsmWaitRspOk16 s
  | .fsmWaitRspBad b => Sys2Proof.Machine.execFsmWaitRspBad b s
  | .crc8 running byte => Sys2Proof.Machine.execCrc8 running byte s
  | .checksum bytes => Sys2Proof.Machine.execChecksum bytes s
  | .patAny value => Sys2Proof.Machine.execPatAny value s
  | .patPrefix q value => Sys2Proof.Machine.execPatPrefix q value s
  | .patLiteral p value => Sys2Proof.Machine.execPatLiteral p value s
  | .patAbsent value => Sys2Proof.Machine.execPatAbsent value s
  | .typeU8 site payload => Sys2Proof.Machine.execTypeU8 site payload s
  | .typeU16le site payload => Sys2Proof.Machine.execTypeU16le site payload s
  | .typeU16be site payload => Sys2Proof.Machine.execTypeU16be site payload s
  | .typeUnsupported site ty => Sys2Proof.Machine.execTypeUnsupported site ty s

end Sys2Proof.Machine
end

