-- ==== Sys2Proof/Machine/Fetch.lean ====
section
/-! DEFINITION. What a step takes up: the Host's turn or the Core's, and for the Core the head of the input queue (R5,
R78). -/

namespace Sys2Proof.Machine

/-- What a turn comes to. -/
inductive Fetched where
  /-- The instruction, and the state it runs in (the turn taken, the byte off the queue). -/
  | run (i : Instr) (s : State)
  /-- No Core step is enabled (R86): the block stays as it is. -/
  | idle (s : State)
  /-- The state register holds a reserved encoding (R17). -/
  | refuse (r : Refusal)
  deriving DecidableEq, Repr

/-- The Core's turn (R78): enabled exactly when the input queue is not empty; one raw byte leaves its head, and with
the pending prefix it selects the symbol. A reserved state has no step (R17). -/
def fetchCore (s : State) : Fetched :=
  match s.inQ with
  | [] => .idle s
  | b :: rest =>
    if FsmState.ofCode s.st = none then .refuse (.reservedFsmState s.st)
    else .run (decodeStream s.params.toConstants s.pend b) { s with inQ := rest }

/-- One turn of the schedule (log entry 1): the agenda's head if it has one, else the Core's. A feed that a full queue
holds back waits, and the Core moves instead (log entry 18). -/
def fetch (s : State) : Fetched :=
  match s.agenda with
  | [] => fetchCore s
  | .feed bytes :: rest =>
    if s.holdsBack bytes then fetchCore s else .run (.feed bytes) { s with agenda := rest }
  | .reset :: rest => .run .reset { s with agenda := rest }
  | .core :: rest => fetchCore { s with agenda := rest }

/-- Put the raw byte `b` where the next step takes it, with the pending-prefix register `p`. -/
def placeRaw (s : State) (p : Option Byte) (b : Byte) : State :=
  { s with agenda := .core :: s.agenda, pend := p, inQ := b :: s.inQ }

/-- Put the logical byte `b` before the state machine in state `st`: as a plain byte below `ESC_MIN`, else as the second
byte of the canonical pair of `CMD_RECEIVED` with the first pending (R57). -/
def placeLogical (s : State) (st : BitVec 4) (b : Byte) : State :=
  if b < s.params.escMin then placeRaw { s with st := st } none b
  else placeRaw { s with st := st } (some (escPairFirst s.params.cmdReceived b)) (escPairSecond b)

/-- Put a code where the next step takes it up. The codes with no bits are left aside: the two host operations come from
the agenda, and the unit operations have no fetch of their own. -/
def placeCode (s : State) : Code → State
  | .raw b => placeRaw s none b
  | .esc w => placeRaw s (some (w.extractLsb' 8 8)) (w.extractLsb' 0 8)
  | .fsm w => placeLogical s (w.extractLsb' 8 4) (w.extractLsb' 0 8)
  | .feed bytes => { s with agenda := .feed bytes :: s.agenda }
  | .reset => { s with agenda := .reset :: s.agenda }
  | .crc8 _ _ => s
  | .checksum _ => s
  | .pattern _ _ => s
  | .dataType _ _ _ => s

end Sys2Proof.Machine
end

