-- ==== Sys2Proof/Machine/Step.lean ====
section
/-! DEFINITION. One step: one turn of the Host or of the Core (R5, R46, R78, R79). -/

namespace Sys2Proof.Machine

/-- Take up a turn and run its instruction to completion. -/
def step (s : State) : Host.Outcome State Fault Refusal :=
  match fetch s with
  | .run i t => exec i t
  | .idle t => .next t
  | .refuse r => .refused r

/-- `s` with the instruction of the table's `nbits` bits `w` placed where the next step fetches it. -/
def State.withFetchWord (s : State) (nbits w : Nat) : State :=
  match tableCode nbits w with
  | some c => placeCode s c
  | none => s

end Sys2Proof.Machine
end

