-- ==== Sys2Proof/Safety.lean ====
section
/-! DEFINITION. The terms claims are stated in: what a valid telegram is, the invariant of the machine (10_state.md
R35), what is reachable from construction, what a state has output, the bytes a schedule feeds, and the number a finite
FLOAT stands for. -/

namespace Sys2Proof.Machine

/-! ### Telegrams -/

/-- The Request has all its payload and its checksum matches (R23, R73). -/
def Request.Complete (p : Params) (r : Request) : Prop :=
  r.payload.length = r.len.toNat ∧ r.crcOk p = true

/-- The Response has all its payload and its checksum matches (R24, R74). -/
def Response.Complete (p : Params) (r : Response) : Prop :=
  r.payload.length = r.len.toNat ∧ r.crcOk p = true

/-- A telegram that may be delivered: both parts complete and within the length bound (R112 item 1). -/
def Tel.Valid (p : Params) (t : Tel) : Prop :=
  t.toRequest.Complete p ∧ t.len.toNat ≤ p.maxLen.toNat ∧
    ∀ r, t.rsp = some r → r.Complete p ∧ r.len.toNat ≤ p.maxLen.toNat

/-- Every telegram among the items is valid. -/
def AllValid (p : Params) (items : List Item) : Prop :=
  ∀ t, Item.tel t ∈ items → t.Valid p

/-! ### The invariant -/

/-- The state register holds one of the ten encodings (R35 item 1). -/
def State.Legal (s : State) : Prop := s.st.toNat ≤ 9

/-- The telegram state is clear (R36, R88). -/
def State.TelegramClear (s : State) : Prop :=
  s.req = Request.cleared ∧ s.rsp = Response.cleared ∧ s.remaining = 0 ∧
    s.gotResponse = false ∧ s.gotBroadcast = false ∧ s.ackReceived = false

/-- The eight items of R35, as they stand there. -/
structure State.Listed (s : State) : Prop where
  /-- Item 1. -/
  legal : s.Legal
  /-- Item 2. -/
  clear : s.st = FsmState.waitSyn.code ∨ s.st = FsmState.waitSrc.code → s.TelegramClear
  /-- Item 3: past WaitDest is 3 to 9. -/
  broadcast : s.gotBroadcast = true ↔ 3 ≤ s.st.toNat ∧ s.req.dest = s.params.broadcast
  /-- Item 4. -/
  data : s.st = FsmState.waitData.code →
    1 ≤ s.remaining.toNat ∧ s.activePayload.length + s.remaining.toNat = s.activeLen.toNat
  /-- Item 5: WaitData, WaitCRC and WaitAck are 6 to 8. -/
  response : s.gotResponse = true →
    (6 ≤ s.st.toNat ∧ s.st.toNat ≤ 8) ∧ s.req.Complete s.params
  /-- Item 6. -/
  ack : s.ackReceived = true → s.st = FsmState.waitResponse.code ∨ s.gotResponse = true
  /-- Item 7, the Request. -/
  reqBound : s.req.payload.length ≤ s.req.len.toNat ∧ s.req.len.toNat ≤ s.params.maxLen.toNat
  /-- Item 7, the Response. -/
  rspBound : s.rsp.payload.length ≤ s.rsp.len.toNat ∧ s.rsp.len.toNat ≤ s.params.maxLen.toNat
  /-- Item 8. -/
  pending : ∀ b, s.pend = some b → s.params.escMin ≤ b

/-- The invariant every step keeps: the items of R35, what the states between the length byte and the emit know about
the buffers, and the validity of every telegram output so far. -/
structure State.Inv (s : State) : Prop extends State.Listed s where
  /-- Before the length byte is taken the Request's payload is empty. -/
  early : s.st.toNat ≤ 5 → s.req.payload = []
  /-- While the Request is active the Response is clear. -/
  noResponse : s.gotResponse = false → s.rsp = Response.cleared
  /-- In WaitCRC the active payload is complete. -/
  crcTime : s.st = FsmState.waitCrc.code → s.activePayload.length = s.activeLen.toNat
  /-- In WaitAck and WaitResponse the Request is complete and its checksum matched. -/
  acked : s.st = FsmState.waitAck.code ∨ s.st = FsmState.waitResponse.code →
    s.req.Complete s.params
  /-- In WaitAck after a Response, the Response is complete and its checksum matched. -/
  rspAcked : s.st = FsmState.waitAck.code → s.gotResponse = true → s.rsp.Complete s.params
  /-- Every telegram output is valid. -/
  outValid : AllValid s.params (s.outBeforeReset ++ s.out)

/-! ### Runs -/

/-- Reachable from construction with some parameters under some schedule (R5, R154). -/
inductive Reachable : State → Prop where
  | construct (p : Params) (agenda : List Turn) : Reachable { State.construct p with agenda := agenda }
  | step {s t : State} : Reachable s → Sys2Proof.Machine.step s = .next t → Reachable t

/-- It is the Core's turn in `s`, and `rest` is the schedule left after it: no turn is scheduled, or the Core's is next,
or the next turn is a feed that a full queue holds back (log entries 1 and 18). -/
def State.CoreTurn (s : State) (rest : List Turn) : Prop :=
  (s.agenda = [] ∧ rest = []) ∨ s.agenda = .core :: rest ∨
    ∃ bytes later, s.agenda = .feed bytes :: later ∧ s.holdsBack bytes = true ∧ rest = s.agenda

/-- All the items output since construction, across resets (log entry 6). -/
def State.trace (s : State) : List Item := s.outBeforeReset ++ s.out

/-- The bytes a turn feeds. -/
def Turn.bytes : Turn → List Byte
  | .feed bytes => bytes
  | .reset => []
  | .core => []

/-- The bytes a schedule feeds, in order. -/
def agendaBytes (agenda : List Turn) : List Byte := agenda.flatMap Turn.bytes

/-! ### The end of a telegram, written out -/

/-- The state a drop or an emit leaves: the registers of R36 at their cleared values, the items output, the next state;
everything else as in `s` (R88, R148). -/
def State.ended (s : State) (items : List Item) (next : BitVec 4) : State :=
  { s with
    st := next
    req := { src := 0, dest := 0, cmdHi := 0, cmdLo := 0, len := 0, payload := [], crc := 0 }
    rsp := { len := 0, payload := [], crc := 0 }
    remaining := 0
    gotResponse := false
    gotBroadcast := false
    ackReceived := false
    out := s.out ++ items }

/-- The telegram the registers hold, field by field (R34, R89). -/
def State.held (s : State) : Tel :=
  { src := s.req.src, dest := s.req.dest, cmdHi := s.req.cmdHi, cmdLo := s.req.cmdLo, len := s.req.len,
    payload := s.req.payload, crc := s.req.crc,
    rsp := if s.gotResponse then some { len := s.rsp.len, payload := s.rsp.payload, crc := s.rsp.crc } else none }

/-- What an emit outputs: the TEL item, then the items of the scan (R89, R149). -/
def State.emitted (s : State) : List Item :=
  .tel s.held :: matchItems s.params s.held

/-- An item of the Matcher/Extractor: a record, or one of its three events (R149 item 3). -/
def Item.FromScan : Item → Prop
  | .record _ => True
  | .evt (.unsupportedFieldType _ _ _ _) => True
  | .evt (.fieldOutOfRange _ _ _ _ _) => True
  | .evt (.matchNoExtract _ _) => True
  | .evt (.framingError _ _) => False
  | .evt (.adapterStatus _ _ _) => False
  | .evt (.lengthViolation _ _) => False
  | .evt (.checksumMismatch _ _ _) => False
  | .evt (.protocolError _) => False
  | .tel _ => False

/-- Whether an item is on the telegram port. -/
def Item.isTel : Item → Bool
  | .tel _ => true
  | .record _ => false
  | .evt _ => false

/-- What one transition of the state machine may output (R149 items 2 and 3): nothing, one error event, or one TEL item
and after it items of the scan only. -/
def TransitionItems (items : List Item) : Prop :=
  items = [] ∨
  (∃ part b, items = [.evt (.lengthViolation part b)]) ∨
  (∃ part computed received, items = [.evt (.checksumMismatch part computed received)]) ∨
  (∃ b, items = [.evt (.protocolError b)]) ∨
  ∃ t rest, items = .tel t :: rest ∧ ∀ x ∈ rest, x.FromScan

/-! ### Field reads, as the extraction uses them -/

/-- The site of a field of definition `ci`, `mi`. -/
def siteOf (ci mi : Nat) (f : Field) : FieldSite :=
  { ci := ci, mi := mi, name := f.name, offset := f.offset }

/-- The event of a skipped field, none for a field that is read (R123, R129, R130). -/
def FieldRead.event : FieldRead → Option Event
  | .raw _ => none
  | .skip e => some e

/-- The record's fields after the field `f` was read so (R123, R131, R134): a skipped field changes nothing. -/
def FieldRead.putInto (format : FloatFormat) (f : Field) (fields : List (Text × Value)) :
    FieldRead → List (Text × Value)
  | .raw n => putField f.name (scale format n f.factor) fields
  | .skip _ => fields

/-- The outcome of a field read performed as an instruction of its own in `s` (log entry 2). -/
def FieldRead.latched (s : State) : FieldRead → State
  | .raw n => { s with unitOut := .raw n }
  | .skip e => { s with unitOut := .skip, out := s.out ++ [.evt e] }

/-! ### Numbers -/

/-- Neither NaN nor an infinity. -/
def floatIsFinite (x : F64) : Bool := floatExp x ≠ 2047

/-- The number a finite binary64 stands for. -/
def floatValue (x : F64) : ℚ :=
  (if floatSign x then -1 else 1) * (floatSig x : ℚ) * (2 : ℚ) ^ ((floatScale x : ℤ) - 1075)

end Sys2Proof.Machine
end

