-- ==== Sys2Proof/Certificates/Slice0/Obligations.lean ====
section
/-! DEFINITION. The statements for the provers. Each is a rule of spec/ (named in its docstring), or says that it rests
on a choice of the model's (the log entry named). Next states are written out as record updates, so an equation of a next
state is also the instruction's frame. -/

open Sys2Proof Sys2Proof.Machine

/-! ### Host operations and reset -/

/-- R77: with the unbounded input queue of R26, or a finite one that has room, `feed(bytes)` appends the chunk to it,
changes nothing else, outputs nothing. -/
def Obligations.FeedAppendsChunk : Prop :=
  ∀ (bytes : List Byte) (s : State),
    (∀ cap, s.params.inQueueCap = some cap → s.inQ.length + bytes.length ≤ cap) →
      exec (.feed bytes) s = .next { s with inQ := s.inQ ++ bytes }

/-- R36, R154: right after construction every register holds the value of R36's table, and nothing has been output. -/
def Obligations.ConstructionGivesResetValues : Prop :=
  ∀ p : Params,
    (State.construct p).st = 0 ∧
    (State.construct p).req =
      { src := 0, dest := 0, cmdHi := 0, cmdLo := 0, len := 0, payload := [], crc := 0 } ∧
    (State.construct p).rsp = { len := 0, payload := [], crc := 0 } ∧
    (State.construct p).remaining = 0 ∧ (State.construct p).gotResponse = false ∧
    (State.construct p).gotBroadcast = false ∧ (State.construct p).ackReceived = false ∧
    (State.construct p).pend = none ∧ (State.construct p).inQ = [] ∧ (State.construct p).out = [] ∧
    (State.construct p).params = p

/-- R156: the Host's `reset` completes in every state, and gives every register of R16 to R30 its value of R36. -/
def Obligations.HostResetGivesResetValues : Prop :=
  ∀ s : State, ∃ t, exec .reset s = .next t ∧
    t.st = 0 ∧
    t.req = { src := 0, dest := 0, cmdHi := 0, cmdLo := 0, len := 0, payload := [], crc := 0 } ∧
    t.rsp = { len := 0, payload := [], crc := 0 } ∧
    t.remaining = 0 ∧ t.gotResponse = false ∧ t.gotBroadcast = false ∧ t.ackReceived = false ∧
    t.pend = none ∧ t.inQ = [] ∧ t.params = s.params

/-- MODEL'S CHOICE (log entry 6): a reset restarts the output sequence of R36 and keeps the items already output apart,
so the whole trace gains and loses nothing; the turns to come stay. -/
def Obligations.HostResetKeepsTrace : Prop :=
  ∀ s t : State, exec .reset s = .next t → t.trace = s.trace ∧ t.out = [] ∧ t.agenda = s.agenda

/-! ### Deframer -/

/-- R80: a plain byte goes to the state machine unchanged, and in every legal state the row completes with the state
machine's next state. -/
def Obligations.PlainBytesGoToStateMachine : Prop :=
  ∀ (b : Byte) (s : State),
    exec (.rawPlainLo b) s = fsm b s ∧ exec (.rawPlainHi b) s = fsm b s ∧
    (s.Legal → ∃ t, exec (.rawPlainLo b) s = .next t ∧ exec (.rawPlainHi b) s = .next t ∧ fsm b s = .next t)

/-- R81: an escape prefix is held in `pend`; no logical byte, no output, nothing else changes. -/
def Obligations.EscPrefixIsHeld : Prop :=
  ∀ (b : Byte) (s : State), exec (.rawEscPrefix b) s = .next { s with pend := some b }

/-- R82: a framing error is reported, the prefix is discarded, and the second byte goes to the state machine, whose
registers the error itself does not touch; the row completes in every legal state. -/
def Obligations.FramingErrorResynchronises : Prop :=
  ∀ (b1 b2 : Byte) (s : State),
    exec (.escFramingError b1 b2) s =
      fsm b2 { s with out := s.out ++ [.evt (.framingError b1 b2)], pend := none } ∧
    (s.Legal → ∃ t, exec (.escFramingError b1 b2) s = .next t)

/-- R84: a valid pair whose command is `CMD_RECEIVED` (1 unless the block was constructed with another) hands its data
byte to the state machine, and completes in every legal state. -/
def Obligations.ReceivedPairForwardsByte : Prop :=
  ∀ (dd : BitVec 2) (e : BitVec 7) (s : State),
    let forwards (c : BitVec 4) (i : Instr) : Prop :=
      c = s.params.cmdReceived →
        exec i s = fsm (escapeData dd e) { s with pend := none } ∧ (s.Legal → ∃ t, exec i s = .next t)
    forwards 1 (.escReceived dd e) ∧
    forwards 0 (.escResetted dd e) ∧ forwards 2 (.escStarted dd e) ∧ forwards 3 (.escInfo dd e) ∧
    forwards 4 (.escUnknown4 dd e) ∧ forwards 5 (.escUnknown5 dd e) ∧ forwards 6 (.escUnknown6 dd e) ∧
    forwards 7 (.escUnknown7 dd e) ∧ forwards 8 (.escUnknown8 dd e) ∧ forwards 9 (.escUnknown9 dd e) ∧
    forwards 10 (.escFailed dd e) ∧ forwards 11 (.escErrorEbus dd e) ∧ forwards 12 (.escErrorHost dd e) ∧
    forwards 13 (.escUnknownD dd e) ∧ forwards 14 (.escUnknownE dd e) ∧ forwards 15 (.escUnknownF dd e)

/-- R55: the data byte of a valid pair by the source's formula reduced mod 256, and its two closed forms: no carry when
`b2[6] = 0`, a carry out of the low part that is lost when `b2[6] = 1`; the command is `(b1 - 0xC0) >> 2`. -/
def Obligations.EscapeDataFollowsSourceFormula : Prop :=
  ∀ b1 b2 : Byte, 0xC0 ≤ b1 → 0x80 ≤ b2 →
    (escapeData (escHigh b1) (escLow b2)).toNat =
      (((b1.toNat - 0xC0) <<< 6) + (b2.toNat - 0x80)) % 256 ∧
    (b2.getLsbD 6 = false →
      escapeData (escHigh b1) (escLow b2) = b1.extractLsb' 0 2 ++ b2.extractLsb' 0 6) ∧
    (b2.getLsbD 6 = true →
      escapeData (escHigh b1) (escLow b2) = (b1.extractLsb' 0 2 + 1#2) ++ b2.extractLsb' 0 6) ∧
    (escCommand b1).toNat = (b1.toNat - 0xC0) >>> 2

/-- R85: a valid pair of any command but `CMD_RECEIVED` raises its status event, forwards nothing, and changes no register but
`pend`. -/
def Obligations.StatusPairsAreNeverForwarded : Prop :=
  ∀ (dd : BitVec 2) (e : BitVec 7) (s : State),
    let status (c : BitVec 4) (i : Instr) : Prop :=
      c ≠ s.params.cmdReceived → exec i s = .next
        { s with pend := none, out := s.out ++ [.evt (.adapterStatus c (escapeData dd e) (statusLabel c))] }
    status 0 (.escResetted dd e) ∧ status 2 (.escStarted dd e) ∧ status 3 (.escInfo dd e) ∧
    status 4 (.escUnknown4 dd e) ∧ status 5 (.escUnknown5 dd e) ∧ status 6 (.escUnknown6 dd e) ∧
    status 7 (.escUnknown7 dd e) ∧ status 8 (.escUnknown8 dd e) ∧ status 9 (.escUnknown9 dd e) ∧
    status 10 (.escFailed dd e) ∧ status 11 (.escErrorEbus dd e) ∧ status 12 (.escErrorHost dd e) ∧
    status 13 (.escUnknownD dd e) ∧ status 14 (.escUnknownE dd e) ∧ status 15 (.escUnknownF dd e) ∧
    status 1 (.escReceived dd e)

/-- R58's labels. The spec marks the numbers other than 1 as general knowledge (log entry 12). -/
def Obligations.AdapterLabelsAreTheTable : Prop :=
  statusLabel 0 = .resetted ∧ statusLabel 1 = .received ∧ statusLabel 2 = .started ∧ statusLabel 3 = .info ∧
  statusLabel 10 = .failed ∧ statusLabel 11 = .errorEbus ∧ statusLabel 12 = .errorHost ∧
  ∀ c : BitVec 4, (4 ≤ c ∧ c ≤ 9) ∨ 13 ≤ c → statusLabel c = .unknown

/-- R57: decoding the canonical pair `ESC(c, d)` gives back the command `c` and the data `d`. -/
def Obligations.CanonicalPairDecodesBack : Prop :=
  ∀ (c : BitVec 4) (d : Byte),
    Config.escMin ≤ escPairFirst c d ∧ (escPairSecond d).msb = true ∧ escCommand (escPairFirst c d) = c ∧
    escapeData (escHigh (escPairFirst c d)) (escLow (escPairSecond d)) = d

/-! ### The rows of the Telegram State Machine -/

/-- R90, R91, R92, R93: in WaitSYN a SYN leads to WaitSrc and any other byte is ignored; in WaitSrc a SYN stays and any
other byte is the source address. -/
def Obligations.SynchronisationRows : Prop :=
  ∀ (b : Byte) (s : State),
    exec .fsmWaitSynSyn s = .next { s with st := 1 } ∧
    exec (.fsmWaitSynOther b) s = .next { s with st := 0 } ∧
    (s.st = 0 → exec (.fsmWaitSynOther b) s = .next s) ∧
    exec .fsmWaitSrcSyn s = .next { s with st := 1 } ∧
    (s.st = 1 → exec .fsmWaitSrcSyn s = .next s) ∧
    exec (.fsmWaitSrcOther b) s = .next { s with req.src := b, st := 2 }

/-- R94, R95, R96: the destination (which sets `got_broadcast` when it is BROADCAST) and the two command bytes. -/
def Obligations.DestinationAndCommandRows : Prop :=
  ∀ (b : Byte) (s : State),
    (b = s.params.broadcast → exec (.fsmWaitDestAny b) s =
      .next { s with req.dest := b, gotBroadcast := true, st := 3 }) ∧
    (b ≠ s.params.broadcast → exec (.fsmWaitDestAny b) s = .next { s with req.dest := b, st := 3 }) ∧
    exec (.fsmWaitCmdHiAny b) s = .next { s with req.cmdHi := b, st := 4 } ∧
    exec (.fsmWaitCmdLoAny b) s = .next { s with req.cmdLo := b, st := 5 }

/-- R97, R98: a length 0 to 16 goes to the active buffer and to `remaining`, and leads to WaitData, or to WaitCRC when
it is 0; a larger one raises LENGTH_VIOLATION(REQ, b) and drops the telegram. -/
def Obligations.RequestLengthRows : Prop :=
  ∀ s : State,
    (∀ n : BitVec 4, exec (.fsmWaitLenOkLo n) s = .next
      (if s.gotResponse then
        { s with rsp.len := n.setWidth 8, remaining := n.setWidth 5, st := if n = 0 then 7 else 6 }
      else { s with req.len := n.setWidth 8, remaining := n.setWidth 5, st := if n = 0 then 7 else 6 })) ∧
    exec .fsmWaitLenOk16 s = .next
      (if s.gotResponse then { s with rsp.len := 16, remaining := 16, st := 6 }
      else { s with req.len := 16, remaining := 16, st := 6 }) ∧
    ∀ b : Byte, exec (.fsmWaitLenBad b) s = .next (s.ended [.evt (.lengthViolation .req b)] 0)

/-- R99, R100: a data byte joins the active payload and `remaining` counts down, WaitCRC following the last one; with
nothing remaining the byte is the checksum byte. -/
def Obligations.DataRow : Prop :=
  ∀ (b : Byte) (s : State),
    (s.remaining ≠ 0 → exec (.fsmWaitDataAny b) s = .next
      (if s.gotResponse then
        { s with rsp.payload := s.rsp.payload ++ [b], remaining := s.remaining - 1,
                 st := if s.remaining = 1 then 7 else 6 }
      else
        { s with req.payload := s.req.payload ++ [b], remaining := s.remaining - 1,
                 st := if s.remaining = 1 then 7 else 6 })) ∧
    (s.remaining = 0 → exec (.fsmWaitDataAny b) s = exec (.fsmWaitCrcAny b) s)

/-- R101, R102 over the inputs of R73 and R74: the checksum byte is stored and leads to WaitAck when it equals the
checksum of the active buffer's fields, `src, dest, cmd_hi, cmd_lo, len, payload` for the Request and `len, payload` for
the Response; otherwise CHECKSUM_MISMATCH(part, computed, received) and the whole telegram is dropped. -/
def Obligations.ChecksumRow : Prop :=
  ∀ (b : Byte) (s : State),
    let wantReq := crcFold s.params
      ([s.req.src, s.req.dest, s.req.cmdHi, s.req.cmdLo, s.req.len] ++ s.req.payload)
    let wantRsp := crcFold s.params ([s.rsp.len] ++ s.rsp.payload)
    (s.gotResponse = false →
      (b = wantReq → exec (.fsmWaitCrcAny b) s = .next { s with req.crc := b, st := 8 }) ∧
      (b ≠ wantReq → exec (.fsmWaitCrcAny b) s = .next (s.ended [.evt (.checksumMismatch .req wantReq b)] 0))) ∧
    (s.gotResponse = true →
      (b = wantRsp → exec (.fsmWaitCrcAny b) s = .next { s with rsp.crc := b, st := 8 }) ∧
      (b ≠ wantRsp → exec (.fsmWaitCrcAny b) s = .next (s.ended [.evt (.checksumMismatch .rsp wantRsp b)] 0)))

/-- R103, R104: an ACK after a Response emits the telegram and returns to WaitSYN; an ACK of the Request sets
`ack_received` and waits for the Response. -/
def Obligations.AckRow : Prop :=
  ∀ s : State,
    (s.gotResponse = true → exec .fsmWaitAckAck s = .next (s.ended s.emitted 0)) ∧
    (s.gotResponse = false → exec .fsmWaitAckAck s = .next { s with ackReceived := true, st := 9 })

/-- R106, R107: a SYN in WaitAck emits a broadcast, drops any other telegram with no event, and leads to WaitSrc both
times. -/
def Obligations.SynEndsBroadcastOrDrops : Prop :=
  ∀ s : State,
    (s.gotBroadcast = true → exec .fsmWaitAckSyn s = .next (s.ended s.emitted 1)) ∧
    (s.gotBroadcast = false → exec .fsmWaitAckSyn s = .next (s.ended [] 1))

/-- R105, R108: a NACK in WaitAck drops the telegram, whatever the flags, with no event; a byte that is neither ACK, NACK
nor SYN is a protocol error, reported before the drop. -/
def Obligations.NackAndOtherBytesDrop : Prop :=
  ∀ (b : Byte) (s : State),
    exec .fsmWaitAckNack s = .next (s.ended [] 0) ∧
    exec (.fsmWaitAckOther b) s = .next (s.ended [.evt (.protocolError b)] 0)

/-- R109: a SYN in WaitResponse emits the telegram and returns to WaitSYN. -/
def Obligations.SynInWaitResponseEmits : Prop :=
  ∀ s : State, exec .fsmWaitRspSyn s = .next (s.ended s.emitted 0)

/-- R110, R111: a Response length sets `got_response`, goes to `rsp.len` and `remaining`, and leads to WaitData, or to
WaitCRC when it is 0; a length above 16 raises LENGTH_VIOLATION(RSP, b) and drops the telegram. -/
def Obligations.ResponseLengthRows : Prop :=
  ∀ s : State,
    (∀ n : BitVec 4, exec (.fsmWaitRspOkLo n) s = .next
      { s with gotResponse := true, rsp.len := n.setWidth 8, remaining := n.setWidth 5,
               st := if n = 0 then 7 else 6 }) ∧
    exec .fsmWaitRspOk16 s = .next { s with gotResponse := true, rsp.len := 16, remaining := 16, st := 6 } ∧
    ∀ b : Byte, exec (.fsmWaitRspBad b) s = .next (s.ended [.evt (.lengthViolation .rsp b)] 0)

/-! ### The state machine as a whole -/

/-- R61, R87: with the constants at their defaults, which the table's matches have in them, the transition on a logical
byte is the row that the decode word `st << 8 | b` selects. With any constants it is the row of the state whose guard
holds, guards tried in the table's order; a length that the OK rows have no operand for is accepted as they accept one. -/
def Obligations.FsmRunsTheSelectedRow : Prop :=
  ∀ (b : Byte) (s : State),
    (s.params.toConstants = Constants.default → ∀ i, decode (.fsm (s.st ++ b)) = .ok i → fsm b s = exec i s) ∧
    (s.st = 0 → fsm b s = if b = s.params.syn then exec .fsmWaitSynSyn s else exec (.fsmWaitSynOther b) s) ∧
    (s.st = 1 → fsm b s = if b = s.params.syn then exec .fsmWaitSrcSyn s else exec (.fsmWaitSrcOther b) s) ∧
    (s.st = 2 → fsm b s = exec (.fsmWaitDestAny b) s) ∧
    (s.st = 3 → fsm b s = exec (.fsmWaitCmdHiAny b) s) ∧
    (s.st = 4 → fsm b s = exec (.fsmWaitCmdLoAny b) s) ∧
    (s.st = 5 → fsm b s =
      if b.toNat ≤ s.params.maxLen.toNat then .next
        (if s.gotResponse then
          { s with rsp.len := b, remaining := b.setWidth 5, st := if b = 0 then 7 else 6 }
        else { s with req.len := b, remaining := b.setWidth 5, st := if b = 0 then 7 else 6 })
      else exec (.fsmWaitLenBad b) s) ∧
    (s.st = 6 → fsm b s = exec (.fsmWaitDataAny b) s) ∧
    (s.st = 7 → fsm b s = exec (.fsmWaitCrcAny b) s) ∧
    (s.st = 8 → fsm b s =
      if b = s.params.ack then exec .fsmWaitAckAck s
      else if b = s.params.nack then exec .fsmWaitAckNack s
      else if b = s.params.syn then exec .fsmWaitAckSyn s
      else exec (.fsmWaitAckOther b) s) ∧
    (s.st = 9 → fsm b s =
      if b = s.params.syn then exec .fsmWaitRspSyn s
      else if b.toNat ≤ s.params.maxLen.toNat then .next
        { s with gotResponse := true, rsp.len := b, remaining := b.setWidth 5, st := if b = 0 then 7 else 6 }
      else exec (.fsmWaitRspBad b) s)

/-- R17, R87: on every byte the state machine has a transition in each of the ten states, and goes to one of them; a
state register of 10 to 15 is refused. -/
def Obligations.FsmCompletesOrRefusesReserved : Prop :=
  ∀ (b : Byte) (s : State),
    (s.Legal → ∃ t, fsm b s = .next t ∧ t.Legal) ∧
    (¬ s.Legal → fsm b s = .refused (.reservedFsmState s.st))

/-- A transition's frame (R88, R136, R148): it writes neither the queue, nor the pending prefix, nor the parameters,
nor any field of the model's own, and it only appends to the output. -/
def Obligations.TransitionFrame : Prop :=
  ∀ (b : Byte) (s t : State), fsm b s = .next t →
    t.inQ = s.inQ ∧ t.pend = s.pend ∧ t.params = s.params ∧ t.agenda = s.agenda ∧ t.unitOut = s.unitOut ∧
    t.outBeforeReset = s.outBeforeReset ∧ ∃ items, t.out = s.out ++ items ∧ TransitionItems items

/-- R112 items 1 and 2, over the items a transition appends: at most one of them is a telegram; it comes from R103, R106
or R109 alone, it is the one the registers held, and the registers are clear after it. -/
def Obligations.TelegramOnlyFromThreeRules : Prop :=
  ∀ (b : Byte) (s t : State), fsm b s = .next t →
    ∃ items, t.out = s.out ++ items ∧ items.countP Item.isTel ≤ 1 ∧
      ∀ u, Item.tel u ∈ items →
        u = s.held ∧ t.TelegramClear ∧
        ((s.st = 8 ∧ b = s.params.ack ∧ s.gotResponse = true) ∨
          (s.st = 8 ∧ b = s.params.syn ∧ s.gotBroadcast = true) ∨ (s.st = 9 ∧ b = s.params.syn))

/-! ### CRC8 Engine -/

/-- R71, R72: one step looks the running value up and combines the byte after the lookup; a checksum starts at
`CRC_INIT`, by default 0, and folds the bytes in order. -/
def Obligations.ChecksumFoldsTableSteps : Prop :=
  Constants.default.crcInit = 0 ∧
  ∀ p : Params,
    (∀ (running : Fin 256) (byte : Byte),
      crcStep p.crcTable (BitVec.ofFin running) byte = p.crcTable[running] ^^^ byte) ∧
    crcFold p [] = p.crcInit ∧
    ∀ (bytes : List Byte) (b : Byte), crcFold p (bytes ++ [b]) = crcStep p.crcTable (crcFold p bytes) b

/-- R70: every entry of the default table is what the spec's eight shifts give. The table is the spec's own general
knowledge (log entry 3). -/
def Obligations.DefaultTableIsThePolynomials : Prop :=
  ∀ i : Fin 256, Config.crcTable[i] = Config.crcEntry (BitVec.ofFin i)

/-- R76: with the default table, changing any single byte of a checksum's input changes the checksum. -/
def Obligations.SingleByteChangesChecksum : Prop :=
  ∀ (p : Params) (xs ys : List Byte) (b c : Byte), p.crcTable = Config.crcTable → b ≠ c →
    crcFold p (xs ++ b :: ys) ≠ crcFold p (xs ++ c :: ys)

/-! ### Matcher -/

/-- MODEL'S CHOICE (log entry 2): a row of format OP or PATTERN performed as an instruction of its own completes in
every state, latches the result of its rule (R71, R72, R117 to R120) and changes nothing else. -/
def Obligations.OpAndPatternRowsLatchTheirResult : Prop :=
  ∀ (s : State) (running byte : Byte) (bytes : List Byte) (p value : Text),
    exec (.crc8 running byte) s = .next { s with unitOut := .crc (crcStep s.params.crcTable running byte) } ∧
    exec (.checksum bytes) s = .next { s with unitOut := .crc (crcFold s.params bytes) } ∧
    exec (.patAny value) s = .next { s with unitOut := .accept true } ∧
    exec (.patPrefix p value) s = .next { s with unitOut := .accept (prefixAccepts p value) } ∧
    exec (.patLiteral p value) s = .next { s with unitOut := .accept (literalAccepts p value) } ∧
    exec (.patAbsent value) s = .next { s with unitOut := .accept true }

/-- R118: a Prefix pattern accepts exactly the values that begin with its prefix. -/
def Obligations.PrefixAcceptsExactlyItsExtensions : Prop :=
  ∀ q value : Text, prefixAccepts q value = true ↔ ∃ rest, value = q ++ rest

/-- R119: a Literal pattern accepts a value of its own length that agrees with it at every position without `*`. -/
def Obligations.LiteralComparesPositionByPosition : Prop :=
  ∀ p value : Text, literalAccepts p value = true ↔
    p.length = value.length ∧
      ∀ (i : Nat) (h : i < p.length) (h' : i < value.length), p[i] = '*' ∨ p[i] = value[i]

/-- R116, R120: the matcher's answer for a request-match field is the answer of the row its text decodes to. -/
def Obligations.AcceptsRunsTheDecodedForm : Prop :=
  ∀ (p : Option Text) (value : Text) (s : State) (i : Instr), decode (.pattern p value) = .ok i →
    exec i s = .next { s with unitOut := .accept (accepts p value) }

/-- R114: a byte is rendered as the digit of its high nibble, then the digit of its low nibble, `0` to `9` and `A` to `F`;
a sequence is rendered byte by byte with no separator. So a rendering has two digits per byte, and tells byte sequences
apart. -/
def Obligations.HexRenderingIsFaithful : Prop :=
  (∀ v : Byte,
    let digit (n : Nat) : Char :=
      ['0', '1', '2', '3', '4', '5', '6', '7', '8', '9', 'A', 'B', 'C', 'D', 'E', 'F'].getD n ' '
    hex2 v = [digit (v.toNat / 16), digit (v.toNat % 16)]) ∧
  hexs [] = [] ∧ (∀ (v : Byte) (s : List Byte), hexs (v :: s) = hex2 v ++ hexs s) ∧
  (∀ s : List Byte, (hexs s).length = 2 * s.length ∧ ∀ c ∈ hexs s, c ∈ hexDigits) ∧
  ∀ s s' : List Byte, hexs s = hexs s' → s = s'

/-- R115, R121: a definition matches when its four fields accept their renderings, and the answer depends on the Request
alone. -/
def Obligations.DefinitionMatchesOnTheRequest : Prop :=
  ∀ (rm : RequestMatch) (t : Tel),
    (defMatches rm t = true ↔
      accepts rm.src (hex2 t.src) = true ∧ accepts rm.dst (hex2 t.dest) = true ∧
      accepts rm.pbsb (hex2 t.cmdHi ++ hex2 t.cmdLo) = true ∧ accepts rm.data (hexs t.payload) = true) ∧
    ∀ u : Tel, u.toRequest = t.toRequest → defMatches rm u = defMatches rm t

/-- R113: the scan runs over all definitions in catalog order, circuits first, with no short-circuit. -/
def Obligations.ScanFollowsCatalogOrder : Prop :=
  ∀ (p : Params) (t : Tel),
    matchItems p t = p.catalog.circuits.zipIdx.flatMap fun ci =>
      ci.1.messages.zipIdx.flatMap fun mi =>
        if defMatches mi.1.requestMatch t then extract p.toConstants ci.2 mi.2 mi.1 t else []

/-! ### Extractor -/

/-- R126, R127, R128, R130: a supported field inside the payload reads its bytes in its type's order; one whose bytes
reach beyond the payload is skipped with FIELD_OUT_OF_RANGE. -/
def Obligations.SupportedFieldsReadOrSkip : Prop :=
  ∀ (site : FieldSite) (pay : List Byte),
    (∀ h : site.offset + 1 ≤ pay.length, ∃ n, readU8 site pay = .raw n ∧ n.toNat = pay[site.offset].toNat) ∧
    (∀ h : site.offset + 2 ≤ pay.length, ∃ n, readU16le site pay = .raw n ∧
      n.toNat = pay[site.offset + 1].toNat * 256 + pay[site.offset].toNat) ∧
    (∀ h : site.offset + 2 ≤ pay.length, ∃ n, readU16be site pay = .raw n ∧
      n.toNat = pay[site.offset].toNat * 256 + pay[site.offset + 1].toNat) ∧
    (pay.length < site.offset + 1 → readU8 site pay =
      .skip (.fieldOutOfRange site.ci site.mi site.name site.offset pay.length)) ∧
    (pay.length < site.offset + 2 →
      readU16le site pay = .skip (.fieldOutOfRange site.ci site.mi site.name site.offset pay.length) ∧
      readU16be site pay = .skip (.fieldOutOfRange site.ci site.mi site.name site.offset pay.length))

/-- R125, R129 and MODEL'S CHOICE (log entry 2): a row of format DTYPE performed as an instruction of its own completes
in every state; it latches the raw integer, or raises the skip's event and latches the skip, and changes nothing else.
The type is tested before the range. -/
def Obligations.TypeRowsLatchOrRaise : Prop :=
  ∀ (s : State) (site : FieldSite) (pay : List Byte) (ty : Text),
    exec (.typeU8 site pay) s = .next ((readU8 site pay).latched s) ∧
    exec (.typeU16le site pay) s = .next ((readU16le site pay).latched s) ∧
    exec (.typeU16be site pay) s = .next ((readU16be site pay).latched s) ∧
    exec (.typeUnsupported site ty) s =
      .next { s with unitOut := .skip, out := s.out ++ [.evt (.unsupportedFieldType site.ci site.mi site.name ty)] } ∧
    (∀ c : Constants, exec (decodeType c ty site pay) s = .next ((readField c ty site pay).latched s)) ∧
    decode (.dataType ty site pay) = .ok (decodeType Constants.default ty site pay)

/-- R134: putting a name already there replaces its value in place; a new name goes to the end; no other entry changes,
and distinct names stay distinct. -/
def Obligations.PutReplacesInPlaceOrAppends : Prop :=
  ∀ (name : Text) (v : Value) (fields : List (Text × Value)),
    (name ∈ fields.map Prod.fst → (putField name v fields).map Prod.fst = fields.map Prod.fst) ∧
    (name ∉ fields.map Prod.fst → putField name v fields = fields ++ [(name, v)]) ∧
    (name, v) ∈ putField name v fields ∧
    (∀ n w, n ≠ name → ((n, w) ∈ putField name v fields ↔ (n, w) ∈ fields)) ∧
    ((fields.map Prod.fst).Nodup → ((putField name v fields).map Prod.fst).Nodup)

/-- R122: the response map is decoded when there is one and the telegram has a Response; else the request map when there
is one; else nothing. A present empty map counts as present. -/
def Obligations.FieldMapSelection : Prop :=
  ∀ (m : MessageDef) (t : Tel),
    (∀ fmap r, m.responseMap = some fmap → t.rsp = some r →
      selectMap m t = some (.rsp, fmap, r.payload)) ∧
    (m.responseMap = none ∨ t.rsp = none →
      (∀ fmap, m.requestMap = some fmap → selectMap m t = some (.req, fmap, t.payload)) ∧
      (m.requestMap = none → selectMap m t = none))

/-- R123, R124, R135: a matching definition with no selectable map gives the event MATCH_NO_EXTRACT alone. One with a map
gives the events of its skipped fields in field order and then exactly one record, whose fields are the values of the
others, put in map order, with distinct names. -/
def Obligations.ExtractionOutputs : Prop :=
  ∀ (c : Constants) (ci mi : Nat) (m : MessageDef) (t : Tel),
    (selectMap m t = none → extract c ci mi m t = [.evt (.matchNoExtract ci mi)]) ∧
    ∀ src fmap pay, selectMap m t = some (src, fmap, pay) →
      ∃ events fields, extract c ci mi m t =
          events.map Item.evt ++ [.record { ci := ci, mi := mi, src := src, fields := fields }] ∧
        events = fmap.filterMap (fun f => (readField c f.dataType (siteOf ci mi f) pay).event) ∧
        fields = fmap.foldl (fun fs f => (readField c f.dataType (siteOf ci mi f) pay).putInto c.float f fs) [] ∧
        (fields.map Prod.fst).Nodup

/-- R131 in the format of R6: with the factor exactly 1.0 a value stays an integer, and with every other factor it is a
float. That `FLOAT` is binary64 is the spec's general knowledge, and that a factor equals 1.0 exactly when its bits are
those of 1.0 follows from it (log entry 7). -/
def Obligations.FactorOneKeepsIntegers : Prop :=
  ∀ (n : BitVec 16) (factor : F64),
    (factor = 0x3FF0000000000000 → scale .binary64 n factor = .int n) ∧
    (factor ≠ 0x3FF0000000000000 → scale .binary64 n factor = .float (floatMulNat n factor))

/-- R132 with the spec's general knowledge of binary64 (log entry 7): for a finite factor whose product does not
overflow, the result is a nearest binary64 to the exact product, and of two equally near ones the even one. -/
def Obligations.FloatProductIsNearest : Prop :=
  ∀ (n : BitVec 16) (factor : F64),
    floatIsFinite factor = true → floatIsFinite (floatMulNat n factor) = true →
    ∀ y : F64, floatIsFinite y = true →
      |floatValue (floatMulNat n factor) - n.toNat * floatValue factor| ≤
        |floatValue y - n.toNat * floatValue factor| ∧
      (|floatValue (floatMulNat n factor) - n.toNat * floatValue factor| =
          |floatValue y - n.toNat * floatValue factor| →
        floatValue y = floatValue (floatMulNat n factor) ∨ floatSig (floatMulNat n factor) % 2 = 0)

/-- R132 with the spec's general knowledge of binary64 (log entry 7): a finite factor overflows to the infinity of its
sign exactly when the product's magnitude reaches `(2^54 - 1) * 2^970`, half a unit above the largest finite value. -/
def Obligations.FloatProductOverflow : Prop :=
  ∀ (n : BitVec 16) (factor : F64), floatIsFinite factor = true →
    (floatIsFinite (floatMulNat n factor) = false ↔
      ((2 : ℚ) ^ 54 - 1) * 2 ^ 970 ≤ n.toNat * |floatValue factor|) ∧
    (floatIsFinite (floatMulNat n factor) = false → floatIsInf (floatMulNat n factor) = true) ∧
    floatSign (floatMulNat n factor) = floatSign factor

/-- R132: a NaN factor gives a NaN, an infinite factor gives itself, or a NaN on a raw 0. Which NaN is the free value of
log entry 5; the statement holds for every value of it. -/
def Obligations.FloatSpecialFactors : Prop :=
  ∀ (n : BitVec 16) (factor : F64),
    (floatIsNan factor = true → floatIsNan (floatMulNat n factor) = true) ∧
    (floatIsInf factor = true → n ≠ 0 → floatMulNat n factor = factor) ∧
    (floatIsInf factor = true → n = 0 → floatIsNan (floatMulNat n factor) = true)

/-! ### Decoding -/

/-- Words written out from the formats of R53, R54, R61 decode to their rows. That the 12 bits of a decode word stand in
16 with bits 15 to 12 zero is the MODEL'S CHOICE (log entry 16); the last three are words of 12 bits, as R61 has them. -/
def Obligations.WrittenOutWordsDecode : Prop :=
  decodeTableWord 8 0b00010010 = some (.rawPlainLo 0x12) ∧
  decodeTableWord 8 0b10101010 = some (.rawPlainHi 0xAA) ∧
  decodeTableWord 8 0b11000111 = some (.rawEscPrefix 0xC7) ∧
  decodeTableWord 16 0b1100010000010010 = some (.escFramingError 0xC4 0x12) ∧
  decodeTableWord 16 0b1100011110111110 = some (.escReceived 3 0x3E) ∧
  decodeTableWord 16 0b1110110010000011 = some (.escErrorEbus 0 3) ∧
  decodeTableWord 16 0b0000010100010000 = some .fsmWaitLenOk16 ∧
  decodeTableWord 16 0b0000100111111111 = some (.fsmWaitRspBad 0xFF) ∧
  decodeTableWord 16 0b0000101000000000 = none ∧
  decodeTableWord 12 0b010100010000 = some .fsmWaitLenOk16 ∧
  decodeTableWord 12 0b100111111111 = some (.fsmWaitRspBad 0xFF) ∧
  decodeTableWord 12 0b101000000000 = none

/-- DECODE AND ENCODE AGREE: every well-formed instruction, with every operand, is what its code decodes to. -/
def Obligations.DecodeOfEncode : Prop :=
  ∀ i : Instr, i.wf = true → decode (encode i) = .ok i

/-- Every code has one meaning: the decoder gives only well-formed instructions, and the instruction's own code is the one
it was read from, but for the payload of an unsupported type, which its row does not read. -/
def Obligations.EncodeOfDecode : Prop :=
  ∀ (c : Code) (i : Instr), decode c = .ok i →
    i.wf = true ∧
    ((∀ ty site pay, c = .dataType ty site pay → isSupportedType ty = true) → encode i = c) ∧
    (∀ ty site pay, c = .dataType ty site pay → isSupportedType ty = false → encode i = .dataType ty site [])

/-! ### The step -/

/-- A STEP RUNS THE DECODED INSTRUCTION (R5, R78, R86, R17; the agenda is log entry 1, the idle step log entry 11, a feed
held back log entry 18). The Host's turn runs its operation; the Core's turn runs the symbol that the pending prefix and
the head byte decode to, with that byte off the queue, is idle on an empty queue, and refuses a reserved state. With an
unbounded queue no feed is held back, so the Core's turn is the head of the agenda or an empty agenda. With a finite one
a feed takes the bytes that fit and its rest stays the next turn, so that no byte is dropped (MODEL'S CHOICE, log entry
18). -/
def Obligations.StepRunsTheTurn : Prop :=
  ∀ (s : State) (rest : List Turn),
    (∀ bytes, s.agenda = .feed bytes :: rest → s.holdsBack bytes = false →
      step s = exec (.feed bytes) { s with agenda := rest }) ∧
    (s.params.inQueueCap = none → ∀ bytes, s.holdsBack bytes = false) ∧
    (∀ bytes cap, s.params.inQueueCap = some cap → cap < s.inQ.length + bytes.length →
      ∃ taken left, bytes = taken ++ left ∧ taken.length = min bytes.length (cap - s.inQ.length) ∧
        exec (.feed bytes) s = .next { s with
          inQ := s.inQ ++ taken, agenda := if left = [] then s.agenda else .feed left :: s.agenda }) ∧
    (s.agenda = .reset :: rest → step s = exec .reset { s with agenda := rest }) ∧
    (s.agenda = .core :: rest → s.CoreTurn rest) ∧ (s.agenda = [] → s.CoreTurn []) ∧
    (s.CoreTurn rest →
      (s.inQ = [] → step s = .next { s with agenda := rest }) ∧
      (∀ b q i, s.inQ = b :: q → s.Legal → decodeStream s.params.toConstants s.pend b = i →
        step s = exec i { s with agenda := rest, inQ := q }) ∧
      (∀ b q, s.inQ = b :: q → ¬ s.Legal → step s = .refused (.reservedFsmState s.st)))

/-- R78: the Core step is the spec's pseudocode, case by case of `pend` and the byte, at every turn of the Core, whatever
turns are left in the schedule. -/
def Obligations.CoreStepFollowsPseudocode : Prop :=
  ∀ (s : State) (rest : List Turn) (b : Byte) (q : List Byte), s.CoreTurn rest → s.inQ = b :: q → s.Legal →
    let u : State := { s with agenda := rest, inQ := q }
    step s =
      match s.pend with
      | none => if b.toNat < s.params.escMin.toNat then fsm b u else .next { u with pend := some b }
      | some b1 =>
        if b.getLsbD 7 = false then fsm b { u with pend := none, out := s.out ++ [.evt (.framingError b1 b)] }
        else
          let c : BitVec 4 := b1.extractLsb' 2 4
          let d : Byte := BitVec.ofInt 8 (((b1.toNat : ℤ) - 0xC0) * 2 ^ 6 + ((b.toNat : ℤ) - 0x80))
          if c = s.params.cmdReceived then fsm d { u with pend := none }
          else .next { u with pend := none, out := s.out ++ [.evt (.adapterStatus c d (statusLabel c))] }

/-- R148, R150: nothing is fatal. From every legal state each step answers a next state, and it is legal. -/
def Obligations.EveryStepGoesOn : Prop :=
  ∀ s : State, s.Legal → ∃ t, step s = .next t ∧ t.Legal

/-- R149: what one Core step outputs, in order, at every turn of the Core: a framing error if there was one, then the
items of one transition; or one status event alone. -/
def Obligations.CoreStepOutputOrder : Prop :=
  ∀ (s t : State) (rest : List Turn) (b : Byte) (q : List Byte),
    s.CoreTurn rest → s.inQ = b :: q → step s = .next t →
    (∃ c d l, t.out = s.out ++ [.evt (.adapterStatus c d l)]) ∨
    (∃ items, t.out = s.out ++ items ∧ TransitionItems items) ∨
    (∃ b1 items, t.out = s.out ++ .evt (.framingError b1 b) :: items ∧ TransitionItems items)

/-- R51, R31: no instruction writes the catalog, the checksum table or a constant. -/
def Obligations.ParametersAreNeverWritten : Prop :=
  (∀ (i : Instr) (s t : State), exec i s = .next t → t.params = s.params) ∧
  ∀ s t : State, step s = .next t → t.params = s.params

/-- R34, R48: an item once output stays as it is; a step only appends after everything output before it. -/
def Obligations.StepsOnlyAppendToTheTrace : Prop :=
  ∀ s t : State, step s = .next t → ∃ items, t.trace = s.trace ++ items

/-! ### Invariants and headlines -/

/-- The invariant holds right after construction, whatever the parameters and the schedule, and so at
`State.reset`. -/
def Obligations.ConstructionMeetsInvariant : Prop :=
  (∀ (p : Params) (agenda : List Turn), ({ State.construct p with agenda := agenda } : State).Inv) ∧
  State.reset.Inv

/-- AN INVARIANT THAT EVERY STEP KEEPS: from every state that meets it, reachable or not. -/
def Obligations.StepKeepsInvariant : Prop :=
  ∀ s t : State, s.Inv → step s = .next t → t.Inv

/-- R35: every state reachable from construction, whatever the parameters and under every schedule of Host and Core,
satisfies the eight items. R7: so a payload buffer never overflows when `MAX_LEN` is at most `PAYLOAD_CAP`. -/
def Obligations.ReachableStatesMeetTheListedItems : Prop :=
  ∀ s : State, Reachable s → s.Listed ∧
    (s.params.wf = true →
      s.req.payload.length ≤ s.params.payloadCap ∧ s.rsp.payload.length ≤ s.params.payloadCap)

/-- R112 item 1, R23, R24: no partial or corrupted telegram is ever delivered. In every reachable state every telegram
output so far is complete, within the length bound, and both its checksums match. -/
def Obligations.DeliveredTelegramsAreValid : Prop :=
  ∀ s : State, Reachable s → AllValid s.params s.trace

/-- R49: chunking and scheduling invariance. Under any schedule without a reset, however it cuts the bytes into feeds and
wherever it lets the Core step, the machine ends in the very state, outputs included, that one feed of the whole byte
sequence followed by Core steps leads to. It holds for every queue that can hold a byte; the bounds on the steps are not
the least. -/
def Obligations.ChunkingInvariance : Prop :=
  ∀ (s : State) (agenda : List Turn) (n m : Nat),
    s.Legal → s.params.inQueueCap ≠ some 0 → Turn.reset ∉ agenda →
    agenda.length + s.inQ.length + 2 * (agendaBytes agenda).length ≤ n →
    1 + s.inQ.length + 2 * (agendaBytes agenda).length ≤ m →
    ∃ t : State, Sys2Proof.core.run n { s with agenda := agenda } = .next t ∧
      Sys2Proof.core.run m { s with agenda := [.feed (agendaBytes agenda)] } = .next t

/-- R30: no rule reads `ack_received`, so it changes no output and no other register. -/
def Obligations.AckReceivedIsUnobservable : Prop :=
  ∀ (s t : State) (a : Bool), step s = .next t →
    ∃ a' : Bool, step { s with ackReceived := a } = .next { t with ackReceived := a' }
end

