-- ==== Sys2Proof/Laws/State.lean ====
section
/-! SUPPORT. One lemma per field per update of State, so that no later proof unfolds an update. -/

namespace Sys2Proof.Machine

variable (s : State)

/-! ### `output` -/

@[simp] theorem State.output_st (items : List Item) : (s.output items).st = s.st := rfl
@[simp] theorem State.output_req (items : List Item) : (s.output items).req = s.req := rfl
@[simp] theorem State.output_rsp (items : List Item) : (s.output items).rsp = s.rsp := rfl
@[simp] theorem State.output_remaining (items : List Item) : (s.output items).remaining = s.remaining := rfl
@[simp] theorem State.output_inQ (items : List Item) : (s.output items).inQ = s.inQ := rfl
@[simp] theorem State.output_pend (items : List Item) : (s.output items).pend = s.pend := rfl
@[simp] theorem State.output_gotResponse (items : List Item) : (s.output items).gotResponse = s.gotResponse := rfl
@[simp] theorem State.output_gotBroadcast (items : List Item) : (s.output items).gotBroadcast = s.gotBroadcast := rfl
@[simp] theorem State.output_ackReceived (items : List Item) : (s.output items).ackReceived = s.ackReceived := rfl
@[simp] theorem State.output_out (items : List Item) : (s.output items).out = s.out ++ items := rfl
@[simp] theorem State.output_outBeforeReset (items : List Item) : (s.output items).outBeforeReset = s.outBeforeReset := rfl
@[simp] theorem State.output_params (items : List Item) : (s.output items).params = s.params := rfl
@[simp] theorem State.output_agenda (items : List Item) : (s.output items).agenda = s.agenda := rfl
@[simp] theorem State.output_unitOut (items : List Item) : (s.output items).unitOut = s.unitOut := rfl

/-! ### `raise` -/

@[simp] theorem State.raise_st (e : Event) : (s.raise e).st = s.st := rfl
@[simp] theorem State.raise_req (e : Event) : (s.raise e).req = s.req := rfl
@[simp] theorem State.raise_rsp (e : Event) : (s.raise e).rsp = s.rsp := rfl
@[simp] theorem State.raise_remaining (e : Event) : (s.raise e).remaining = s.remaining := rfl
@[simp] theorem State.raise_inQ (e : Event) : (s.raise e).inQ = s.inQ := rfl
@[simp] theorem State.raise_pend (e : Event) : (s.raise e).pend = s.pend := rfl
@[simp] theorem State.raise_gotResponse (e : Event) : (s.raise e).gotResponse = s.gotResponse := rfl
@[simp] theorem State.raise_gotBroadcast (e : Event) : (s.raise e).gotBroadcast = s.gotBroadcast := rfl
@[simp] theorem State.raise_ackReceived (e : Event) : (s.raise e).ackReceived = s.ackReceived := rfl
@[simp] theorem State.raise_out (e : Event) : (s.raise e).out = s.out ++ [.evt e] := rfl
@[simp] theorem State.raise_outBeforeReset (e : Event) : (s.raise e).outBeforeReset = s.outBeforeReset := rfl
@[simp] theorem State.raise_params (e : Event) : (s.raise e).params = s.params := rfl
@[simp] theorem State.raise_agenda (e : Event) : (s.raise e).agenda = s.agenda := rfl
@[simp] theorem State.raise_unitOut (e : Event) : (s.raise e).unitOut = s.unitOut := rfl

/-! ### `goto` -/

@[simp] theorem State.goto_st (q : FsmState) : (s.goto q).st = q.code := rfl
@[simp] theorem State.goto_req (q : FsmState) : (s.goto q).req = s.req := rfl
@[simp] theorem State.goto_rsp (q : FsmState) : (s.goto q).rsp = s.rsp := rfl
@[simp] theorem State.goto_remaining (q : FsmState) : (s.goto q).remaining = s.remaining := rfl
@[simp] theorem State.goto_inQ (q : FsmState) : (s.goto q).inQ = s.inQ := rfl
@[simp] theorem State.goto_pend (q : FsmState) : (s.goto q).pend = s.pend := rfl
@[simp] theorem State.goto_gotResponse (q : FsmState) : (s.goto q).gotResponse = s.gotResponse := rfl
@[simp] theorem State.goto_gotBroadcast (q : FsmState) : (s.goto q).gotBroadcast = s.gotBroadcast := rfl
@[simp] theorem State.goto_ackReceived (q : FsmState) : (s.goto q).ackReceived = s.ackReceived := rfl
@[simp] theorem State.goto_out (q : FsmState) : (s.goto q).out = s.out := rfl
@[simp] theorem State.goto_outBeforeReset (q : FsmState) : (s.goto q).outBeforeReset = s.outBeforeReset := rfl
@[simp] theorem State.goto_params (q : FsmState) : (s.goto q).params = s.params := rfl
@[simp] theorem State.goto_agenda (q : FsmState) : (s.goto q).agenda = s.agenda := rfl
@[simp] theorem State.goto_unitOut (q : FsmState) : (s.goto q).unitOut = s.unitOut := rfl

/-! ### `setPend` -/

@[simp] theorem State.setPend_st (p : Option Byte) : (s.setPend p).st = s.st := rfl
@[simp] theorem State.setPend_req (p : Option Byte) : (s.setPend p).req = s.req := rfl
@[simp] theorem State.setPend_rsp (p : Option Byte) : (s.setPend p).rsp = s.rsp := rfl
@[simp] theorem State.setPend_remaining (p : Option Byte) : (s.setPend p).remaining = s.remaining := rfl
@[simp] theorem State.setPend_inQ (p : Option Byte) : (s.setPend p).inQ = s.inQ := rfl
@[simp] theorem State.setPend_pend (p : Option Byte) : (s.setPend p).pend = p := rfl
@[simp] theorem State.setPend_gotResponse (p : Option Byte) : (s.setPend p).gotResponse = s.gotResponse := rfl
@[simp] theorem State.setPend_gotBroadcast (p : Option Byte) : (s.setPend p).gotBroadcast = s.gotBroadcast := rfl
@[simp] theorem State.setPend_ackReceived (p : Option Byte) : (s.setPend p).ackReceived = s.ackReceived := rfl
@[simp] theorem State.setPend_out (p : Option Byte) : (s.setPend p).out = s.out := rfl
@[simp] theorem State.setPend_outBeforeReset (p : Option Byte) : (s.setPend p).outBeforeReset = s.outBeforeReset := rfl
@[simp] theorem State.setPend_params (p : Option Byte) : (s.setPend p).params = s.params := rfl
@[simp] theorem State.setPend_agenda (p : Option Byte) : (s.setPend p).agenda = s.agenda := rfl
@[simp] theorem State.setPend_unitOut (p : Option Byte) : (s.setPend p).unitOut = s.unitOut := rfl

/-! ### `setUnit` -/

@[simp] theorem State.setUnit_st (u : UnitOut) : (s.setUnit u).st = s.st := rfl
@[simp] theorem State.setUnit_req (u : UnitOut) : (s.setUnit u).req = s.req := rfl
@[simp] theorem State.setUnit_rsp (u : UnitOut) : (s.setUnit u).rsp = s.rsp := rfl
@[simp] theorem State.setUnit_remaining (u : UnitOut) : (s.setUnit u).remaining = s.remaining := rfl
@[simp] theorem State.setUnit_inQ (u : UnitOut) : (s.setUnit u).inQ = s.inQ := rfl
@[simp] theorem State.setUnit_pend (u : UnitOut) : (s.setUnit u).pend = s.pend := rfl
@[simp] theorem State.setUnit_gotResponse (u : UnitOut) : (s.setUnit u).gotResponse = s.gotResponse := rfl
@[simp] theorem State.setUnit_gotBroadcast (u : UnitOut) : (s.setUnit u).gotBroadcast = s.gotBroadcast := rfl
@[simp] theorem State.setUnit_ackReceived (u : UnitOut) : (s.setUnit u).ackReceived = s.ackReceived := rfl
@[simp] theorem State.setUnit_out (u : UnitOut) : (s.setUnit u).out = s.out := rfl
@[simp] theorem State.setUnit_outBeforeReset (u : UnitOut) : (s.setUnit u).outBeforeReset = s.outBeforeReset := rfl
@[simp] theorem State.setUnit_params (u : UnitOut) : (s.setUnit u).params = s.params := rfl
@[simp] theorem State.setUnit_agenda (u : UnitOut) : (s.setUnit u).agenda = s.agenda := rfl
@[simp] theorem State.setUnit_unitOut (u : UnitOut) : (s.setUnit u).unitOut = u := rfl

/-! ### `clearTelegram` -/

@[simp] theorem State.clearTelegram_st : (s.clearTelegram).st = s.st := rfl
@[simp] theorem State.clearTelegram_req : (s.clearTelegram).req = Request.cleared := rfl
@[simp] theorem State.clearTelegram_rsp : (s.clearTelegram).rsp = Response.cleared := rfl
@[simp] theorem State.clearTelegram_remaining : (s.clearTelegram).remaining = 0 := rfl
@[simp] theorem State.clearTelegram_inQ : (s.clearTelegram).inQ = s.inQ := rfl
@[simp] theorem State.clearTelegram_pend : (s.clearTelegram).pend = s.pend := rfl
@[simp] theorem State.clearTelegram_gotResponse : (s.clearTelegram).gotResponse = false := rfl
@[simp] theorem State.clearTelegram_gotBroadcast : (s.clearTelegram).gotBroadcast = false := rfl
@[simp] theorem State.clearTelegram_ackReceived : (s.clearTelegram).ackReceived = false := rfl
@[simp] theorem State.clearTelegram_out : (s.clearTelegram).out = s.out := rfl
@[simp] theorem State.clearTelegram_outBeforeReset : (s.clearTelegram).outBeforeReset = s.outBeforeReset := rfl
@[simp] theorem State.clearTelegram_params : (s.clearTelegram).params = s.params := rfl
@[simp] theorem State.clearTelegram_agenda : (s.clearTelegram).agenda = s.agenda := rfl
@[simp] theorem State.clearTelegram_unitOut : (s.clearTelegram).unitOut = s.unitOut := rfl

/-! ### `dropTelegram` -/

@[simp] theorem State.dropTelegram_st (q : FsmState) : (s.dropTelegram q).st = q.code := rfl
@[simp] theorem State.dropTelegram_req (q : FsmState) : (s.dropTelegram q).req = Request.cleared := rfl
@[simp] theorem State.dropTelegram_rsp (q : FsmState) : (s.dropTelegram q).rsp = Response.cleared := rfl
@[simp] theorem State.dropTelegram_remaining (q : FsmState) : (s.dropTelegram q).remaining = 0 := rfl
@[simp] theorem State.dropTelegram_inQ (q : FsmState) : (s.dropTelegram q).inQ = s.inQ := rfl
@[simp] theorem State.dropTelegram_pend (q : FsmState) : (s.dropTelegram q).pend = s.pend := rfl
@[simp] theorem State.dropTelegram_gotResponse (q : FsmState) : (s.dropTelegram q).gotResponse = false := rfl
@[simp] theorem State.dropTelegram_gotBroadcast (q : FsmState) : (s.dropTelegram q).gotBroadcast = false := rfl
@[simp] theorem State.dropTelegram_ackReceived (q : FsmState) : (s.dropTelegram q).ackReceived = false := rfl
@[simp] theorem State.dropTelegram_out (q : FsmState) : (s.dropTelegram q).out = s.out := rfl
@[simp] theorem State.dropTelegram_outBeforeReset (q : FsmState) : (s.dropTelegram q).outBeforeReset = s.outBeforeReset := rfl
@[simp] theorem State.dropTelegram_params (q : FsmState) : (s.dropTelegram q).params = s.params := rfl
@[simp] theorem State.dropTelegram_agenda (q : FsmState) : (s.dropTelegram q).agenda = s.agenda := rfl
@[simp] theorem State.dropTelegram_unitOut (q : FsmState) : (s.dropTelegram q).unitOut = s.unitOut := rfl

/-! ### `noteDestination` -/

@[simp] theorem State.noteDestination_st (b : Byte) : (s.noteDestination b).st = s.st := rfl
@[simp] theorem State.noteDestination_req (b : Byte) : (s.noteDestination b).req = s.req := rfl
@[simp] theorem State.noteDestination_rsp (b : Byte) : (s.noteDestination b).rsp = s.rsp := rfl
@[simp] theorem State.noteDestination_remaining (b : Byte) : (s.noteDestination b).remaining = s.remaining := rfl
@[simp] theorem State.noteDestination_inQ (b : Byte) : (s.noteDestination b).inQ = s.inQ := rfl
@[simp] theorem State.noteDestination_pend (b : Byte) : (s.noteDestination b).pend = s.pend := rfl
@[simp] theorem State.noteDestination_gotResponse (b : Byte) : (s.noteDestination b).gotResponse = s.gotResponse := rfl
@[simp] theorem State.noteDestination_gotBroadcast (b : Byte) : (s.noteDestination b).gotBroadcast = (s.gotBroadcast || decide (b = s.params.broadcast)) := rfl
@[simp] theorem State.noteDestination_ackReceived (b : Byte) : (s.noteDestination b).ackReceived = s.ackReceived := rfl
@[simp] theorem State.noteDestination_out (b : Byte) : (s.noteDestination b).out = s.out := rfl
@[simp] theorem State.noteDestination_outBeforeReset (b : Byte) : (s.noteDestination b).outBeforeReset = s.outBeforeReset := rfl
@[simp] theorem State.noteDestination_params (b : Byte) : (s.noteDestination b).params = s.params := rfl
@[simp] theorem State.noteDestination_agenda (b : Byte) : (s.noteDestination b).agenda = s.agenda := rfl
@[simp] theorem State.noteDestination_unitOut (b : Byte) : (s.noteDestination b).unitOut = s.unitOut := rfl

/-! ### `noteResponse` -/

@[simp] theorem State.noteResponse_st : (s.noteResponse).st = s.st := rfl
@[simp] theorem State.noteResponse_req : (s.noteResponse).req = s.req := rfl
@[simp] theorem State.noteResponse_rsp : (s.noteResponse).rsp = s.rsp := rfl
@[simp] theorem State.noteResponse_remaining : (s.noteResponse).remaining = s.remaining := rfl
@[simp] theorem State.noteResponse_inQ : (s.noteResponse).inQ = s.inQ := rfl
@[simp] theorem State.noteResponse_pend : (s.noteResponse).pend = s.pend := rfl
@[simp] theorem State.noteResponse_gotResponse : (s.noteResponse).gotResponse = true := rfl
@[simp] theorem State.noteResponse_gotBroadcast : (s.noteResponse).gotBroadcast = s.gotBroadcast := rfl
@[simp] theorem State.noteResponse_ackReceived : (s.noteResponse).ackReceived = s.ackReceived := rfl
@[simp] theorem State.noteResponse_out : (s.noteResponse).out = s.out := rfl
@[simp] theorem State.noteResponse_outBeforeReset : (s.noteResponse).outBeforeReset = s.outBeforeReset := rfl
@[simp] theorem State.noteResponse_params : (s.noteResponse).params = s.params := rfl
@[simp] theorem State.noteResponse_agenda : (s.noteResponse).agenda = s.agenda := rfl
@[simp] theorem State.noteResponse_unitOut : (s.noteResponse).unitOut = s.unitOut := rfl

/-! ### `noteAck` -/

@[simp] theorem State.noteAck_st : (s.noteAck).st = s.st := rfl
@[simp] theorem State.noteAck_req : (s.noteAck).req = s.req := rfl
@[simp] theorem State.noteAck_rsp : (s.noteAck).rsp = s.rsp := rfl
@[simp] theorem State.noteAck_remaining : (s.noteAck).remaining = s.remaining := rfl
@[simp] theorem State.noteAck_inQ : (s.noteAck).inQ = s.inQ := rfl
@[simp] theorem State.noteAck_pend : (s.noteAck).pend = s.pend := rfl
@[simp] theorem State.noteAck_gotResponse : (s.noteAck).gotResponse = s.gotResponse := rfl
@[simp] theorem State.noteAck_gotBroadcast : (s.noteAck).gotBroadcast = s.gotBroadcast := rfl
@[simp] theorem State.noteAck_ackReceived : (s.noteAck).ackReceived = true := rfl
@[simp] theorem State.noteAck_out : (s.noteAck).out = s.out := rfl
@[simp] theorem State.noteAck_outBeforeReset : (s.noteAck).outBeforeReset = s.outBeforeReset := rfl
@[simp] theorem State.noteAck_params : (s.noteAck).params = s.params := rfl
@[simp] theorem State.noteAck_agenda : (s.noteAck).agenda = s.agenda := rfl
@[simp] theorem State.noteAck_unitOut : (s.noteAck).unitOut = s.unitOut := rfl

/-! ### `emit` -/

@[simp] theorem State.emit_st (q : FsmState) : (s.emit q).st = q.code := rfl
@[simp] theorem State.emit_req (q : FsmState) : (s.emit q).req = Request.cleared := rfl
@[simp] theorem State.emit_rsp (q : FsmState) : (s.emit q).rsp = Response.cleared := rfl
@[simp] theorem State.emit_remaining (q : FsmState) : (s.emit q).remaining = 0 := rfl
@[simp] theorem State.emit_inQ (q : FsmState) : (s.emit q).inQ = s.inQ := rfl
@[simp] theorem State.emit_pend (q : FsmState) : (s.emit q).pend = s.pend := rfl
@[simp] theorem State.emit_gotResponse (q : FsmState) : (s.emit q).gotResponse = false := rfl
@[simp] theorem State.emit_gotBroadcast (q : FsmState) : (s.emit q).gotBroadcast = false := rfl
@[simp] theorem State.emit_ackReceived (q : FsmState) : (s.emit q).ackReceived = false := rfl
@[simp] theorem State.emit_out (q : FsmState) : (s.emit q).out = s.out ++ .tel s.telegram :: matchItems s.params s.telegram := rfl
@[simp] theorem State.emit_outBeforeReset (q : FsmState) : (s.emit q).outBeforeReset = s.outBeforeReset := rfl
@[simp] theorem State.emit_params (q : FsmState) : (s.emit q).params = s.params := rfl
@[simp] theorem State.emit_agenda (q : FsmState) : (s.emit q).agenda = s.agenda := rfl
@[simp] theorem State.emit_unitOut (q : FsmState) : (s.emit q).unitOut = s.unitOut := rfl

/-! ### `takeStatus` -/

@[simp] theorem State.takeStatus_st (c : BitVec 4) (dd : BitVec 2) (e : BitVec 7) : (s.takeStatus c dd e).st = s.st := rfl
@[simp] theorem State.takeStatus_req (c : BitVec 4) (dd : BitVec 2) (e : BitVec 7) : (s.takeStatus c dd e).req = s.req := rfl
@[simp] theorem State.takeStatus_rsp (c : BitVec 4) (dd : BitVec 2) (e : BitVec 7) : (s.takeStatus c dd e).rsp = s.rsp := rfl
@[simp] theorem State.takeStatus_remaining (c : BitVec 4) (dd : BitVec 2) (e : BitVec 7) : (s.takeStatus c dd e).remaining = s.remaining := rfl
@[simp] theorem State.takeStatus_inQ (c : BitVec 4) (dd : BitVec 2) (e : BitVec 7) : (s.takeStatus c dd e).inQ = s.inQ := rfl
@[simp] theorem State.takeStatus_pend (c : BitVec 4) (dd : BitVec 2) (e : BitVec 7) : (s.takeStatus c dd e).pend = none := rfl
@[simp] theorem State.takeStatus_gotResponse (c : BitVec 4) (dd : BitVec 2) (e : BitVec 7) : (s.takeStatus c dd e).gotResponse = s.gotResponse := rfl
@[simp] theorem State.takeStatus_gotBroadcast (c : BitVec 4) (dd : BitVec 2) (e : BitVec 7) : (s.takeStatus c dd e).gotBroadcast = s.gotBroadcast := rfl
@[simp] theorem State.takeStatus_ackReceived (c : BitVec 4) (dd : BitVec 2) (e : BitVec 7) : (s.takeStatus c dd e).ackReceived = s.ackReceived := rfl
@[simp] theorem State.takeStatus_out (c : BitVec 4) (dd : BitVec 2) (e : BitVec 7) : (s.takeStatus c dd e).out = s.out ++ [.evt (.adapterStatus c (escapeData dd e) (statusLabel c))] := rfl
@[simp] theorem State.takeStatus_outBeforeReset (c : BitVec 4) (dd : BitVec 2) (e : BitVec 7) : (s.takeStatus c dd e).outBeforeReset = s.outBeforeReset := rfl
@[simp] theorem State.takeStatus_params (c : BitVec 4) (dd : BitVec 2) (e : BitVec 7) : (s.takeStatus c dd e).params = s.params := rfl
@[simp] theorem State.takeStatus_agenda (c : BitVec 4) (dd : BitVec 2) (e : BitVec 7) : (s.takeStatus c dd e).agenda = s.agenda := rfl
@[simp] theorem State.takeStatus_unitOut (c : BitVec 4) (dd : BitVec 2) (e : BitVec 7) : (s.takeStatus c dd e).unitOut = s.unitOut := rfl

/-! ### `setActiveLen` -/

@[simp] theorem State.setActiveLen_st (b : Byte) : (s.setActiveLen b).st = s.st := by
  unfold State.setActiveLen; split <;> rfl
@[simp] theorem State.setActiveLen_remaining (b : Byte) : (s.setActiveLen b).remaining = s.remaining := by
  unfold State.setActiveLen; split <;> rfl
@[simp] theorem State.setActiveLen_inQ (b : Byte) : (s.setActiveLen b).inQ = s.inQ := by
  unfold State.setActiveLen; split <;> rfl
@[simp] theorem State.setActiveLen_pend (b : Byte) : (s.setActiveLen b).pend = s.pend := by
  unfold State.setActiveLen; split <;> rfl
@[simp] theorem State.setActiveLen_gotResponse (b : Byte) : (s.setActiveLen b).gotResponse = s.gotResponse := by
  unfold State.setActiveLen; split <;> rfl
@[simp] theorem State.setActiveLen_gotBroadcast (b : Byte) : (s.setActiveLen b).gotBroadcast = s.gotBroadcast := by
  unfold State.setActiveLen; split <;> rfl
@[simp] theorem State.setActiveLen_ackReceived (b : Byte) : (s.setActiveLen b).ackReceived = s.ackReceived := by
  unfold State.setActiveLen; split <;> rfl
@[simp] theorem State.setActiveLen_out (b : Byte) : (s.setActiveLen b).out = s.out := by
  unfold State.setActiveLen; split <;> rfl
@[simp] theorem State.setActiveLen_outBeforeReset (b : Byte) : (s.setActiveLen b).outBeforeReset = s.outBeforeReset := by
  unfold State.setActiveLen; split <;> rfl
@[simp] theorem State.setActiveLen_params (b : Byte) : (s.setActiveLen b).params = s.params := by
  unfold State.setActiveLen; split <;> rfl
@[simp] theorem State.setActiveLen_agenda (b : Byte) : (s.setActiveLen b).agenda = s.agenda := by
  unfold State.setActiveLen; split <;> rfl
@[simp] theorem State.setActiveLen_unitOut (b : Byte) : (s.setActiveLen b).unitOut = s.unitOut := by
  unfold State.setActiveLen; split <;> rfl

/-! ### `appendActive` -/

@[simp] theorem State.appendActive_st (b : Byte) : (s.appendActive b).st = s.st := by
  unfold State.appendActive; split <;> rfl
@[simp] theorem State.appendActive_remaining (b : Byte) : (s.appendActive b).remaining = s.remaining := by
  unfold State.appendActive; split <;> rfl
@[simp] theorem State.appendActive_inQ (b : Byte) : (s.appendActive b).inQ = s.inQ := by
  unfold State.appendActive; split <;> rfl
@[simp] theorem State.appendActive_pend (b : Byte) : (s.appendActive b).pend = s.pend := by
  unfold State.appendActive; split <;> rfl
@[simp] theorem State.appendActive_gotResponse (b : Byte) : (s.appendActive b).gotResponse = s.gotResponse := by
  unfold State.appendActive; split <;> rfl
@[simp] theorem State.appendActive_gotBroadcast (b : Byte) : (s.appendActive b).gotBroadcast = s.gotBroadcast := by
  unfold State.appendActive; split <;> rfl
@[simp] theorem State.appendActive_ackReceived (b : Byte) : (s.appendActive b).ackReceived = s.ackReceived := by
  unfold State.appendActive; split <;> rfl
@[simp] theorem State.appendActive_out (b : Byte) : (s.appendActive b).out = s.out := by
  unfold State.appendActive; split <;> rfl
@[simp] theorem State.appendActive_outBeforeReset (b : Byte) : (s.appendActive b).outBeforeReset = s.outBeforeReset := by
  unfold State.appendActive; split <;> rfl
@[simp] theorem State.appendActive_params (b : Byte) : (s.appendActive b).params = s.params := by
  unfold State.appendActive; split <;> rfl
@[simp] theorem State.appendActive_agenda (b : Byte) : (s.appendActive b).agenda = s.agenda := by
  unfold State.appendActive; split <;> rfl
@[simp] theorem State.appendActive_unitOut (b : Byte) : (s.appendActive b).unitOut = s.unitOut := by
  unfold State.appendActive; split <;> rfl

/-! ### `setActiveCrc` -/

@[simp] theorem State.setActiveCrc_st (b : Byte) : (s.setActiveCrc b).st = s.st := by
  unfold State.setActiveCrc; split <;> rfl
@[simp] theorem State.setActiveCrc_remaining (b : Byte) : (s.setActiveCrc b).remaining = s.remaining := by
  unfold State.setActiveCrc; split <;> rfl
@[simp] theorem State.setActiveCrc_inQ (b : Byte) : (s.setActiveCrc b).inQ = s.inQ := by
  unfold State.setActiveCrc; split <;> rfl
@[simp] theorem State.setActiveCrc_pend (b : Byte) : (s.setActiveCrc b).pend = s.pend := by
  unfold State.setActiveCrc; split <;> rfl
@[simp] theorem State.setActiveCrc_gotResponse (b : Byte) : (s.setActiveCrc b).gotResponse = s.gotResponse := by
  unfold State.setActiveCrc; split <;> rfl
@[simp] theorem State.setActiveCrc_gotBroadcast (b : Byte) : (s.setActiveCrc b).gotBroadcast = s.gotBroadcast := by
  unfold State.setActiveCrc; split <;> rfl
@[simp] theorem State.setActiveCrc_ackReceived (b : Byte) : (s.setActiveCrc b).ackReceived = s.ackReceived := by
  unfold State.setActiveCrc; split <;> rfl
@[simp] theorem State.setActiveCrc_out (b : Byte) : (s.setActiveCrc b).out = s.out := by
  unfold State.setActiveCrc; split <;> rfl
@[simp] theorem State.setActiveCrc_outBeforeReset (b : Byte) : (s.setActiveCrc b).outBeforeReset = s.outBeforeReset := by
  unfold State.setActiveCrc; split <;> rfl
@[simp] theorem State.setActiveCrc_params (b : Byte) : (s.setActiveCrc b).params = s.params := by
  unfold State.setActiveCrc; split <;> rfl
@[simp] theorem State.setActiveCrc_agenda (b : Byte) : (s.setActiveCrc b).agenda = s.agenda := by
  unfold State.setActiveCrc; split <;> rfl
@[simp] theorem State.setActiveCrc_unitOut (b : Byte) : (s.setActiveCrc b).unitOut = s.unitOut := by
  unfold State.setActiveCrc; split <;> rfl

/-! ### `acceptLength` -/

@[simp] theorem State.acceptLength_st (b : Byte) : (s.acceptLength b).st = (if b = 0 then FsmState.waitCrc else FsmState.waitData).code := rfl
@[simp] theorem State.acceptLength_remaining (b : Byte) : (s.acceptLength b).remaining = b.setWidth 5 := rfl
@[simp] theorem State.acceptLength_inQ (b : Byte) : (s.acceptLength b).inQ = s.inQ := State.setActiveLen_inQ s b
@[simp] theorem State.acceptLength_pend (b : Byte) : (s.acceptLength b).pend = s.pend := State.setActiveLen_pend s b
@[simp] theorem State.acceptLength_gotResponse (b : Byte) : (s.acceptLength b).gotResponse = s.gotResponse := State.setActiveLen_gotResponse s b
@[simp] theorem State.acceptLength_gotBroadcast (b : Byte) : (s.acceptLength b).gotBroadcast = s.gotBroadcast := State.setActiveLen_gotBroadcast s b
@[simp] theorem State.acceptLength_ackReceived (b : Byte) : (s.acceptLength b).ackReceived = s.ackReceived := State.setActiveLen_ackReceived s b
@[simp] theorem State.acceptLength_out (b : Byte) : (s.acceptLength b).out = s.out := State.setActiveLen_out s b
@[simp] theorem State.acceptLength_outBeforeReset (b : Byte) : (s.acceptLength b).outBeforeReset = s.outBeforeReset := State.setActiveLen_outBeforeReset s b
@[simp] theorem State.acceptLength_params (b : Byte) : (s.acceptLength b).params = s.params := State.setActiveLen_params s b
@[simp] theorem State.acceptLength_agenda (b : Byte) : (s.acceptLength b).agenda = s.agenda := State.setActiveLen_agenda s b
@[simp] theorem State.acceptLength_unitOut (b : Byte) : (s.acceptLength b).unitOut = s.unitOut := State.setActiveLen_unitOut s b

/-! ### `takeData` -/

@[simp] theorem State.takeData_st (b : Byte) : (s.takeData b).st = (if s.remaining - 1 = 0 then FsmState.waitCrc else FsmState.waitData).code := rfl
@[simp] theorem State.takeData_remaining (b : Byte) : (s.takeData b).remaining = s.remaining - 1 := rfl
@[simp] theorem State.takeData_inQ (b : Byte) : (s.takeData b).inQ = s.inQ := State.appendActive_inQ s b
@[simp] theorem State.takeData_pend (b : Byte) : (s.takeData b).pend = s.pend := State.appendActive_pend s b
@[simp] theorem State.takeData_gotResponse (b : Byte) : (s.takeData b).gotResponse = s.gotResponse := State.appendActive_gotResponse s b
@[simp] theorem State.takeData_gotBroadcast (b : Byte) : (s.takeData b).gotBroadcast = s.gotBroadcast := State.appendActive_gotBroadcast s b
@[simp] theorem State.takeData_ackReceived (b : Byte) : (s.takeData b).ackReceived = s.ackReceived := State.appendActive_ackReceived s b
@[simp] theorem State.takeData_out (b : Byte) : (s.takeData b).out = s.out := State.appendActive_out s b
@[simp] theorem State.takeData_outBeforeReset (b : Byte) : (s.takeData b).outBeforeReset = s.outBeforeReset := State.appendActive_outBeforeReset s b
@[simp] theorem State.takeData_params (b : Byte) : (s.takeData b).params = s.params := State.appendActive_params s b
@[simp] theorem State.takeData_agenda (b : Byte) : (s.takeData b).agenda = s.agenda := State.appendActive_agenda s b
@[simp] theorem State.takeData_unitOut (b : Byte) : (s.takeData b).unitOut = s.unitOut := State.appendActive_unitOut s b

end Sys2Proof.Machine
end

