-- ==== Sys2Proof/Laws/Ops.lean ====
section
/-! SUPPORT. What each shared operation can do, said once: the state register's encoding, the active buffer, the
checksum byte, the queue's capacity, and the state machine's transitions by state. -/

namespace Sys2Proof

/-! ### The state register's encoding -/

@[simp] theorem FsmState.ofCode_code (q : FsmState) : FsmState.ofCode q.code = some q := by
  cases q <;> rfl

theorem FsmState.code_of_ofCode {c : BitVec 4} {q : FsmState} (h : FsmState.ofCode c = some q) : c = q.code := by
  revert h; revert q; revert c; intro c
  have : ∀ c : BitVec 4, ∀ q ∈ FsmState.ofCode c, c = q.code := by decide
  exact fun {q} h => this c q h

theorem FsmState.ofCode_eq_none_iff (c : BitVec 4) : FsmState.ofCode c = none ↔ 10 ≤ c.toNat := by
  revert c; decide

theorem FsmState.code_le (q : FsmState) : q.code.toNat ≤ 9 := by
  cases q <;> decide

theorem FsmState.code_injective {p q : FsmState} (h : p.code = q.code) : p = q := by
  have := congrArg FsmState.ofCode h
  simpa using this

namespace Machine

/-! ### The active buffer -/

section Active
variable {s : State} (b : Byte)

theorem State.setActiveLen_req_active (h : s.gotResponse = false) :
    s.setActiveLen b = { s with req.len := b } := by simp [State.setActiveLen, h]

theorem State.setActiveLen_rsp_active (h : s.gotResponse = true) :
    s.setActiveLen b = { s with rsp.len := b } := by simp [State.setActiveLen, h]

theorem State.appendActive_req_active (h : s.gotResponse = false) :
    s.appendActive b = { s with req.payload := s.req.payload ++ [b] } := by simp [State.appendActive, h]

theorem State.appendActive_rsp_active (h : s.gotResponse = true) :
    s.appendActive b = { s with rsp.payload := s.rsp.payload ++ [b] } := by simp [State.appendActive, h]

theorem State.setActiveCrc_req_active (h : s.gotResponse = false) :
    s.setActiveCrc b = { s with req.crc := b } := by simp [State.setActiveCrc, h]

theorem State.setActiveCrc_rsp_active (h : s.gotResponse = true) :
    s.setActiveCrc b = { s with rsp.crc := b } := by simp [State.setActiveCrc, h]

theorem State.activePayload_req_active (h : s.gotResponse = false) : s.activePayload = s.req.payload := by
  simp [State.activePayload, h]

theorem State.activePayload_rsp_active (h : s.gotResponse = true) : s.activePayload = s.rsp.payload := by
  simp [State.activePayload, h]

theorem State.activeLen_req_active (h : s.gotResponse = false) : s.activeLen = s.req.len := by
  simp [State.activeLen, h]

theorem State.activeLen_rsp_active (h : s.gotResponse = true) : s.activeLen = s.rsp.len := by
  simp [State.activeLen, h]

/-- The checksum byte is accepted, or it raises the mismatch and the telegram is dropped; nothing else happens. -/
theorem State.takeChecksum_cases :
    (b = s.activeChecksum ∧ s.takeChecksum b = (s.setActiveCrc b).goto .waitAck) ∨
    (b ≠ s.activeChecksum ∧ s.takeChecksum b =
      (s.raise (.checksumMismatch s.activePart s.activeChecksum b)).dropTelegram .waitSyn) := by
  by_cases h : b = s.activeChecksum
  · exact .inl ⟨h, by simp [State.takeChecksum, State.checksumMatches, h]⟩
  · refine .inr ⟨h, ?_⟩
    unfold State.takeChecksum State.checksumMatches State.setActiveCrc
    simp only [h, decide_false, Bool.false_eq_true, if_false]
    split <;> rfl

end Active

/-! ### The input queue's capacity -/

section Queue
variable (s : State) (bytes : List Byte)

theorem State.roomFor_unbounded (h : s.params.inQueueCap = none) : s.roomFor bytes = bytes.length := by
  simp [State.roomFor, h]

theorem State.roomFor_le : s.roomFor bytes ≤ bytes.length := by
  unfold State.roomFor; split <;> omega

/-- An unbounded queue never holds the Host back (R159). -/
theorem State.holdsBack_unbounded (h : s.params.inQueueCap = none) : s.holdsBack bytes = false := by
  cases bytes <;> simp [State.holdsBack, State.roomFor_unbounded s _ h]

end Queue

/-! ### The state machine, by state -/

section Fsm
variable (b : Byte) (s : State)

theorem fsm_of_ofCode {q : FsmState} (h : FsmState.ofCode s.st = some q) :
    fsm b s = match q with
      | .waitSyn => if b = s.params.syn then execFsmWaitSynSyn s else execFsmWaitSynOther b s
      | .waitSrc => if b = s.params.syn then execFsmWaitSrcSyn s else execFsmWaitSrcOther b s
      | .waitDest => execFsmWaitDestAny b s
      | .waitCmdHi => execFsmWaitCmdHiAny b s
      | .waitCmdLo => execFsmWaitCmdLoAny b s
      | .waitLen => fsmWaitLen b s
      | .waitData => execFsmWaitDataAny b s
      | .waitCrc => execFsmWaitCrcAny b s
      | .waitAck => fsmWaitAck b s
      | .waitResponse => fsmWaitRsp b s := by
  cases q <;> simp [fsm, h]

theorem fsm_of_none (h : FsmState.ofCode s.st = none) : fsm b s = .refused (.reservedFsmState s.st) := by
  simp [fsm, h]

/-- WaitLen accepts a length or drops the telegram. -/
theorem fsmWaitLen_cases :
    (b ≤ s.params.maxLenByte ∧ fsmWaitLen b s = .next (s.acceptLength b)) ∨
    (s.params.maxLenByte < b ∧ fsmWaitLen b s = execFsmWaitLenBad b s) := by
  unfold fsmWaitLen
  by_cases h : b ≤ s.params.maxLenByte
  · exact .inl ⟨h, if_pos h⟩
  · exact .inr ⟨BitVec.not_le.mp h, if_neg h⟩

/-- WaitResponse emits, accepts a length, or drops the telegram. -/
theorem fsmWaitRsp_cases :
    (b = s.params.syn ∧ fsmWaitRsp b s = execFsmWaitRspSyn s) ∨
    (b ≤ s.params.maxLenByte ∧ b ≠ s.params.syn ∧ fsmWaitRsp b s = .next (s.noteResponse.acceptLength b)) ∨
    (s.params.maxLenByte < b ∧ b ≠ s.params.syn ∧ fsmWaitRsp b s = execFsmWaitRspBad b s) := by
  unfold fsmWaitRsp
  by_cases h0 : b = s.params.syn
  · exact .inl ⟨h0, if_pos h0⟩
  rw [if_neg h0]
  by_cases h : b ≤ s.params.maxLenByte
  · exact .inr (.inl ⟨h, h0, if_pos h⟩)
  · exact .inr (.inr ⟨BitVec.not_le.mp h, h0, if_neg h⟩)

/-- WaitAck, by the byte: the guards in the table's order. -/
theorem fsmWaitAck_cases :
    (b = s.params.ack ∧ fsmWaitAck b s = execFsmWaitAckAck s) ∨
    (b ≠ s.params.ack ∧ b = s.params.nack ∧ fsmWaitAck b s = execFsmWaitAckNack s) ∨
    ((b ≠ s.params.ack ∧ b ≠ s.params.nack) ∧ b = s.params.syn ∧ fsmWaitAck b s = execFsmWaitAckSyn s) ∨
    ((b ≠ s.params.ack ∧ b ≠ s.params.nack ∧ b ≠ s.params.syn) ∧ fsmWaitAck b s = execFsmWaitAckOther b s) := by
  unfold fsmWaitAck
  by_cases ha : b = s.params.ack
  · exact .inl ⟨ha, if_pos ha⟩
  rw [if_neg ha]
  by_cases hn : b = s.params.nack
  · exact .inr (.inl ⟨ha, hn, if_pos hn⟩)
  rw [if_neg hn]
  by_cases hs : b = s.params.syn
  · exact .inr (.inr (.inl ⟨⟨ha, hn⟩, hs, if_pos hs⟩))
  · exact .inr (.inr (.inr ⟨⟨ha, hn, hs⟩, if_neg hs⟩))

end Fsm

/-- ONE TRANSITION. If the state machine answers a next state, it is one of these; every later invariant of the machine
follows from this list. -/
theorem fsm_cases {b : Byte} {s t : State} (h : fsm b s = .next t) :
    (s.st = FsmState.waitSyn.code ∧ b = s.params.syn ∧ t = s.goto .waitSrc) ∨
    (s.st = FsmState.waitSyn.code ∧ b ≠ s.params.syn ∧ t = s.goto .waitSyn) ∨
    (s.st = FsmState.waitSrc.code ∧ b = s.params.syn ∧ t = s.goto .waitSrc) ∨
    (s.st = FsmState.waitSrc.code ∧ b ≠ s.params.syn ∧ t = ({ s with req.src := b } : State).goto .waitDest) ∨
    (s.st = FsmState.waitDest.code ∧
      t = (({ s with req.dest := b } : State).noteDestination b).goto .waitCmdHi) ∨
    (s.st = FsmState.waitCmdHi.code ∧ t = ({ s with req.cmdHi := b } : State).goto .waitCmdLo) ∨
    (s.st = FsmState.waitCmdLo.code ∧ t = ({ s with req.cmdLo := b } : State).goto .waitLen) ∨
    (s.st = FsmState.waitLen.code ∧ b ≤ s.params.maxLenByte ∧ t = s.acceptLength b) ∨
    (s.st = FsmState.waitLen.code ∧ s.params.maxLenByte < b ∧
      t = (s.raise (.lengthViolation .req b)).dropTelegram .waitSyn) ∨
    (s.st = FsmState.waitData.code ∧ s.remaining ≠ 0 ∧ t = s.takeData b) ∨
    (s.st = FsmState.waitData.code ∧ s.remaining = 0 ∧ t = s.takeChecksum b) ∨
    (s.st = FsmState.waitCrc.code ∧ t = s.takeChecksum b) ∨
    (s.st = FsmState.waitAck.code ∧ b = s.params.ack ∧ s.gotResponse = true ∧ t = s.emit .waitSyn) ∨
    (s.st = FsmState.waitAck.code ∧ b = s.params.ack ∧ s.gotResponse = false ∧
      t = s.noteAck.goto .waitResponse) ∨
    (s.st = FsmState.waitAck.code ∧ b = s.params.nack ∧ t = s.dropTelegram .waitSyn) ∨
    (s.st = FsmState.waitAck.code ∧ b = s.params.syn ∧ s.gotBroadcast = true ∧ t = s.emit .waitSrc) ∨
    (s.st = FsmState.waitAck.code ∧ b = s.params.syn ∧ s.gotBroadcast = false ∧ t = s.dropTelegram .waitSrc) ∨
    (s.st = FsmState.waitAck.code ∧ (b ≠ s.params.ack ∧ b ≠ s.params.nack ∧ b ≠ s.params.syn) ∧
      t = (s.raise (.protocolError b)).dropTelegram .waitSyn) ∨
    (s.st = FsmState.waitResponse.code ∧ b = s.params.syn ∧ t = s.emit .waitSyn) ∨
    (s.st = FsmState.waitResponse.code ∧ b ≤ s.params.maxLenByte ∧ t = s.noteResponse.acceptLength b) ∨
    (s.st = FsmState.waitResponse.code ∧ s.params.maxLenByte < b ∧ b ≠ s.params.syn ∧
      t = (s.raise (.lengthViolation .rsp b)).dropTelegram .waitSyn) := by
  rcases hq : FsmState.ofCode s.st with _ | q
  · simp [fsm_of_none b s hq] at h
  have hst := FsmState.code_of_ofCode hq
  rw [fsm_of_ofCode b s hq] at h
  cases q
  case waitSyn =>
    by_cases hb : b = s.params.syn
    · refine .inl ⟨hst, hb, ?_⟩; simpa [hb, execFsmWaitSynSyn] using h.symm
    · refine .inr (.inl ⟨hst, hb, ?_⟩); simpa [hb, execFsmWaitSynOther] using h.symm
  case waitSrc =>
    by_cases hb : b = s.params.syn
    · refine .inr (.inr (.inl ⟨hst, hb, ?_⟩)); simpa [hb, execFsmWaitSrcSyn] using h.symm
    · refine .inr (.inr (.inr (.inl ⟨hst, hb, ?_⟩))); simpa [hb, execFsmWaitSrcOther] using h.symm
  case waitDest =>
    iterate 4 right
    left
    exact ⟨hst, by simpa [execFsmWaitDestAny] using h.symm⟩
  case waitCmdHi =>
    iterate 5 right
    left
    exact ⟨hst, by simpa [execFsmWaitCmdHiAny] using h.symm⟩
  case waitCmdLo =>
    iterate 6 right
    left
    exact ⟨hst, by simpa [execFsmWaitCmdLoAny] using h.symm⟩
  case waitLen =>
    rcases fsmWaitLen_cases b s with ⟨hb, e⟩ | ⟨hb, e⟩
    · iterate 7 right
      left
      exact ⟨hst, hb, by simpa [e] using h.symm⟩
    · iterate 8 right
      left
      exact ⟨hst, hb, by simpa [e, execFsmWaitLenBad] using h.symm⟩
  case waitData =>
    by_cases hr : s.remaining = 0
    · iterate 10 right
      left
      exact ⟨hst, hr, by simpa only [execFsmWaitDataAny, if_pos hr, Host.Outcome.next.injEq] using h.symm⟩
    · iterate 9 right
      left
      exact ⟨hst, hr, by simpa only [execFsmWaitDataAny, if_neg hr, Host.Outcome.next.injEq] using h.symm⟩
  case waitCrc =>
    iterate 11 right
    left
    exact ⟨hst, by simpa [execFsmWaitCrcAny] using h.symm⟩
  case waitAck =>
    rcases fsmWaitAck_cases b s with ⟨hb, e⟩ | ⟨_, hb, e⟩ | ⟨_, hb, e⟩ | ⟨hb, e⟩
    · cases hg : s.gotResponse
      · iterate 13 right
        left
        exact ⟨hst, hb, rfl, by simpa [e, execFsmWaitAckAck, hg] using h.symm⟩
      · iterate 12 right
        left
        exact ⟨hst, hb, rfl, by simpa [e, execFsmWaitAckAck, hg] using h.symm⟩
    · iterate 14 right
      left
      exact ⟨hst, hb, by simpa [e, execFsmWaitAckNack] using h.symm⟩
    · cases hg : s.gotBroadcast
      · iterate 16 right
        left
        exact ⟨hst, hb, rfl, by simpa [e, execFsmWaitAckSyn, hg] using h.symm⟩
      · iterate 15 right
        left
        exact ⟨hst, hb, rfl, by simpa [e, execFsmWaitAckSyn, hg] using h.symm⟩
    · iterate 17 right
      left
      exact ⟨hst, hb, by simpa [e, execFsmWaitAckOther] using h.symm⟩
  case waitResponse =>
    rcases fsmWaitRsp_cases b s with ⟨hb, e⟩ | ⟨hb, _, e⟩ | ⟨hb, hb', e⟩
    · iterate 18 right
      left
      exact ⟨hst, hb, by simpa [e, execFsmWaitRspSyn] using h.symm⟩
    · iterate 19 right
      left
      exact ⟨hst, hb, by simpa [e] using h.symm⟩
    · iterate 20 right
      exact ⟨hst, hb, hb', by
        have := h.symm
        simp only [e, execFsmWaitRspBad] at this
        simpa [State.noteResponse, State.raise, State.output, State.dropTelegram, State.clearTelegram,
          State.goto] using this⟩

end Machine

end Sys2Proof
end

