-- ==== Sys2Proof/Laws/Engine.lean ====
section
/-! SUPPORT. The small lemmas of the CRC8 Engine, the patterns, the payload reads and the extractor. -/

namespace Sys2Proof.Machine

/-! ### CRC8 -/

section Crc
variable (p : Params) (table : Vector Byte 256)

@[simp] theorem crcFold_nil : crcFold p [] = p.crcInit := rfl

/-- A checksum grows at its end by one step (R72). -/
theorem crcFold_snoc (bytes : List Byte) (b : Byte) :
    crcFold p (bytes ++ [b]) = crcStep p.crcTable (crcFold p bytes) b := by
  simp [crcFold]

theorem crcFold_append (xs ys : List Byte) :
    crcFold p (xs ++ ys) = ys.foldl (crcStep p.crcTable) (crcFold p xs) := by
  simp [crcFold]

/-- The byte is combined after the lookup (R71). -/
theorem crcStep_eq_xor (r b : Byte) : crcStep table r b = crcStep table r 0 ^^^ b := by
  simp [crcStep]

theorem crcStep_byte_injective (r : Byte) {b c : Byte} (h : crcStep table r b = crcStep table r c) : b = c := by
  simpa [crcStep] using h

theorem State.activeChecksum_req_active {s : State} (h : s.gotResponse = false) :
    s.activeChecksum = crcFold s.params s.req.crcInput := by simp [State.activeChecksum, h]

theorem State.activeChecksum_rsp_active {s : State} (h : s.gotResponse = true) :
    s.activeChecksum = crcFold s.params s.rsp.crcInput := by simp [State.activeChecksum, h]

end Crc

/-! ### Patterns -/

@[simp] theorem literalAccepts_nil_nil : literalAccepts [] [] = true := rfl
@[simp] theorem literalAccepts_nil_cons (v : Char) (vs : Text) : literalAccepts [] (v :: vs) = false := rfl
@[simp] theorem literalAccepts_cons_nil (p : Char) (ps : Text) : literalAccepts (p :: ps) [] = false := rfl
@[simp] theorem literalAccepts_cons_cons (p v : Char) (ps vs : Text) :
    literalAccepts (p :: ps) (v :: vs) = ((p = '*' || p = v) && literalAccepts ps vs) := rfl

@[simp] theorem accepts_none (v : Text) : accepts none v = true := rfl
@[simp] theorem accepts_star (v : Text) : accepts (some ['*']) v = true := rfl
@[simp] theorem accepts_caret (q v : Text) : accepts (some ('^' :: q)) v = prefixAccepts q v := rfl

@[simp] theorem hexs_nil : hexs [] = [] := rfl
@[simp] theorem hexs_cons (b : Byte) (s : List Byte) : hexs (b :: s) = hex2 b ++ hexs s := rfl
theorem hex2_length (b : Byte) : (hex2 b).length = 2 := rfl

/-! ### Payload reads -/

theorem memRead_in_range {buf : List Byte} {off n : Nat} (h : off + n ≤ buf.length) :
    memRead buf off n = some ((buf.drop off).take n) := by simp [memRead, h]

theorem memRead_out_of_range {buf : List Byte} {off n : Nat} (h : buf.length < off + n) :
    memRead buf off n = none := by simp [memRead, Nat.not_le.mpr h]

theorem memRead_length {buf bytes : List Byte} {off n : Nat} (h : memRead buf off n = some bytes) :
    bytes.length = n := by
  unfold memRead at h
  split at h
  · cases h; simp; omega
  · cases h

/-! ### Records -/

@[simp] theorem putField_nil (name : Text) (v : Value) : putField name v [] = [(name, v)] := rfl
theorem putField_cons (name n : Text) (v old : Value) (rest : List (Text × Value)) :
    putField name v ((n, old) :: rest) =
      if n = name then (n, v) :: rest else (n, old) :: putField name v rest := rfl

section Scan
variable (c : Constants)

@[simp] theorem matchMessages_nil (ci mi : Nat) (t : Tel) : matchMessages c ci t mi [] = [] := rfl
theorem matchMessages_cons (ci mi : Nat) (t : Tel) (m : MessageDef) (rest : List MessageDef) :
    matchMessages c ci t mi (m :: rest) =
      (if defMatches m.requestMatch t then extract c ci mi m t else []) ++ matchMessages c ci t (mi + 1) rest := rfl
@[simp] theorem matchCircuits_nil (ci : Nat) (t : Tel) : matchCircuits c t ci [] = [] := rfl
theorem matchCircuits_cons (ci : Nat) (t : Tel) (circuit : Circuit) (rest : List Circuit) :
    matchCircuits c t ci (circuit :: rest) =
      matchMessages c ci t 0 circuit.messages ++ matchCircuits c t (ci + 1) rest := rfl

/-- With no circuit the scan outputs nothing. -/
theorem matchItems_empty {p : Params} (h : p.catalog.circuits = []) (t : Tel) : matchItems p t = [] := by
  simp [matchItems, h]

/-- What a matching definition outputs is never a telegram. -/
theorem tel_not_mem_extract (ci mi : Nat) (m : MessageDef) (t u : Tel) : Item.tel u ∉ extract c ci mi m t := by
  unfold extract
  split <;> simp

theorem tel_not_mem_matchMessages (ci : Nat) (t u : Tel) (ms : List MessageDef) (mi : Nat) :
    Item.tel u ∉ matchMessages c ci t mi ms := by
  induction ms generalizing mi with
  | nil => simp
  | cons m rest ih =>
    rw [matchMessages_cons]
    split
    · simp [tel_not_mem_extract, ih]
    · simp [ih]

theorem tel_not_mem_matchCircuits (t u : Tel) (cs : List Circuit) (ci : Nat) :
    Item.tel u ∉ matchCircuits c t ci cs := by
  induction cs generalizing ci with
  | nil => simp
  | cons circuit rest ih =>
    rw [matchCircuits_cons]
    simp [tel_not_mem_matchMessages, ih]

/-- The scan outputs records and events, never a telegram. -/
theorem tel_not_mem_matchItems (p : Params) (t u : Tel) : Item.tel u ∉ matchItems p t :=
  tel_not_mem_matchCircuits p.toConstants t u p.catalog.circuits 0

end Scan

end Sys2Proof.Machine
end

