-- ==== Sys2Proof/Laws/PerInstr.lean ====
section
/-! SUPPORT. The family RowBits: the code of a well-formed instruction has the fixed bits of its row of
opcode_table.json, and a row with no bits has a code with none. One lemma per constructor. -/

namespace Sys2Proof.Laws.RowBits

/-- The bits a row of opcode_table.json fixes: a mask and a match of its format's width, or none. -/
inductive TableRow where
  | raw (mask pattern : BitVec 8)
  | esc (mask pattern : BitVec 16)
  | fsm (mask pattern : BitVec 12)
  | noBits
  deriving DecidableEq, Repr

/-- The masks and matches of the table, copied row by row. -/
def tableRow : Instr → TableRow
  | .feed _ => .noBits
  | .reset => .noBits
  | .rawPlainLo _ => .raw 0x80 0x00
  | .rawPlainHi _ => .raw 0xC0 0x80
  | .rawEscPrefix _ => .raw 0xC0 0xC0
  | .escFramingError _ _ => .esc 0xC080 0xC000
  | .escReceived _ _ => .esc 0xFC80 0xC480
  | .escResetted _ _ => .esc 0xFC80 0xC080
  | .escStarted _ _ => .esc 0xFC80 0xC880
  | .escInfo _ _ => .esc 0xFC80 0xCC80
  | .escUnknown4 _ _ => .esc 0xFC80 0xD080
  | .escUnknown5 _ _ => .esc 0xFC80 0xD480
  | .escUnknown6 _ _ => .esc 0xFC80 0xD880
  | .escUnknown7 _ _ => .esc 0xFC80 0xDC80
  | .escUnknown8 _ _ => .esc 0xFC80 0xE080
  | .escUnknown9 _ _ => .esc 0xFC80 0xE480
  | .escFailed _ _ => .esc 0xFC80 0xE880
  | .escErrorEbus _ _ => .esc 0xFC80 0xEC80
  | .escErrorHost _ _ => .esc 0xFC80 0xF080
  | .escUnknownD _ _ => .esc 0xFC80 0xF480
  | .escUnknownE _ _ => .esc 0xFC80 0xF880
  | .escUnknownF _ _ => .esc 0xFC80 0xFC80
  | .fsmWaitSynSyn => .fsm 0xFFF 0x0AA
  | .fsmWaitSynOther _ => .fsm 0xF00 0x000
  | .fsmWaitSrcSyn => .fsm 0xFFF 0x1AA
  | .fsmWaitSrcOther _ => .fsm 0xF00 0x100
  | .fsmWaitDestAny _ => .fsm 0xF00 0x200
  | .fsmWaitCmdHiAny _ => .fsm 0xF00 0x300
  | .fsmWaitCmdLoAny _ => .fsm 0xF00 0x400
  | .fsmWaitLenOkLo _ => .fsm 0xFF0 0x500
  | .fsmWaitLenOk16 => .fsm 0xFFF 0x510
  | .fsmWaitLenBad _ => .fsm 0xF00 0x500
  | .fsmWaitDataAny _ => .fsm 0xF00 0x600
  | .fsmWaitCrcAny _ => .fsm 0xF00 0x700
  | .fsmWaitAckAck => .fsm 0xFFF 0x800
  | .fsmWaitAckNack => .fsm 0xFFF 0x8FF
  | .fsmWaitAckSyn => .fsm 0xFFF 0x8AA
  | .fsmWaitAckOther _ => .fsm 0xF00 0x800
  | .fsmWaitRspSyn => .fsm 0xFFF 0x9AA
  | .fsmWaitRspOkLo _ => .fsm 0xFF0 0x900
  | .fsmWaitRspOk16 => .fsm 0xFFF 0x910
  | .fsmWaitRspBad _ => .fsm 0xF00 0x900
  | .crc8 _ _ => .noBits
  | .checksum _ => .noBits
  | .patAny _ => .noBits
  | .patPrefix _ _ => .noBits
  | .patLiteral _ _ => .noBits
  | .patAbsent _ => .noBits
  | .typeU8 _ _ => .noBits
  | .typeU16le _ _ => .noBits
  | .typeU16be _ _ => .noBits
  | .typeUnsupported _ _ => .noBits

/-- The code is of the row's format and has its fixed bits. -/
def TableRow.covers : TableRow → Code → Bool
  | .raw mask pattern, .raw b => b &&& mask = pattern
  | .esc mask pattern, .esc w => w &&& mask = pattern
  | .fsm mask pattern, .fsm w => w &&& mask = pattern
  | .raw _ _, _ => false
  | .esc _ _, _ => false
  | .fsm _ _, _ => false
  | .noBits, .raw _ => false
  | .noBits, .esc _ => false
  | .noBits, .fsm _ => false
  | .noBits, _ => true

/-- A well-formed instruction's code has the fixed bits of its row. -/
abbrev Statement (i : Instr) : Prop :=
  i.wf = true → (tableRow i).covers (encode i) = true

theorem feed (bytes : List Byte) : Statement (.feed bytes) := fun _ => rfl

theorem reset : Statement .reset := fun _ => rfl

theorem rawPlainLo (b : Byte) : Statement (.rawPlainLo b) := by decide +revert

theorem rawPlainHi (b : Byte) : Statement (.rawPlainHi b) := by decide +revert

theorem rawEscPrefix (b : Byte) : Statement (.rawEscPrefix b) := by decide +revert

theorem escFramingError (b1 b2 : Byte) : Statement (.escFramingError b1 b2) := by
  intro h
  have hb : ∀ b : BitVec 8, Config.escMin ≤ b → b &&& 0xC0#8 = 0xC0#8 := by decide
  have hc : ∀ b : BitVec 8, b < 0x80#8 → b &&& 0x80#8 = 0#8 := by decide
  simp only [Instr.wf, Bool.and_eq_true, decide_eq_true_eq] at h
  simp only [tableRow, encode, TableRow.covers, decide_eq_true_eq]
  change b1 ++ b2 &&& (0xC0#8 ++ 0x80#8) = 0xC0#8 ++ 0#8
  rw [BitVec.and_append, hb b1 h.1, hc b2 h.2]

theorem escReceived (dd : BitVec 2) (e : BitVec 7) : Statement (.escReceived dd e) := by revert dd e; decide +kernel

theorem escResetted (dd : BitVec 2) (e : BitVec 7) : Statement (.escResetted dd e) := by revert dd e; decide +kernel

theorem escStarted (dd : BitVec 2) (e : BitVec 7) : Statement (.escStarted dd e) := by revert dd e; decide +kernel

theorem escInfo (dd : BitVec 2) (e : BitVec 7) : Statement (.escInfo dd e) := by revert dd e; decide +kernel

theorem escUnknown4 (dd : BitVec 2) (e : BitVec 7) : Statement (.escUnknown4 dd e) := by revert dd e; decide +kernel

theorem escUnknown5 (dd : BitVec 2) (e : BitVec 7) : Statement (.escUnknown5 dd e) := by revert dd e; decide +kernel

theorem escUnknown6 (dd : BitVec 2) (e : BitVec 7) : Statement (.escUnknown6 dd e) := by revert dd e; decide +kernel

theorem escUnknown7 (dd : BitVec 2) (e : BitVec 7) : Statement (.escUnknown7 dd e) := by revert dd e; decide +kernel

theorem escUnknown8 (dd : BitVec 2) (e : BitVec 7) : Statement (.escUnknown8 dd e) := by revert dd e; decide +kernel

theorem escUnknown9 (dd : BitVec 2) (e : BitVec 7) : Statement (.escUnknown9 dd e) := by revert dd e; decide +kernel

theorem escFailed (dd : BitVec 2) (e : BitVec 7) : Statement (.escFailed dd e) := by revert dd e; decide +kernel

theorem escErrorEbus (dd : BitVec 2) (e : BitVec 7) : Statement (.escErrorEbus dd e) := by revert dd e; decide +kernel

theorem escErrorHost (dd : BitVec 2) (e : BitVec 7) : Statement (.escErrorHost dd e) := by revert dd e; decide +kernel

theorem escUnknownD (dd : BitVec 2) (e : BitVec 7) : Statement (.escUnknownD dd e) := by revert dd e; decide +kernel

theorem escUnknownE (dd : BitVec 2) (e : BitVec 7) : Statement (.escUnknownE dd e) := by revert dd e; decide +kernel

theorem escUnknownF (dd : BitVec 2) (e : BitVec 7) : Statement (.escUnknownF dd e) := by revert dd e; decide +kernel

theorem fsmWaitSynSyn : Statement .fsmWaitSynSyn := by decide

theorem fsmWaitSynOther (b : Byte) : Statement (.fsmWaitSynOther b) := by decide +revert

theorem fsmWaitSrcSyn : Statement .fsmWaitSrcSyn := by decide

theorem fsmWaitSrcOther (b : Byte) : Statement (.fsmWaitSrcOther b) := by decide +revert

theorem fsmWaitDestAny (b : Byte) : Statement (.fsmWaitDestAny b) := by decide +revert

theorem fsmWaitCmdHiAny (b : Byte) : Statement (.fsmWaitCmdHiAny b) := by decide +revert

theorem fsmWaitCmdLoAny (b : Byte) : Statement (.fsmWaitCmdLoAny b) := by decide +revert

theorem fsmWaitLenOkLo (n : BitVec 4) : Statement (.fsmWaitLenOkLo n) := by decide +revert

theorem fsmWaitLenOk16 : Statement .fsmWaitLenOk16 := by decide

theorem fsmWaitLenBad (b : Byte) : Statement (.fsmWaitLenBad b) := by decide +revert

theorem fsmWaitDataAny (b : Byte) : Statement (.fsmWaitDataAny b) := by decide +revert

theorem fsmWaitCrcAny (b : Byte) : Statement (.fsmWaitCrcAny b) := by decide +revert

theorem fsmWaitAckAck : Statement .fsmWaitAckAck := by decide

theorem fsmWaitAckNack : Statement .fsmWaitAckNack := by decide

theorem fsmWaitAckSyn : Statement .fsmWaitAckSyn := by decide

theorem fsmWaitAckOther (b : Byte) : Statement (.fsmWaitAckOther b) := by decide +revert

theorem fsmWaitRspSyn : Statement .fsmWaitRspSyn := by decide

theorem fsmWaitRspOkLo (n : BitVec 4) : Statement (.fsmWaitRspOkLo n) := by decide +revert

theorem fsmWaitRspOk16 : Statement .fsmWaitRspOk16 := by decide

theorem fsmWaitRspBad (b : Byte) : Statement (.fsmWaitRspBad b) := by decide +revert

theorem crc8 (running byte : Byte) : Statement (.crc8 running byte) := fun _ => rfl

theorem checksum (bytes : List Byte) : Statement (.checksum bytes) := fun _ => rfl

theorem patAny (value : Text) : Statement (.patAny value) := fun _ => rfl

theorem patPrefix (q value : Text) : Statement (.patPrefix q value) := fun _ => rfl

theorem patLiteral (p value : Text) : Statement (.patLiteral p value) := fun _ => rfl

theorem patAbsent (value : Text) : Statement (.patAbsent value) := fun _ => rfl

theorem typeU8 (site : FieldSite) (payload : List Byte) : Statement (.typeU8 site payload) := fun _ => rfl

theorem typeU16le (site : FieldSite) (payload : List Byte) : Statement (.typeU16le site payload) := fun _ => rfl

theorem typeU16be (site : FieldSite) (payload : List Byte) : Statement (.typeU16be site payload) := fun _ => rfl

theorem typeUnsupported (site : FieldSite) (ty : Text) : Statement (.typeUnsupported site ty) := fun _ => rfl

end Sys2Proof.Laws.RowBits
end

