-- ==== Sys2Proof/Laws/Step.lean ====
section
/-! SUPPORT. What a turn and a step can do. -/

namespace Sys2Proof.Machine

/-- A feed that the queue has room for joins it whole (R77). -/
theorem execFeed_of_room {s : State} {bytes : List Byte} (h : s.roomFor bytes = bytes.length) :
    execFeed bytes s = .next { s with inQ := s.inQ ++ bytes } := by
  simp [execFeed, h]

section Fetch
variable (s : State)

theorem fetchCore_nil (h : s.inQ = []) : fetchCore s = .idle s := by simp [fetchCore, h]

theorem fetchCore_cons {b : Byte} {rest : List Byte} (h : s.inQ = b :: rest) (hl : FsmState.ofCode s.st ≠ none) :
    fetchCore s = .run (decodeStream s.params.toConstants s.pend b) { s with inQ := rest } := by
  simp [fetchCore, h, hl]

theorem fetchCore_reserved {b : Byte} {rest : List Byte} (h : s.inQ = b :: rest)
    (hl : FsmState.ofCode s.st = none) : fetchCore s = .refuse (.reservedFsmState s.st) := by
  simp [fetchCore, h, hl]

theorem fetch_agenda_nil (h : s.agenda = []) : fetch s = fetchCore s := by simp [fetch, h]

theorem fetch_agenda_feed {bytes : List Byte} {rest : List Turn} (h : s.agenda = .feed bytes :: rest)
    (hb : s.holdsBack bytes = false) : fetch s = .run (.feed bytes) { s with agenda := rest } := by simp [fetch, h, hb]

/-- A feed held back leaves the turn to the Core (R159, log entry 18). -/
theorem fetch_agenda_held {bytes : List Byte} {rest : List Turn} (h : s.agenda = .feed bytes :: rest)
    (hb : s.holdsBack bytes = true) : fetch s = fetchCore s := by simp [fetch, h, hb]

theorem fetch_agenda_reset {rest : List Turn} (h : s.agenda = .reset :: rest) :
    fetch s = .run .reset { s with agenda := rest } := by simp [fetch, h]

theorem fetch_agenda_core {rest : List Turn} (h : s.agenda = .core :: rest) :
    fetch s = fetchCore { s with agenda := rest } := by simp [fetch, h]

end Fetch

/-- ONE TURN OF THE CORE. If it runs an instruction, that is the symbol its head byte forms with the pending prefix. -/
theorem fetchCore_run {s u : State} {i : Instr} (h : fetchCore s = .run i u) :
    ∃ b rest, s.inQ = b :: rest ∧ FsmState.ofCode s.st ≠ none ∧ i = decodeStream s.params.toConstants s.pend b ∧
      u = { s with inQ := rest } := by
  unfold fetchCore at h
  split at h
  · cases h
  · next b rest hq =>
    split at h
    · cases h
    · next hl => cases h; exact ⟨b, rest, hq, hl, rfl, rfl⟩

theorem fetchCore_idle {s u : State} (h : fetchCore s = .idle u) : s.inQ = [] ∧ u = s := by
  unfold fetchCore at h
  split at h
  · next hq => cases h; exact ⟨hq, rfl⟩
  · split at h <;> cases h

/-- On the Core's turn a step is the Core's, with the turn taken off the schedule. -/
theorem fetch_coreTurn {s : State} {rest : List Turn} (h : s.CoreTurn rest) :
    fetch s = fetchCore { s with agenda := rest } := by
  rcases h with ⟨ha, rfl⟩ | ha | ⟨bytes, later, ha, hb, rfl⟩
  · rw [fetch_agenda_nil s ha, ← ha]
  · exact fetch_agenda_core s ha
  · exact fetch_agenda_held s ha hb

/-- Whose turn it is. -/
theorem turn_cases (s : State) :
    (∃ bytes rest, s.agenda = .feed bytes :: rest ∧ s.holdsBack bytes = false) ∨
    (∃ rest, s.agenda = .reset :: rest) ∨ ∃ rest, s.CoreTurn rest := by
  rcases ha : s.agenda with _ | ⟨bytes | _ | _, rest⟩
  · exact .inr (.inr ⟨[], .inl ⟨ha, rfl⟩⟩)
  · cases hb : s.holdsBack bytes
    · exact .inl ⟨bytes, rest, rfl, hb⟩
    · exact .inr (.inr ⟨_, .inr (.inr ⟨bytes, rest, ha, hb, rfl⟩)⟩)
  · exact .inr (.inl ⟨rest, rfl⟩)
  · exact .inr (.inr ⟨rest, .inr (.inl ha)⟩)

/-- ONE STEP. If it answers a next state, the Host fed a chunk, the Host reset the block, the Core was idle, or the Core
ran the symbol at the head of its queue. -/
theorem step_cases {s t : State} (h : step s = .next t) :
    (∃ bytes rest, s.agenda = .feed bytes :: rest ∧ s.holdsBack bytes = false ∧
      execFeed bytes { s with agenda := rest } = .next t) ∨
    (∃ rest, s.agenda = .reset :: rest ∧ execReset { s with agenda := rest } = .next t) ∨
    (∃ rest, s.CoreTurn rest ∧ s.inQ = [] ∧ t = { s with agenda := rest }) ∨
    (∃ rest b q, s.CoreTurn rest ∧ s.inQ = b :: q ∧ FsmState.ofCode s.st ≠ none ∧
      exec (decodeStream s.params.toConstants s.pend b) { s with agenda := rest, inQ := q } = .next t) := by
  unfold step at h
  rcases turn_cases s with ⟨bytes, rest, ha, hb⟩ | ⟨rest, ha⟩ | ⟨rest, ht⟩
  · rw [fetch_agenda_feed s ha hb] at h
    exact .inl ⟨bytes, rest, ha, hb, h⟩
  · rw [fetch_agenda_reset s ha] at h
    exact .inr (.inl ⟨rest, ha, h⟩)
  · rw [fetch_coreTurn ht] at h
    split at h
    · next i u hf =>
      obtain ⟨b, q, hq, hl, rfl, rfl⟩ := fetchCore_run hf
      exact .inr (.inr (.inr ⟨rest, b, q, ht, hq, hl, h⟩))
    · next u hf =>
      obtain ⟨hq, rfl⟩ := fetchCore_idle hf
      cases h
      exact .inr (.inr (.inl ⟨rest, ht, hq, rfl⟩))
    · cases h

/-- What the Core's symbol is, by the pending prefix. -/
theorem decodeStream_none (c : Constants) (b : Byte) : decodeStream c none b = decodeRaw c b := rfl
theorem decodeStream_some (c : Constants) (b1 b : Byte) : decodeStream c (some b1) b = decodePair b1 b := rfl

/-- A valid pair's row does what its command says (R83 to R85). -/
theorem exec_decodePair {b1 b2 : Byte} (h : b2.msb = true) (s : State) :
    exec (decodePair b1 b2) s = takePair (escCommand b1) (escHigh b1) (escLow b2) s := by
  have key : ∀ c : BitVec 4, escCommand b1 = c →
      exec (decodePair b1 b2) s = takePair c (escHigh b1) (escLow b2) s := by
    intro c hc
    unfold decodePair
    rw [hc, h]
    obtain ⟨k, rfl⟩ : ∃ k : Fin 16, c = BitVec.ofFin k := ⟨c.toFin, rfl⟩
    fin_cases k <;> rfl
  exact key _ rfl

/-- A pair is forwarded or is a status event (R84, R85). -/
theorem takePair_cases (c : BitVec 4) (dd : BitVec 2) (e : BitVec 7) (s : State) :
    (c = s.params.cmdReceived ∧ takePair c dd e s = fsm (escapeData dd e) (s.setPend none)) ∨
    (c ≠ s.params.cmdReceived ∧ takePair c dd e s = .next (s.takeStatus c dd e)) := by
  by_cases h : c = s.params.cmdReceived
  · exact .inl ⟨h, if_pos h⟩
  · exact .inr ⟨h, if_neg h⟩

/-- ONE SYMBOL (R78, R80 to R85). Running it hands a logical byte to the state machine, holds a prefix, or raises a
status event. -/
theorem exec_decodeStream (p : Option Byte) (b : Byte) (s : State) :
    (p = none ∧ b < s.params.escMin ∧ exec (decodeStream s.params.toConstants p b) s = fsm b s) ∨
    (p = none ∧ s.params.escMin ≤ b ∧
      exec (decodeStream s.params.toConstants p b) s = .next (s.setPend (some b))) ∨
    (∃ b1, p = some b1 ∧ b.msb = false ∧
      exec (decodeStream s.params.toConstants p b) s = fsm b ((s.raise (.framingError b1 b)).setPend none)) ∨
    (∃ b1, p = some b1 ∧ b.msb = true ∧ escCommand b1 = s.params.cmdReceived ∧
      exec (decodeStream s.params.toConstants p b) s = fsm (escapeData (escHigh b1) (escLow b)) (s.setPend none)) ∨
    (∃ b1, p = some b1 ∧ b.msb = true ∧ escCommand b1 ≠ s.params.cmdReceived ∧
      exec (decodeStream s.params.toConstants p b) s =
        .next (s.takeStatus (escCommand b1) (escHigh b1) (escLow b))) := by
  rcases p with _ | b1
  · rw [decodeStream_none]
    unfold decodeRaw
    by_cases h : s.params.escMin ≤ b
    · exact .inr (.inl ⟨rfl, h, by simp [h, exec, execRawEscPrefix]⟩)
    · refine .inl ⟨rfl, BitVec.not_le.mp h, ?_⟩
      by_cases h' : b < 0x80#8
      · simp [h, h', exec, execRawPlainLo]
      · simp [h, h', exec, execRawPlainHi]
  · right; right
    rw [decodeStream_some]
    cases hb : b.msb
    · exact .inl ⟨b1, rfl, rfl, by simp [decodePair, hb, exec, execEscFramingError]⟩
    · right
      rw [exec_decodePair hb s]
      rcases takePair_cases (escCommand b1) (escHigh b1) (escLow b) s with ⟨h1, h2⟩ | ⟨h1, h2⟩
      · exact .inl ⟨b1, rfl, rfl, h1, h2⟩
      · exact .inr ⟨b1, rfl, rfl, h1, h2⟩

end Sys2Proof.Machine
end

