-- ==== Sys2Proof/Tests/Slice0.lean ====
section
/-! SUPPORT. Our own tests: well-formedness refuses ill-formed terms; words written out from the spec's encodings decode
to their rows; one step on a small state against the vectors of 95_test_vectors.md (E, V and P numbers are named); and
for each statement with hypotheses a concrete state and operands that meet them (`witness_…`). -/

open Sys2Proof Sys2Proof.Machine

namespace Sys2Proof.Tests

/-! ### Helpers -/

/-- The next state of an outcome, if it is one. -/
def nextOf : Host.Outcome State Fault Refusal → Option State
  | .next s => some s
  | .fault _ => none
  | .refused _ => none

/-- Whether an outcome is a refusal. -/
def isRefused : Host.Outcome State Fault Refusal → Bool
  | .next _ => false
  | .fault _ => false
  | .refused _ => true

/-- A state with the Request `03 10 07 00 00` of vector E2 received, in FSM state `st`. -/
def inState (st : BitVec 4) : State :=
  { State.reset with
    st := st
    req := { src := 0x03, dest := 0x10, cmdHi := 0x07, cmdLo := 0x00, len := 0, payload := [], crc := 0 } }

/-- Vector E2 after the checksum byte: the Request is complete. -/
def afterCrc (st : BitVec 4) : State :=
  { inState st with
    req := { src := 0x03, dest := 0x10, cmdHi := 0x07, cmdLo := 0x00, len := 0, payload := [], crc := 0xD2 } }

/-- Vector E3 after the Response's payload: `02 12 34`, in FSM state `st`. -/
def withResponse (st : BitVec 4) : State :=
  { afterCrc st with
    gotResponse := true, ackReceived := true, rsp := { len := 2, payload := [0x12, 0x34], crc := 0 } }

/-- Vector E7 after the checksum byte: the broadcast `10 FE 07 00 01 05`. -/
def afterBroadcast : State :=
  { State.reset with
    st := 8, gotBroadcast := true
    req := { src := 0x10, dest := 0xFE, cmdHi := 0x07, cmdLo := 0x00, len := 1, payload := [0x05], crc := 0x9A } }

/-- The telegram of vector E2. -/
def telE2 : Tel :=
  { src := 0x03, dest := 0x10, cmdHi := 0x07, cmdLo := 0x00, len := 0, payload := [], crc := 0xD2, rsp := none }

/-- The field site of the vectors of section 6: definition 0, 0, field "v". -/
def site (offset : Nat) : FieldSite := { ci := 0, mi := 0, name := ['v'], offset := offset }

/-- A field of the vectors of section 6. -/
def field (name : Text) (offset : Nat) (ty : Text) (factor : F64) : Field :=
  { name := name, offset := offset, dataType := ty, factor := factor, unit := [] }

/-- A block with a queue of `n` bytes that holds one byte. -/
def capped (n : Nat) : State :=
  { State.construct { Params.default with inQueueCap := some n } with inQ := [0xAA] }

/-- A block in WaitLen, constructed with other constants: `MAX_LEN` 20, `CMD_RECEIVED` 15, `ESC_MIN` 0xE0, `SYN` 0x55. -/
def otherConstants : State :=
  { State.construct { Params.default with
      maxLen := 20, payloadCap := 20, cmdReceived := 15, escMin := 0xE0, syn := 0x55 } with st := 5 }

/-! ### Well-formedness: each check refuses an ill-formed term -/

theorem test_wf_rawPlainLo : (Instr.rawPlainLo 0x80).wf = false := by decide
theorem test_wf_rawPlainHi_low : (Instr.rawPlainHi 0x7F).wf = false := by decide
theorem test_wf_rawPlainHi_high : (Instr.rawPlainHi 0xC0).wf = false := by decide
theorem test_wf_rawEscPrefix : (Instr.rawEscPrefix 0xBF).wf = false := by decide
theorem test_wf_escFramingError_first : (Instr.escFramingError 0xBF 0x12).wf = false := by decide
theorem test_wf_escFramingError_second : (Instr.escFramingError 0xC4 0x80).wf = false := by decide
theorem test_wf_fsmWaitSynOther : (Instr.fsmWaitSynOther 0xAA).wf = false := by decide
theorem test_wf_fsmWaitSrcOther : (Instr.fsmWaitSrcOther 0xAA).wf = false := by decide
theorem test_wf_fsmWaitLenBad : (Instr.fsmWaitLenBad 0x10).wf = false := by decide
theorem test_wf_fsmWaitAckOther :
    (Instr.fsmWaitAckOther 0x00).wf = false ∧ (Instr.fsmWaitAckOther 0xFF).wf = false ∧
    (Instr.fsmWaitAckOther 0xAA).wf = false := by decide
theorem test_wf_fsmWaitRspBad :
    (Instr.fsmWaitRspBad 0x10).wf = false ∧ (Instr.fsmWaitRspBad 0xAA).wf = false := by decide
theorem test_wf_patLiteral : (Instr.patLiteral ['*'] []).wf = false ∧ (Instr.patLiteral ['^', '4'] []).wf = false := by
  decide
theorem test_wf_typeUnsupported : (Instr.typeUnsupported (site 0) ['u', '8']).wf = false := by decide

/-! ### Decoding: words written out from 30_encoding.md -/

/-- Host operations have no bits; their code is the operation (R77, R156). -/
theorem test_decode_host :
    decode (.feed [0xAA, 0x03]) = .ok (.feed [0xAA, 0x03]) ∧ decode .reset = .ok .reset := by decide

/-- R53: `b[7] = 0` plain, `b[7:6] = 10` plain, `b[7:6] = 11` a prefix, at both ends of each range. -/
theorem test_decode_raw :
    decodeTableWord 8 0b00000000 = some (.rawPlainLo 0x00) ∧ decodeTableWord 8 0b01111111 = some (.rawPlainLo 0x7F) ∧
    decodeTableWord 8 0b10000000 = some (.rawPlainHi 0x80) ∧ decodeTableWord 8 0b10111111 = some (.rawPlainHi 0xBF) ∧
    decodeTableWord 8 0b11000000 = some (.rawEscPrefix 0xC0) ∧
    decodeTableWord 8 0b11111111 = some (.rawEscPrefix 0xFF) := by decide

/-- R54: `11 cccc dd | k eeeeeee`; `k = 0` is a framing error whatever the command. -/
theorem test_decode_esc_low :
    decodeTableWord 16 0b1100010000010010 = some (.escFramingError 0xC4 0x12) ∧
    decodeTableWord 16 0b1100011110111110 = some (.escReceived 0b11 0b0111110) ∧
    decodeTableWord 16 0b1100000110000010 = some (.escResetted 0b01 0b0000010) ∧
    decodeTableWord 16 0b1100100010000101 = some (.escStarted 0b00 0b0000101) ∧
    decodeTableWord 16 0b1100110010000001 = some (.escInfo 0b00 0b0000001) ∧
    decodeTableWord 16 0b1101001011000000 = some (.escUnknown4 0b10 0b1000000) ∧
    decodeTableWord 16 0b1101010010000000 = some (.escUnknown5 0b00 0b0000000) ∧
    decodeTableWord 16 0b1101101110000000 = some (.escUnknown6 0b11 0b0000000) := by decide

theorem test_decode_esc_high :
    decodeTableWord 16 0b1101110010000000 = some (.escUnknown7 0b00 0b0000000) ∧
    decodeTableWord 16 0b1110000111111111 = some (.escUnknown8 0b01 0b1111111) ∧
    decodeTableWord 16 0b1110010010000000 = some (.escUnknown9 0b00 0b0000000) ∧
    decodeTableWord 16 0b1110100010000000 = some (.escFailed 0b00 0b0000000) ∧
    decodeTableWord 16 0b1110110010000011 = some (.escErrorEbus 0b00 0b0000011) ∧
    decodeTableWord 16 0b1111000010000000 = some (.escErrorHost 0b00 0b0000000) ∧
    decodeTableWord 16 0b1111010010000000 = some (.escUnknownD 0b00 0b0000000) ∧
    decodeTableWord 16 0b1111100010000001 = some (.escUnknownE 0b00 0b0000001) ∧
    decodeTableWord 16 0b1111111111111111 = some (.escUnknownF 0b11 0b1111111) := by decide

/-- R61: `ssss bbbbbbbb`, WaitSYN to WaitLen. -/
theorem test_decode_fsm_low :
    decodeTableWord 16 0b0000000010101010 = some .fsmWaitSynSyn ∧
    decodeTableWord 16 0b0000000000000011 = some (.fsmWaitSynOther 0x03) ∧
    decodeTableWord 16 0b0000000110101010 = some .fsmWaitSrcSyn ∧
    decodeTableWord 16 0b0000000100000011 = some (.fsmWaitSrcOther 0x03) ∧
    decodeTableWord 16 0b0000001010101010 = some (.fsmWaitDestAny 0xAA) ∧
    decodeTableWord 16 0b0000001100000111 = some (.fsmWaitCmdHiAny 0x07) ∧
    decodeTableWord 16 0b0000010000000001 = some (.fsmWaitCmdLoAny 0x01) ∧
    decodeTableWord 16 0b0000010100001111 = some (.fsmWaitLenOkLo 0xF) ∧
    decodeTableWord 16 0b0000010100010000 = some .fsmWaitLenOk16 ∧
    decodeTableWord 16 0b0000010100010001 = some (.fsmWaitLenBad 0x11) := by decide

/-- R61: WaitData to WaitResponse; state 10 names no row (R17, R66). -/
theorem test_decode_fsm_high :
    decodeTableWord 16 0b0000011000010010 = some (.fsmWaitDataAny 0x12) ∧
    decodeTableWord 16 0b0000011111010010 = some (.fsmWaitCrcAny 0xD2) ∧
    decodeTableWord 16 0b0000100000000000 = some .fsmWaitAckAck ∧
    decodeTableWord 16 0b0000100011111111 = some .fsmWaitAckNack ∧
    decodeTableWord 16 0b0000100010101010 = some .fsmWaitAckSyn ∧
    decodeTableWord 16 0b0000100000000010 = some (.fsmWaitAckOther 0x02) ∧
    decodeTableWord 16 0b0000100110101010 = some .fsmWaitRspSyn ∧
    decodeTableWord 16 0b0000100100000000 = some (.fsmWaitRspOkLo 0x0) ∧
    decodeTableWord 16 0b0000100100010000 = some .fsmWaitRspOk16 ∧
    decodeTableWord 16 0b0000100111111111 = some (.fsmWaitRspBad 0xFF) ∧
    decodeTableWord 16 0b0000101000000000 = none := by decide

/-- R71, R72. -/
theorem test_decode_op :
    decode (.crc8 0x03 0x10) = .ok (.crc8 0x03 0x10) ∧ decode (.checksum [0x02, 0x12]) = .ok (.checksum [0x02, 0x12]) := by
  decide

/-- R116, R120: the four forms by their text. -/
theorem test_decode_pattern :
    decode (.pattern (some ['*']) ['0', '3']) = .ok (.patAny ['0', '3']) ∧
    decode (.pattern (some ['^', '4', 'B']) ['0', '3']) = .ok (.patPrefix ['4', 'B'] ['0', '3']) ∧
    decode (.pattern (some ['4', '*']) ['0', '3']) = .ok (.patLiteral ['4', '*'] ['0', '3']) ∧
    decode (.pattern none ['0', '3']) = .ok (.patAbsent ['0', '3']) := by decide

/-- R65, R125: exact comparison of the type text. -/
theorem test_decode_dataType :
    decode (.dataType ['u', '8'] (site 0) [0x64]) = .ok (.typeU8 (site 0) [0x64]) ∧
    decode (.dataType ['u', '1', '6', 'l', 'e'] (site 0) [0x10, 0]) = .ok (.typeU16le (site 0) [0x10, 0]) ∧
    decode (.dataType ['u', '1', '6', 'b', 'e'] (site 0) [0x10, 0]) = .ok (.typeU16be (site 0) [0x10, 0]) ∧
    decode (.dataType ['U', '8'] (site 0) [0x64]) = .ok (.typeUnsupported (site 0) ['U', '8']) := by decide

/-! ### Host operations, Deframer -/

/-- V145: the chunk joins the queue. -/
theorem test_feed : (nextOf (exec (.feed [0xAA, 0x03]) State.reset)).map State.inQ = some [0xAA, 0x03] := by decide

/-- V146: reset in the middle of a telegram with a prefix pending. -/
theorem test_reset :
    (nextOf (exec .reset { inState 6 with pend := some 0xC7, remaining := 1 })).map
      (fun t => (t.st, t.pend, t.req.src, t.remaining, t.out)) = some (0, none, 0, 0, []) := by decide

/-- V30, then R90: the plain byte SYN reaches the state machine. -/
theorem test_rawPlainHi : (nextOf (exec (.rawPlainHi 0xAA) State.reset)).map State.st = some 1 := by decide

/-- V27: a plain byte below 0x80 reaches the state machine. -/
theorem test_rawPlainLo :
    (nextOf (exec (.rawPlainLo 0x7F) (inState 1))).map (fun t => (t.st, t.req.src)) = some (2, 0x7F) := by decide

/-- V31. -/
theorem test_rawEscPrefix :
    (nextOf (exec (.rawEscPrefix 0xC0) State.reset)).map (fun t => (t.pend, t.out)) = some (some 0xC0, []) := by decide

/-- V33: the event, and 0x12 goes on as a plain byte. -/
theorem test_escFramingError :
    (nextOf (exec (.escFramingError 0xC4 0x12) { inState 1 with pend := some 0xC4 })).map
      (fun t => (t.pend, t.st, t.req.src, t.out)) =
      some (none, 2, 0x12, [.evt (.framingError 0xC4 0x12)]) := by decide

/-- V40: `C7 BE` carries FE. -/
theorem test_escReceived :
    (nextOf (exec (.escReceived 0b11 0b0111110) { inState 1 with pend := some 0xC7 })).map
      (fun t => (t.pend, t.req.src, t.out)) = some (none, 0xFE, []) := by decide

/-- V44, V45, V46: the carry of a second byte with bit 6 set. -/
theorem test_escapeData_carry :
    escapeData 0b00 0b1000000 = 0x40 ∧ escapeData 0b11 0b1000000 = 0x00 ∧ escapeData 0b01 0b1111111 = 0xBF := by decide

/-- V47 to V50, V56: the status rows of commands 0, 2, 3, 4 to 6 raise their event and nothing else. -/
theorem test_status_low :
    (nextOf (exec (.escResetted 0 0x40) State.reset)).map State.out = some [.evt (.adapterStatus 0 0x40 .resetted)] ∧
    (nextOf (exec (.escStarted 0 5) State.reset)).map State.out = some [.evt (.adapterStatus 2 0x05 .started)] ∧
    (nextOf (exec (.escInfo 0 1) State.reset)).map State.out = some [.evt (.adapterStatus 3 0x01 .info)] ∧
    (nextOf (exec (.escUnknown4 0 0) State.reset)).map State.out = some [.evt (.adapterStatus 4 0x00 .unknown)] ∧
    (nextOf (exec (.escUnknown5 0 0) State.reset)).map State.out = some [.evt (.adapterStatus 5 0x00 .unknown)] ∧
    (nextOf (exec (.escUnknown6 0 0) State.reset)).map State.out = some [.evt (.adapterStatus 6 0x00 .unknown)] := by
  decide

/-- V51 to V55: the status rows of commands 7 to 15. -/
theorem test_status_high :
    (nextOf (exec (.escUnknown7 0 0) State.reset)).map State.out = some [.evt (.adapterStatus 7 0x00 .unknown)] ∧
    (nextOf (exec (.escUnknown8 0 0) State.reset)).map State.out = some [.evt (.adapterStatus 8 0x00 .unknown)] ∧
    (nextOf (exec (.escUnknown9 0 0) State.reset)).map State.out = some [.evt (.adapterStatus 9 0x00 .unknown)] ∧
    (nextOf (exec (.escFailed 0 0) State.reset)).map State.out = some [.evt (.adapterStatus 10 0x00 .failed)] ∧
    (nextOf (exec (.escErrorEbus 0 3) State.reset)).map State.out = some [.evt (.adapterStatus 11 0x03 .errorEbus)] ∧
    (nextOf (exec (.escErrorHost 0 0) State.reset)).map State.out = some [.evt (.adapterStatus 12 0x00 .errorHost)] ∧
    (nextOf (exec (.escUnknownD 0 0) State.reset)).map State.out = some [.evt (.adapterStatus 13 0x00 .unknown)] ∧
    (nextOf (exec (.escUnknownE 0 0) State.reset)).map State.out = some [.evt (.adapterStatus 14 0x00 .unknown)] ∧
    (nextOf (exec (.escUnknownF 3 0x7F) State.reset)).map State.out =
      some [.evt (.adapterStatus 15 0x3F .unknown)] := by decide

/-- R137: the codes and classes of the eight events. -/
theorem test_event_codes :
    [Event.framingError 0 0, .adapterStatus 0 0 .info, .lengthViolation .req 0, .checksumMismatch .req 0 0,
      .protocolError 0, .unsupportedFieldType 0 0 [] [], .fieldOutOfRange 0 0 [] 0 0, .matchNoExtract 0 0].map
      (fun e => (e.code, e.isError)) =
      [(1, true), (2, false), (3, true), (4, true), (5, true), (6, true), (7, true), (8, false)] := by decide

/-! ### Telegram State Machine -/

/-- V61, V62. -/
theorem test_synchronise :
    (nextOf (exec .fsmWaitSynSyn (inState 0))).map State.st = some 1 ∧
    (nextOf (exec (.fsmWaitSynOther 0x03) (inState 0))).map State.st = some 0 ∧
    (nextOf (exec .fsmWaitSrcSyn (inState 1))).map State.st = some 1 := by decide

/-- V63, V65: source, destination and command bytes. -/
theorem test_request_head :
    (nextOf (exec (.fsmWaitSrcOther 0x00) (inState 1))).map (fun t => (t.st, t.req.src)) = some (2, 0x00) ∧
    (nextOf (exec (.fsmWaitDestAny 0xAA) (inState 2))).map (fun t => (t.st, t.req.dest, t.gotBroadcast)) =
      some (3, 0xAA, false) ∧
    (nextOf (exec (.fsmWaitCmdHiAny 0x08) (inState 3))).map (fun t => (t.st, t.req.cmdHi)) = some (4, 0x08) ∧
    (nextOf (exec (.fsmWaitCmdLoAny 0x09) (inState 4))).map (fun t => (t.st, t.req.cmdLo)) = some (5, 0x09) := by decide

/-- V64: the destination FE sets `got_broadcast`. -/
theorem test_broadcast_destination :
    (nextOf (exec (.fsmWaitDestAny 0xFE) (inState 2))).map (fun t => (t.st, t.gotBroadcast)) = some (3, true) := by decide

/-- E2, V69, V66: lengths 0, 2 and 16. -/
theorem test_length_ok :
    (nextOf (exec (.fsmWaitLenOkLo 0) (inState 5))).map (fun t => (t.st, t.req.len, t.remaining)) = some (7, 0, 0) ∧
    (nextOf (exec (.fsmWaitLenOkLo 2) (inState 5))).map (fun t => (t.st, t.req.len, t.remaining)) = some (6, 2, 2) ∧
    (nextOf (exec .fsmWaitLenOk16 (inState 5))).map (fun t => (t.st, t.req.len, t.remaining)) = some (6, 16, 16) := by
  decide

/-- V67, V77: length 17 is a violation in either half, and the telegram is cleared. -/
theorem test_length_bad :
    (nextOf (exec (.fsmWaitLenBad 0x11) (inState 5))).map (fun t => (t.st, t.req.src, t.out)) =
      some (0, 0, [.evt (.lengthViolation .req 0x11)]) ∧
    (nextOf (exec (.fsmWaitRspBad 0x11) (afterCrc 9))).map (fun t => (t.st, t.gotResponse, t.out)) =
      some (0, false, [.evt (.lengthViolation .rsp 0x11)]) := by decide

/-- V69: data bytes count down, and the last one leads to WaitCRC. -/
theorem test_data :
    (nextOf (exec (.fsmWaitDataAny 0xAA) { inState 6 with remaining := 2 })).map
      (fun t => (t.st, t.req.payload, t.remaining)) = some (6, [0xAA], 1) ∧
    (nextOf (exec (.fsmWaitDataAny 0x00) { inState 6 with remaining := 1 })).map
      (fun t => (t.st, t.req.payload, t.remaining)) = some (7, [0x00], 0) := by decide

/-- E2, V70: the Request's checksum is D2. -/
theorem test_checksum_request :
    (nextOf (exec (.fsmWaitCrcAny 0xD2) (inState 7))).map (fun t => (t.st, t.req.crc, t.out)) = some (8, 0xD2, []) ∧
    (nextOf (exec (.fsmWaitCrcAny 0xD3) (inState 7))).map (fun t => (t.st, t.req.crc, t.out)) =
      some (0, 0, [.evt (.checksumMismatch .req 0xD2 0xD3)]) := by decide +kernel

/-- E3, V79: the Response's checksum is 87. -/
theorem test_checksum_response :
    (nextOf (exec (.fsmWaitCrcAny 0x87) (withResponse 7))).map (fun t => (t.st, t.rsp.crc, t.out)) = some (8, 0x87, []) ∧
    (nextOf (exec (.fsmWaitCrcAny 0x88) (withResponse 7))).map (fun t => (t.st, t.gotResponse, t.out)) =
      some (0, false, [.evt (.checksumMismatch .rsp 0x87 0x88)]) := by decide +kernel

/-- V75, V76: the ACK of the Request, and of the Response. -/
theorem test_ack :
    (nextOf (exec .fsmWaitAckAck (afterCrc 8))).map (fun t => (t.st, t.ackReceived, t.out)) = some (9, true, []) ∧
    (nextOf (exec .fsmWaitAckAck { withResponse 8 with rsp.crc := 0x87 })).map (fun t => (t.st, t.gotResponse, t.out)) =
      some (0, false,
        [.tel { telE2 with rsp := some { len := 2, payload := [0x12, 0x34], crc := 0x87 } }]) := by decide +kernel

/-- V72, V74: NACK drops in silence, another byte is a protocol error. -/
theorem test_nack_other :
    (nextOf (exec .fsmWaitAckNack (afterCrc 8))).map (fun t => (t.st, t.req.src, t.out)) = some (0, 0, []) ∧
    (nextOf (exec (.fsmWaitAckOther 0x02) (afterCrc 8))).map (fun t => (t.st, t.req.src, t.out)) =
      some (0, 0, [.evt (.protocolError 0x02)]) := by decide

/-- E7, V73: SYN ends a broadcast, and drops another telegram in silence; both lead to WaitSrc. -/
theorem test_ack_syn :
    (nextOf (exec .fsmWaitAckSyn afterBroadcast)).map (fun t => (t.st, t.gotBroadcast, t.out)) =
      some (1, false, [.tel { src := 0x10, dest := 0xFE, cmdHi := 0x07, cmdLo := 0x00, len := 1, payload := [0x05],
                              crc := 0x9A, rsp := none }]) ∧
    (nextOf (exec .fsmWaitAckSyn (afterCrc 8))).map (fun t => (t.st, t.req.src, t.out)) = some (1, 0, []) := by
  decide +kernel

/-- E2: SYN in WaitResponse delivers the telegram. -/
theorem test_response_syn :
    (nextOf (exec .fsmWaitRspSyn (afterCrc 9))).map (fun t => (t.st, t.req.src, t.out)) =
      some (0, 0, [.tel telE2]) := by decide +kernel

/-- E3, V76: Response lengths 2, 0 and 16. -/
theorem test_response_length :
    (nextOf (exec (.fsmWaitRspOkLo 2) (afterCrc 9))).map (fun t => (t.st, t.gotResponse, t.rsp.len, t.remaining)) =
      some (6, true, 2, 2) ∧
    (nextOf (exec (.fsmWaitRspOkLo 0) (afterCrc 9))).map (fun t => (t.st, t.gotResponse, t.rsp.len, t.remaining)) =
      some (7, true, 0, 0) ∧
    (nextOf (exec .fsmWaitRspOk16 (afterCrc 9))).map (fun t => (t.st, t.gotResponse, t.rsp.len, t.remaining)) =
      some (6, true, 16, 16) := by decide

/-! ### CRC8 Engine, Matcher, Extractor -/

/-- V10, V11, V17, V24. -/
theorem test_crc :
    crcStep Config.crcTable 0x03 0x10 = 0x26 ∧ crcStep Config.crcTable 0xFF 0xFF = 0x84 ∧
    crcFold Params.default [0x03, 0x10, 0x07, 0x00, 0x00] = 0xD2 ∧
    crcFold Params.default [0x10, 0, 0, 0, 0, 0, 0, 0, 0, 0, 0, 0, 0, 0, 0, 0, 0] = 0x20 := by decide +kernel

/-- V10, V18 as instructions of their own (log entry 2). -/
theorem test_op_rows :
    (nextOf (exec (.crc8 0x03 0x10) State.reset)).map State.unitOut = some (.crc 0x26) ∧
    (nextOf (exec (.checksum [0x02, 0x12, 0x34]) State.reset)).map State.unitOut = some (.crc 0x87) := by decide +kernel

/-- V91, V93. -/
theorem test_hex : hex2 0xFE = ['F', 'E'] ∧ hexs [0x12, 0x34] = ['1', '2', '3', '4'] := by decide

/-- V95, V99, V100, V102. -/
theorem test_pattern_any_prefix :
    (nextOf (exec (.patAny []) State.reset)).map State.unitOut = some (.accept true) ∧
    (nextOf (exec (.patPrefix ['4', 'B', '0', '1'] ['4', 'B', '0', '1']) State.reset)).map State.unitOut =
      some (.accept true) ∧
    (nextOf (exec (.patPrefix ['4', 'B', '0', '1', 'F', 'F'] ['4', 'B', '0', '1']) State.reset)).map State.unitOut =
      some (.accept false) ∧
    (nextOf (exec (.patPrefix ['4', '*'] ['4', 'B', '0', '1']) State.reset)).map State.unitOut =
      some (.accept false) := by decide

/-- V108, V109, V113, V115, and R120. -/
theorem test_pattern_literal_absent :
    (nextOf (exec (.patLiteral ['4', 'B', '0'] ['4', 'B', '0', '1']) State.reset)).map State.unitOut =
      some (.accept false) ∧
    (nextOf (exec (.patLiteral ['4', '*', '0', '*'] ['4', 'B', '0', 'F']) State.reset)).map State.unitOut =
      some (.accept true) ∧
    (nextOf (exec (.patLiteral ['0', '*'] ['1', '3']) State.reset)).map State.unitOut = some (.accept false) ∧
    (nextOf (exec (.patLiteral ['*', '*'] ['*', 'A']) State.reset)).map State.unitOut = some (.accept true) ∧
    (nextOf (exec (.patAbsent ['4']) State.reset)).map State.unitOut = some (.accept true) := by decide

/-- V119, V121, V122, V127: the four data-type rows. -/
theorem test_types_read :
    (nextOf (exec (.typeU8 (site 0) [0xFF]) State.reset)).map State.unitOut = some (.raw 255) ∧
    (nextOf (exec (.typeU16le (site 1) [1, 2, 3]) State.reset)).map State.unitOut = some (.raw 770) ∧
    (nextOf (exec (.typeU16be (site 1) [1, 2, 3]) State.reset)).map State.unitOut = some (.raw 515) ∧
    (nextOf (exec (.typeUnsupported (site 0) ['U', '8']) State.reset)).map (fun t => (t.unitOut, t.out)) =
      some (.skip, [.evt (.unsupportedFieldType 0 0 ['v'] ['U', '8'])]) := by decide

/-- V123, V124: a field beyond the payload is skipped. -/
theorem test_types_out_of_range :
    (nextOf (exec (.typeU8 (site 1) [0x64]) State.reset)).map (fun t => (t.unitOut, t.out)) =
      some (.skip, [.evt (.fieldOutOfRange 0 0 ['v'] 1 1)]) ∧
    (nextOf (exec (.typeU16le (site 2) [1, 2, 3]) State.reset)).map (fun t => (t.unitOut, t.out)) =
      some (.skip, [.evt (.fieldOutOfRange 0 0 ['v'] 2 3)]) ∧
    (nextOf (exec (.typeU16be (site 2) [1, 2, 3]) State.reset)).map (fun t => (t.unitOut, t.out)) =
      some (.skip, [.evt (.fieldOutOfRange 0 0 ['v'] 2 3)]) := by decide

/-- E9, V129, V131, V132: 0.5, 0.1, -1.0 and 1 as binary64 bits; the results 50.0, 0.30000000000000004, -100.0. -/
theorem test_scale :
    scale .binary64 100 0x3FE0000000000000 = .float 0x4049000000000000 ∧
    scale .binary64 3 0x3FB999999999999A = .float 0x3FD3333333333334 ∧
    scale .binary64 100 0xBFF0000000000000 = .float 0xC059000000000000 ∧
    scale .binary64 16 0x3FF0000000000000 = .int 16 := by decide +kernel

/-- V134: a duplicate name keeps its place and takes the later value. -/
theorem test_extract_duplicate :
    let m : MessageDef := { comment := [], requestMatch := { src := none, dst := none, pbsb := none, data := none },
                            requestMap := some [field ['a'] 0 ['u', '8'] 0x3FF0000000000000,
                              field ['b'] 1 ['u', '8'] 0x3FF0000000000000, field ['a'] 1 ['u', '8'] 0x3FF0000000000000],
                            responseMap := none }
    extract Constants.default 0 0 m { telE2 with len := 2, payload := [1, 2] } =
      [.record { ci := 0, mi := 0, src := .req, fields := [(['a'], .int 2), (['b'], .int 2)] }] := by decide +kernel

/-! ### The step -/

/-- The first instruction after reset: `C4 12` placed as one 16-bit word is a framing error, and its second byte is
ignored in WaitSYN. -/
theorem test_step_esc :
    (nextOf (step (State.reset.withFetchWord 16 0xC412))).map (fun t => (t.st, t.pend, t.inQ, t.out)) =
      some (0, none, [], [.evt (.framingError 0xC4 0x12)]) := by decide

/-- FSM rows placed as their decode word: a logical byte below ESC_MIN, and one above it. -/
theorem test_step_fsm :
    (nextOf (step (State.reset.withFetchWord 16 0x103))).map (fun t => (t.st, t.req.src, t.pend)) =
      some (2, 0x03, none) ∧
    (nextOf (step (State.reset.withFetchWord 16 0x9FF))).map (fun t => (t.st, t.pend, t.out)) =
      some (0, none, [.evt (.lengthViolation .rsp 0xFF)]) := by decide

/-- A reserved state is refused (R17). -/
theorem test_step_reserved : isRefused (step { State.reset with st := 10, inQ := [0xAA] }) = true := by decide

/-! ### Other parameters (R6, I8, I9, I16) -/

/-- A length of 20 is accepted and 21 violates, with `MAX_LEN` 20. -/
theorem test_param_maxLen :
    (nextOf (fsm 0x14 otherConstants)).map (fun t => (t.st, t.req.len, t.remaining)) = some (6, 20, 20) ∧
    (nextOf (fsm 0x15 otherConstants)).map State.out = some [.evt (.lengthViolation .req 0x15)] := by decide

/-- 0xD0 is a plain byte with `ESC_MIN` 0xE0; 0x55 is the SYN; command 15 forwards and command 1 does not. -/
theorem test_param_codes :
    (nextOf (step { otherConstants with st := 1, inQ := [0xD0] })).map (fun t => (t.pend, t.req.src)) =
      some (none, 0xD0) ∧
    (nextOf (step { otherConstants with st := 0, inQ := [0x55] })).map State.st = some 1 ∧
    (nextOf (exec (.escUnknownF 0 0x12) { otherConstants with st := 1 })).map State.req =
      some { Request.cleared with src := 0x12 } ∧
    (nextOf (exec (.escReceived 0 0x12) otherConstants)).map State.out =
      some [.evt (.adapterStatus 1 0x12 .received)] := by decide

/-- A finite queue takes what fits and leaves the rest to the Host (log entry 18). -/
theorem test_param_inQueueCap :
    (nextOf (exec (.feed [0x03, 0x10]) (capped 2))).map (fun t => (t.inQ, t.agenda)) =
      some ([0xAA, 0x03], [.feed [0x10]]) ∧
    (nextOf (step { capped 1 with agenda := [.feed [0x03]] })).map (fun t => (t.st, t.inQ, t.agenda)) =
      some (1, [], [.feed [0x03]]) := by decide

/-! ### Witnesses: the hypotheses of the statements can be met -/

/-- HostResetKeepsTrace, with something already output. -/
theorem witness_HostResetKeepsTrace :
    ∃ t, exec .reset { State.reset with out := [.tel telE2] } = .next t ∧ t.trace = [.tel telE2] := ⟨_, rfl, rfl⟩

/-- PlainBytesGoToStateMachine, FramingErrorResynchronises, ReceivedPairForwardsByte, EveryStepGoesOn: a legal state, at
both ends of the range. -/
theorem witness_Legal : (inState 0).Legal ∧ (afterCrc 9).Legal := by unfold State.Legal; decide

/-- FsmCompletesOrRefusesReserved, StepRunsTheTurn: states that are not legal, at both ends of the range. -/
theorem witness_not_Legal : ¬ (inState 10).Legal ∧ ¬ (inState 15).Legal := by unfold State.Legal; decide

/-- EscapeDataFollowsSourceFormula: both clauses, at the ends of the ranges. -/
theorem witness_EscapeDataFollowsSourceFormula :
    ((0xC0 : Byte) ≤ 0xC0 ∧ (0x80 : Byte) ≤ 0x80 ∧ (0x80 : Byte).getLsbD 6 = false) ∧
    ((0xC0 : Byte) ≤ 0xFF ∧ (0x80 : Byte) ≤ 0xFF ∧ (0xFF : Byte).getLsbD 6 = true) := by decide

/-- AdapterLabelsAreTheTable: the ends of the two ranges. -/
theorem witness_AdapterLabelsAreTheTable :
    ((4 : BitVec 4) ≤ 4 ∧ (4 : BitVec 4) ≤ 9) ∧ ((4 : BitVec 4) ≤ 9 ∧ (9 : BitVec 4) ≤ 9) ∧
    (13 : BitVec 4) ≤ 13 ∧ (13 : BitVec 4) ≤ 15 := by decide

/-- SynchronisationRows: WaitSYN and WaitSrc. -/
theorem witness_SynchronisationRows : (inState 0).st = 0 ∧ (inState 1).st = 1 := ⟨rfl, rfl⟩

/-- DestinationAndCommandRows: BROADCAST, and its two neighbours. -/
theorem witness_DestinationAndCommandRows :
    (0xFE : Byte) = (inState 2).params.broadcast ∧ (0xFD : Byte) ≠ (inState 2).params.broadcast ∧
    (0xFF : Byte) ≠ (inState 2).params.broadcast := by decide

/-- DataRow: bytes remaining (1 and 16), and none. -/
theorem witness_DataRow :
    ({ inState 6 with remaining := 1 } : State).remaining ≠ 0 ∧
    ({ inState 6 with remaining := 16 } : State).remaining ≠ 0 ∧ (inState 6).remaining = 0 := by decide

/-- ChecksumRow: the Request's checksum met and missed. -/
theorem witness_ChecksumRow_request :
    let want := crcFold (inState 7).params
      ([(inState 7).req.src, (inState 7).req.dest, (inState 7).req.cmdHi, (inState 7).req.cmdLo, (inState 7).req.len] ++
        (inState 7).req.payload)
    (inState 7).gotResponse = false ∧ (0xD2 : Byte) = want ∧ (0xD3 : Byte) ≠ want := by decide +kernel

/-- ChecksumRow: the Response's checksum met and missed. -/
theorem witness_ChecksumRow_response :
    let want := crcFold (withResponse 7).params ([(withResponse 7).rsp.len] ++ (withResponse 7).rsp.payload)
    (withResponse 7).gotResponse = true ∧ (0x87 : Byte) = want ∧ (0x88 : Byte) ≠ want := by decide +kernel

/-- AckRow, SynEndsBroadcastOrDrops: each flag both ways. -/
theorem witness_flags :
    (withResponse 8).gotResponse = true ∧ (afterCrc 8).gotResponse = false ∧
    afterBroadcast.gotBroadcast = true ∧ (afterCrc 8).gotBroadcast = false := ⟨rfl, rfl, rfl, rfl⟩

/-- FsmRunsTheSelectedRow: the default constants and a word; each state, and the lengths about `MAX_LEN`. -/
theorem witness_FsmRunsTheSelectedRow :
    ((inState 1).params.toConstants = Constants.default ∧
      decode (.fsm ((inState 1).st ++ (0x03 : Byte))) = .ok (.fsmWaitSrcOther 0x03)) ∧
    ((inState 0).st = 0 ∧ (inState 1).st = 1 ∧ (inState 2).st = 2 ∧ (inState 3).st = 3 ∧ (inState 4).st = 4 ∧
      (inState 5).st = 5 ∧ (inState 6).st = 6 ∧ (inState 7).st = 7 ∧ (inState 8).st = 8 ∧ (inState 9).st = 9) ∧
    (0x10 : Byte).toNat ≤ (inState 5).params.maxLen.toNat ∧ ¬ (0x11 : Byte).toNat ≤ (inState 5).params.maxLen.toNat := by
  decide

/-- FeedAppendsChunk, StepRunsTheTurn: an unbounded queue; a finite one with just room, and with one byte too few. -/
theorem witness_FeedAppendsChunk :
    (∀ cap, State.reset.params.inQueueCap = some cap → State.reset.inQ.length + [(1 : Byte)].length ≤ cap) ∧
    (∀ cap, (capped 2).params.inQueueCap = some cap → (capped 2).inQ.length + [(1 : Byte)].length ≤ cap) ∧
    (capped 2).params.inQueueCap = some 2 ∧
    2 < (capped 2).inQ.length + [(1 : Byte), 2].length :=
  ⟨fun _ h => (nomatch h), fun cap h => by obtain rfl : 2 = cap := Option.some.inj h; decide, rfl, by decide⟩

/-- ReceivedPairForwardsByte, StatusPairsAreNeverForwarded: the default `CMD_RECEIVED` and another. -/
theorem witness_pair_commands :
    ((1 : BitVec 4) = (inState 1).params.cmdReceived ∧ (inState 1).Legal) ∧
    (0 : BitVec 4) ≠ (inState 1).params.cmdReceived ∧ (15 : BitVec 4) ≠ (inState 1).params.cmdReceived ∧
    ((15 : BitVec 4) = otherConstants.params.cmdReceived ∧ otherConstants.Legal) ∧
    (1 : BitVec 4) ≠ otherConstants.params.cmdReceived := by
  unfold State.Legal; decide

/-- TransitionFrame: a transition that outputs. -/
theorem witness_TransitionFrame : ∃ t, fsm 0x11 (inState 5) = .next t ∧ t.out ≠ [] := ⟨_, rfl, by decide⟩

/-- TelegramOnlyFromThreeRules: R109, for a telegram equal to one already output. -/
theorem witness_TelegramOnlyFromThreeRules_rsp_syn :
    let s : State := { afterCrc 9 with out := [.tel telE2] }
    ∃ t, fsm 0xAA s = .next t ∧ t.out = s.out ++ [.tel telE2] ∧ Item.tel telE2 ∈ [Item.tel telE2] :=
  ⟨_, rfl, by decide +kernel, by decide⟩

/-- TelegramOnlyFromThreeRules: R106. -/
theorem witness_TelegramOnlyFromThreeRules_ack_syn :
    ∃ t, fsm 0xAA afterBroadcast = .next t ∧ t.out = afterBroadcast.out ++ [.tel afterBroadcast.held] :=
  ⟨_, rfl, by decide +kernel⟩

/-- TelegramOnlyFromThreeRules: R103. -/
theorem witness_TelegramOnlyFromThreeRules_ack :
    ∃ t, fsm 0x00 (withResponse 8) = .next t ∧ t.out = (withResponse 8).out ++ [.tel (withResponse 8).held] :=
  ⟨_, rfl, by decide +kernel⟩

/-- SingleByteChangesChecksum. -/
theorem witness_SingleByteChangesChecksum : Params.default.crcTable = Config.crcTable ∧ (0x03 : Byte) ≠ 0x02 :=
  ⟨rfl, by decide⟩

/-- AcceptsRunsTheDecodedForm, EncodeOfDecode: a pattern, an unsupported and a supported data type. -/
theorem witness_text_decodes :
    decode (.pattern (some ['4', '*', '0', '1']) ['4', 'F', '0', '1']) =
      .ok (.patLiteral ['4', '*', '0', '1'] ['4', 'F', '0', '1']) ∧
    (decode (.dataType ['s', '8'] (site 9) [0x64]) = .ok (.typeUnsupported (site 9) ['s', '8']) ∧
      isSupportedType ['s', '8'] = false) ∧
    decode (.dataType ['u', '8'] (site 9) [0x64]) = .ok (.typeU8 (site 9) [0x64]) ∧
    isSupportedType ['u', '8'] = true := by decide

/-- HexRenderingIsFaithful. -/
theorem witness_HexRenderingIsFaithful : hexs [0x12, 0x34] = hexs [0x12, 0x34] := rfl

/-- DefinitionMatchesOnTheRequest: two different telegrams with one Request. -/
theorem witness_DefinitionMatchesOnTheRequest :
    ({ telE2 with rsp := some Response.cleared } : Tel).toRequest = telE2.toRequest ∧
    ({ telE2 with rsp := some Response.cleared } : Tel) ≠ telE2 := by decide

/-- SupportedFieldsReadOrSkip: the last offset inside, and the first outside, for each width. -/
theorem witness_SupportedFieldsReadOrSkip :
    (site 2).offset + 1 ≤ [(1 : Byte), 2, 3].length ∧ (site 1).offset + 2 ≤ [(1 : Byte), 2, 3].length ∧
    [(1 : Byte), 2, 3].length < (site 3).offset + 1 ∧ [(1 : Byte), 2, 3].length < (site 2).offset + 2 := by decide

/-- PutReplacesInPlaceOrAppends: a name there, a name not there, another name, distinct names. -/
theorem witness_PutReplacesInPlaceOrAppends :
    let fields : List (Text × Value) := [(['a'], .int 1), (['b'], .int 2)]
    ['a'] ∈ fields.map Prod.fst ∧ ['c'] ∉ fields.map Prod.fst ∧ (['b'] : Text) ≠ ['a'] ∧
    (fields.map Prod.fst).Nodup := by decide

/-- FieldMapSelection: a Response map with a Response; a Request map without; none. -/
theorem witness_FieldMapSelection :
    let m : MessageDef := { comment := [], requestMatch := { src := none, dst := none, pbsb := none, data := none },
                            requestMap := some [], responseMap := some [] }
    (m.responseMap = some [] ∧ ({ telE2 with rsp := some Response.cleared } : Tel).rsp = some Response.cleared) ∧
    (telE2.rsp = none ∧ m.requestMap = some []) ∧
    (({ m with responseMap := none } : MessageDef).responseMap = none ∧
      ({ m with requestMap := none } : MessageDef).requestMap = none) := by decide

/-- ExtractionOutputs: a definition with no map, and one with a map. -/
theorem witness_ExtractionOutputs :
    let m : MessageDef := { comment := [], requestMatch := { src := none, dst := none, pbsb := none, data := none },
                            requestMap := none, responseMap := none }
    selectMap m telE2 = none ∧
    selectMap { m with requestMap := some [field ['v'] 0 ['u', '8'] 0x3FE0000000000000] } telE2 =
      some (.req, [field ['v'] 0 ['u', '8'] 0x3FE0000000000000], []) := by decide

/-- FactorOneKeepsIntegers: 1.0, and the next binary64 above it. -/
theorem witness_FactorOneKeepsIntegers :
    Config.floatOne = 0x3FF0000000000000 ∧ (0x3FF0000000000001 : F64) ≠ 0x3FF0000000000000 := by decide

/-- FloatProductIsNearest: 3 times 0.1 and another finite value, and the smallest subnormal times 1. -/
theorem witness_FloatProductIsNearest :
    (floatIsFinite 0x3FB999999999999A = true ∧ floatIsFinite (floatMulNat 3 0x3FB999999999999A) = true ∧
      floatIsFinite 0x3FD3333333333333 = true) ∧
    floatIsFinite 0x0000000000000001 = true ∧ floatIsFinite (floatMulNat 1 0x0000000000000001) = true := by
  decide +kernel

/-- FloatProductIsNearest: a genuine tie. 3 times `1 + 2^-52` is `3 + 1.5 * 2^-51`, half way between two neighbours; the
result is the even one. -/
theorem witness_FloatProductIsNearest_tie :
    floatMulNat 3 0x3FF0000000000001 = 0x4008000000000002 ∧
    |floatValue 0x4008000000000002 - 3 * floatValue 0x3FF0000000000001| =
      |floatValue 0x4008000000000001 - 3 * floatValue 0x3FF0000000000001| ∧
    floatValue 0x4008000000000002 ≠ floatValue 0x4008000000000001 ∧ floatSig 0x4008000000000002 % 2 = 0 := by
  decide +kernel

/-- FloatProductOverflow: the largest finite value times 1 stays finite, times 2 overflows. -/
theorem witness_FloatProductOverflow :
    floatIsFinite 0x7FEFFFFFFFFFFFFF = true ∧ floatIsFinite (floatMulNat 1 0x7FEFFFFFFFFFFFFF) = true ∧
    floatIsFinite (floatMulNat 2 0x7FEFFFFFFFFFFFFF) = false := by decide +kernel

/-- FloatSpecialFactors: a NaN, and an infinity with a raw value that is and is not 0. -/
theorem witness_FloatSpecialFactors :
    floatIsNan 0x7FF8000000000000 = true ∧ floatIsInf 0xFFF0000000000000 = true ∧ (1 : BitVec 16) ≠ 0 := by decide

/-- DecodeOfEncode, EncodeOfDecode: a well-formed instruction, and its code, which is no data-type code. -/
theorem witness_DecodeOfEncode :
    (Instr.escReceived 3 0x3E).wf = true ∧ decode (.esc 0xC7BE) = .ok (.escReceived 3 0x3E) ∧
    ∀ ty s pay, Code.esc 0xC7BE = .dataType ty s pay → isSupportedType ty = true :=
  ⟨rfl, by decide, by intro _ _ _ h; cases h⟩

/-- StepRunsTheTurn: each turn, with the queue empty and not; a feed not held back, and one that is. -/
theorem witness_StepRunsTheTurn :
    ({ State.reset with agenda := [.feed [0xAA], .core] } : State).agenda = .feed [0xAA] :: [.core] ∧
    ({ State.reset with agenda := [.reset] } : State).agenda = .reset :: [] ∧
    ({ State.reset with agenda := [.core] } : State).agenda = .core :: [] ∧
    (State.reset.agenda = [] ∧ State.reset.inQ = []) ∧
    ({ inState 1 with inQ := [0x03, 0x10] } : State).inQ = 0x03 :: [0x10] ∧
    decodeStream (inState 1).params.toConstants (inState 1).pend 0x03 = .rawPlainLo 0x03 ∧
    State.reset.holdsBack [0xAA] = false ∧ (capped 1).holdsBack [0xAA] = true := by decide

/-- The Core's turn in each of its three ways: no turn scheduled, the Core's next, a feed held back. -/
theorem witness_CoreTurn :
    State.reset.CoreTurn [] ∧
    ({ State.reset with agenda := [.core, .reset] } : State).CoreTurn [.reset] ∧
    ({ capped 1 with agenda := [.feed [0x03]] } : State).CoreTurn [.feed [0x03]] :=
  ⟨.inl ⟨rfl, rfl⟩, .inr (.inl rfl), .inr (.inr ⟨[0x03], [], rfl, by decide, rfl⟩)⟩

/-- CoreStepFollowsPseudocode, CoreStepOutputOrder: a status event alone. -/
theorem witness_CoreStep_status :
    let s : State := { inState 1 with pend := some 0xC8, inQ := [0x85], agenda := [.core, .feed [0xAA]] }
    s.CoreTurn [.feed [0xAA]] ∧ s.inQ = 0x85 :: [] ∧ s.Legal ∧
      ∃ t, step s = .next t ∧ t.out = [.evt (.adapterStatus 2 0x05 .started)] :=
  ⟨.inr (.inl rfl), rfl, by unfold State.Legal; decide, _, rfl, by decide⟩

/-- CoreStepFollowsPseudocode, CoreStepOutputOrder: a framing error, then the length violation of its second byte. -/
theorem witness_CoreStep_framing :
    let s : State := { inState 5 with pend := some 0xC4, inQ := [0x12] }
    s.CoreTurn [] ∧ s.inQ = 0x12 :: [] ∧ s.Legal ∧
      ∃ t, step s = .next t ∧ t.out = [.evt (.framingError 0xC4 0x12), .evt (.lengthViolation .req 0x12)] :=
  ⟨.inl ⟨rfl, rfl⟩, rfl, by unfold State.Legal; decide, _, rfl, by decide⟩

/-- CoreStepFollowsPseudocode, CoreStepOutputOrder: a plain byte that completes a telegram. -/
theorem witness_CoreStep_plain :
    let s : State := { afterCrc 9 with inQ := [0xAA] }
    s.CoreTurn [] ∧ s.inQ = 0xAA :: [] ∧ s.Legal ∧ ∃ t, step s = .next t ∧ t.out = [.tel telE2] :=
  ⟨.inl ⟨rfl, rfl⟩, rfl, by unfold State.Legal; decide, _, rfl, by decide +kernel⟩

/-- ParametersAreNeverWritten, StepsOnlyAppendToTheTrace, AckReceivedIsUnobservable: an instruction and a step that
answer a next state, where the step outputs. -/
theorem witness_next :
    (∃ t, exec .fsmWaitRspSyn (afterCrc 9) = .next t) ∧
    ∃ t, step { afterCrc 9 with inQ := [0xAA], ackReceived := true } = .next t ∧ t.trace = [.tel telE2] :=
  ⟨⟨_, rfl⟩, _, rfl, by decide +kernel⟩

/-- A state in the middle of a telegram, with a prefix pending and a telegram already output. -/
def midTelegram : State := { inState 7 with pend := some 0xC7, inQ := [0x92], out := [.tel telE2] }

/-- The telegram of vector E2 is valid. -/
theorem test_telE2_valid : telE2.Valid Params.default :=
  ⟨⟨rfl, by decide +kernel⟩, by decide, fun r h => by cases h⟩

/-- StepKeepsInvariant: `midTelegram` meets the invariant, and its step checks the checksum. -/
theorem witness_StepKeepsInvariant : midTelegram.Inv ∧ ∃ t, step midTelegram = .next t ∧ t.st = 8 := by
  refine ⟨⟨⟨?_, ?_, ?_, ?_, ?_, ?_, ?_, ?_, ?_⟩, ?_, ?_, ?_, ?_, ?_, ?_⟩, _, rfl, by decide +kernel⟩
  · unfold State.Legal; decide
  · exact fun h => absurd h (by decide)
  · decide
  · exact fun h => absurd h (by decide)
  · exact fun h => absurd h (by decide)
  · exact fun h => absurd h (by decide)
  · decide
  · decide
  · intro b h
    obtain rfl : 0xC7 = b := Option.some.inj h
    decide
  · exact fun _ => rfl
  · exact fun _ => rfl
  · exact fun _ => rfl
  · exact fun h => absurd h (by decide)
  · exact fun h => absurd h (by decide)
  · intro t h
    obtain rfl : t = telE2 := by simpa [midTelegram, State.reset, State.construct, inState] using h
    exact test_telE2_valid

/-- The bytes of vector E2 under a schedule of two chunks. -/
def scheduleE2 : State :=
  { State.construct Params.default with
    agenda := [.feed [0xAA, 0x03, 0x10, 0x07], .core, .feed [0x00, 0x00, 0xC7, 0x92, 0x00, 0xAA]] }

/-- A run of one step more begins with a step. -/
theorem run_succ {M : Host.Core} {k : Nat} {s t : M.State} (h : M.run (k + 1) s = .next t) :
    ∃ u, M.step s = .next u ∧ M.run k u = .next t := by
  rw [Host.Core.run] at h
  split at h
  · next u hs => exact ⟨u, hs, h⟩
  · cases h
  · cases h

/-- A run from a reachable state ends in a reachable state. -/
theorem reachable_of_run : ∀ (k : Nat) {s t : State}, Reachable s → Sys2Proof.core.run k s = .next t → Reachable t
  | 0, _, _, h, e => by cases e; exact h
  | k + 1, _, _, h, e => by
    obtain ⟨u, hs, hu⟩ := run_succ e
    exact reachable_of_run k (Reachable.step h hs) hu

/-- ReachableStatesMeetTheListedItems, DeliveredTelegramsAreValid: a reachable state that has output the telegram of
vector E2 (two feeds and ten Core steps). -/
theorem witness_Reachable : ∃ t, Reachable t ∧ t.trace = [.tel telE2] :=
  ⟨_, reachable_of_run 12 (Reachable.construct Params.default _) (s := scheduleE2) rfl, by decide +kernel⟩

/-- ChunkingInvariance: the schedule of `scheduleE2`, with a byte already in the queue, and bounds met exactly. -/
theorem witness_ChunkingInvariance :
    let s : State := { State.reset with inQ := [0x55] }
    s.Legal ∧ s.params.inQueueCap ≠ some 0 ∧ Turn.reset ∉ scheduleE2.agenda ∧
    scheduleE2.agenda.length + s.inQ.length + 2 * (agendaBytes scheduleE2.agenda).length ≤ 24 ∧
    1 + s.inQ.length + 2 * (agendaBytes scheduleE2.agenda).length ≤ 22 :=
  ⟨by unfold State.Legal; decide, by decide, by decide, by decide, by decide⟩

end Sys2Proof.Tests
end

