-- ==== Sys2Proof/Proofs/Turn.lean ====
section
/-! PROOFS. The step by turn: whose turn it is decides what a step runs (O49). -/

namespace Sys2Proof.Proofs
open Sys2Proof Sys2Proof.Machine

/-! ### Legal states -/

theorem legal_iff_ofCode_ne_none (s : State) : s.Legal ↔ FsmState.ofCode s.st ≠ none := by
  rw [State.Legal, Ne, FsmState.ofCode_eq_none_iff]; omega

theorem not_legal_iff_ofCode_eq_none (s : State) : ¬ s.Legal ↔ FsmState.ofCode s.st = none := by
  rw [legal_iff_ofCode_ne_none, not_not]

/-! ### The Host's operations -/

theorem exec_feed (bytes : List Byte) (s : State) : exec (.feed bytes) s = execFeed bytes s := rfl

theorem roomFor_of_cap {s : State} {cap : Nat} (h : s.params.inQueueCap = some cap) (bytes : List Byte) :
    s.roomFor bytes = min bytes.length (cap - s.inQ.length) := by
  simp [State.roomFor, h]

/-- A feed cuts its chunk where the queue's room ends, and no byte is dropped (R77, log entry 18). -/
theorem execFeed_splits (bytes : List Byte) (s : State) :
    ∃ taken left, bytes = taken ++ left ∧ taken.length = s.roomFor bytes ∧
      execFeed bytes s = .next { s with
        inQ := s.inQ ++ taken, agenda := if left = [] then s.agenda else .feed left :: s.agenda } := by
  refine ⟨bytes.take (s.roomFor bytes), bytes.drop (s.roomFor bytes), (List.take_append_drop _ _).symm,
    List.length_take_of_le (s.roomFor_le bytes), ?_⟩
  have rest_iff : s.roomFor bytes < bytes.length ↔ ¬ bytes.drop (s.roomFor bytes) = [] := by
    rw [List.drop_eq_nil_iff, not_le]
  simp only [execFeed, rest_iff, ite_not]

theorem step_feed {s : State} {bytes : List Byte} {rest : List Turn} (h : s.agenda = .feed bytes :: rest)
    (hb : s.holdsBack bytes = false) : step s = exec (.feed bytes) { s with agenda := rest } := by
  rw [step, fetch_agenda_feed s h hb]

theorem step_reset {s : State} {rest : List Turn} (h : s.agenda = .reset :: rest) :
    step s = exec .reset { s with agenda := rest } := by
  rw [step, fetch_agenda_reset s h]

/-! ### The Core's turn -/

section CoreTurn
variable {s : State} {rest : List Turn} {b : Byte} {q : List Byte}

/-- R86, log entry 11. -/
theorem step_coreTurn_nil (ht : s.CoreTurn rest) (hq : s.inQ = []) : step s = .next { s with agenda := rest } := by
  rw [step, fetch_coreTurn ht, fetchCore_nil { s with agenda := rest } hq]

/-- R78: the head byte leaves the queue, and the symbol it forms with the pending prefix is run. -/
theorem step_coreTurn_cons (ht : s.CoreTurn rest) (hq : s.inQ = b :: q) (hl : s.Legal) :
    step s = exec (decodeStream s.params.toConstants s.pend b) { s with agenda := rest, inQ := q } := by
  rw [step, fetch_coreTurn ht,
    fetchCore_cons { s with agenda := rest } hq ((legal_iff_ofCode_ne_none s).1 hl)]

/-- R17: a reserved state has no step. -/
theorem step_coreTurn_reserved (ht : s.CoreTurn rest) (hq : s.inQ = b :: q) (hl : ¬ s.Legal) :
    step s = .refused (.reservedFsmState s.st) := by
  rw [step, fetch_coreTurn ht,
    fetchCore_reserved { s with agenda := rest } hq ((not_legal_iff_ofCode_eq_none s).1 hl)]

end CoreTurn

/-! ### The statement -/

/-- Settles O49, turn by turn. -/
theorem stepRunsTheTurn : Obligations.StepRunsTheTurn := by
  intro s rest
  refine ⟨?feed, ?unbounded, ?finite, ?reset, ?coreNext, ?noTurn, ?coreTurn⟩
  case feed => exact fun _ h hb => step_feed h hb
  case unbounded => exact fun h bytes => s.holdsBack_unbounded bytes h
  case finite =>
    intro bytes cap hcap _
    rw [exec_feed, ← roomFor_of_cap hcap bytes]
    exact execFeed_splits bytes s
  case reset => exact step_reset
  case coreNext => exact fun h => .inr (.inl h)
  case noTurn => exact fun h => .inl ⟨h, rfl⟩
  case coreTurn =>
    intro ht
    refine ⟨step_coreTurn_nil ht, ?_, fun _ _ hq hl => step_coreTurn_reserved ht hq hl⟩
    rintro b q _ hq hl rfl
    exact step_coreTurn_cons ht hq hl

end Sys2Proof.Proofs
end

