-- ==== Sys2Proof/Proofs/Reset.lean ====
section
/-! PROOFS. Construction and the Host's reset: the reset values (O2) and the trace across a reset (O4). -/

namespace Sys2Proof.Proofs
open Sys2Proof Sys2Proof.Machine

/-- Settles O2: each register of R36 by the definition of construction. -/
theorem constructionGivesResetValues : Obligations.ConstructionGivesResetValues :=
  fun _ => ⟨rfl, rfl, rfl, rfl, rfl, rfl, rfl, rfl, rfl, rfl, rfl⟩

/-- What the Host's reset answers (R156, log entry 6). -/
theorem execReset_eq_next {s t : State} (h : execReset s = .next t) :
    t = { State.construct s.params with outBeforeReset := s.trace, agenda := s.agenda } :=
  (Host.Outcome.next.inj h).symm

/-- A reset moves what was output behind it and outputs nothing. -/
theorem execReset_trace {s t : State} (h : execReset s = .next t) : t.trace = s.trace := by
  obtain rfl := execReset_eq_next h
  exact List.append_nil _

/-- Settles O4, from the one state a reset answers. -/
theorem hostResetKeepsTrace : Obligations.HostResetKeepsTrace := by
  intro s t h
  refine ⟨execReset_trace h, ?_⟩
  obtain rfl := execReset_eq_next h
  exact ⟨rfl, rfl⟩

end Sys2Proof.Proofs
end

