-- ==== Sys2Proof/Proofs/Transition.lean ====
section
/-! PROOFS. One transition of the state machine: it completes in a legal state (O24), and it leaves everything but the
telegram state and the state register alone, only appending to the output (O54). -/

namespace Sys2Proof.Proofs
open Sys2Proof Sys2Proof.Machine

/-! ### Completion -/

/-- The result is a next state, and a legal one. -/
def CompletesLegal (r : Result) : Prop := ∃ t, r = .next t ∧ t.Legal

/-- Every row ends by writing one of the ten states. -/
theorem goto_completesLegal (s : State) (q : FsmState) : CompletesLegal (.next (s.goto q)) :=
  ⟨_, rfl, q.code_le⟩

theorem CompletesLegal.ite {c : Prop} [Decidable c] {r r' : Result} (h : CompletesLegal r) (h' : CompletesLegal r') :
    CompletesLegal (if c then r else r') := by
  split
  · exact h
  · exact h'

theorem takeChecksum_completesLegal (b : Byte) (s : State) : CompletesLegal (.next (s.takeChecksum b)) := by
  rcases s.takeChecksum_cases b with ⟨-, h⟩ | ⟨-, h⟩
  · rw [h]; exact goto_completesLegal _ _
  · rw [h]; exact goto_completesLegal _ _

/-- R87: in each of the ten states some row's guard holds, and the row goes to one of them. -/
theorem fsm_completesLegal (b : Byte) {s : State} (h : s.Legal) : CompletesLegal (fsm b s) := by
  obtain ⟨q, hq⟩ := Option.ne_none_iff_exists'.mp ((legal_iff_ofCode_ne_none s).1 h)
  rw [fsm_of_ofCode b s hq]
  cases q with
  | waitSyn => exact .ite (goto_completesLegal _ _) (goto_completesLegal _ _)
  | waitSrc => exact .ite (goto_completesLegal _ _) (goto_completesLegal _ _)
  | waitDest => exact goto_completesLegal _ _
  | waitCmdHi => exact goto_completesLegal _ _
  | waitCmdLo => exact goto_completesLegal _ _
  | waitLen => exact .ite (goto_completesLegal _ _) (goto_completesLegal _ _)
  | waitData => exact .ite (takeChecksum_completesLegal b s) (goto_completesLegal _ _)
  | waitCrc => exact takeChecksum_completesLegal b s
  | waitAck =>
    exact .ite (.ite (goto_completesLegal _ _) (goto_completesLegal _ _))
      (.ite (goto_completesLegal _ _)
        (.ite (.ite (goto_completesLegal _ _) (goto_completesLegal _ _)) (goto_completesLegal _ _)))
  | waitResponse => exact .ite (goto_completesLegal _ _) (.ite (goto_completesLegal _ _) (goto_completesLegal _ _))

/-- Settles O24: the ten states have a row for every byte, the other encodings have none. -/
theorem fsmCompletesOrRefusesReserved : Obligations.FsmCompletesOrRefusesReserved :=
  fun b s => ⟨fsm_completesLegal b, fun h => fsm_of_none b s ((not_legal_iff_ofCode_eq_none s).1 h)⟩

/-! ### Frame -/

/-- From `s` to `t` only the telegram state and the state register may differ, and items may have been output. -/
structure TransitionKeeps (s t : State) : Prop where
  inQ : t.inQ = s.inQ
  pend : t.pend = s.pend
  params : t.params = s.params
  agenda : t.agenda = s.agenda
  unitOut : t.unitOut = s.unitOut
  outBeforeReset : t.outBeforeReset = s.outBeforeReset
  out : s.out <+: t.out

theorem acceptLength_keeps (b : Byte) (s : State) : TransitionKeeps s (s.acceptLength b) := by
  constructor <;> simp

theorem noteResponse_acceptLength_keeps (b : Byte) (s : State) : TransitionKeeps s (s.noteResponse.acceptLength b) := by
  constructor <;> simp

theorem takeData_keeps (b : Byte) (s : State) : TransitionKeeps s (s.takeData b) := by
  constructor <;> simp

theorem takeChecksum_keeps (b : Byte) (s : State) : TransitionKeeps s (s.takeChecksum b) := by
  rcases s.takeChecksum_cases b with ⟨-, h⟩ | ⟨-, h⟩
  · rw [h]; constructor <;> simp
  · rw [h]; constructor <;> simp

theorem emit_keeps (q : FsmState) (s : State) : TransitionKeeps s (s.emit q) := by
  constructor <;> simp

/-- A drop keeps what it is applied to, and so does a drop after an event. -/
theorem raise_dropTelegram_keeps (e : Event) (q : FsmState) (s : State) :
    TransitionKeeps s ((s.raise e).dropTelegram q) := by
  constructor <;> simp

/-- An update of the telegram state and the state register alone. -/
theorem telegramUpdate_keeps (s : State) (st : BitVec 4) (req : Request) (rsp : Response) (remaining : BitVec 5)
    (gotResponse gotBroadcast ackReceived : Bool) :
    TransitionKeeps s { s with st, req, rsp, remaining, gotResponse, gotBroadcast, ackReceived } :=
  ⟨rfl, rfl, rfl, rfl, rfl, rfl, List.prefix_rfl⟩

/-- R88, R136, R148: the frame of every transition. -/
theorem fsm_keeps {b : Byte} {s t : State} (h : fsm b s = .next t) : TransitionKeeps s t := by
  rcases fsm_cases h with
    ⟨-, -, rfl⟩ | ⟨-, -, rfl⟩ | ⟨-, -, rfl⟩ | ⟨-, -, rfl⟩ | ⟨-, rfl⟩ | ⟨-, rfl⟩ | ⟨-, rfl⟩ |
    ⟨-, -, rfl⟩ | ⟨-, -, rfl⟩ | ⟨-, -, rfl⟩ | ⟨-, -, rfl⟩ | ⟨-, rfl⟩ |
    ⟨-, -, -, rfl⟩ | ⟨-, -, -, rfl⟩ | ⟨-, -, rfl⟩ | ⟨-, -, -, rfl⟩ | ⟨-, -, -, rfl⟩ | ⟨-, -, rfl⟩ |
    ⟨-, -, rfl⟩ | ⟨-, -, rfl⟩ | ⟨-, -, -, rfl⟩
  -- WaitSYN to WaitCmdLo
  · exact telegramUpdate_keeps ..
  · exact telegramUpdate_keeps ..
  · exact telegramUpdate_keeps ..
  · exact telegramUpdate_keeps ..
  · exact telegramUpdate_keeps ..
  · exact telegramUpdate_keeps ..
  · exact telegramUpdate_keeps ..
  -- WaitLen to WaitCRC
  · exact acceptLength_keeps b s
  · exact raise_dropTelegram_keeps _ _ s
  · exact takeData_keeps b s
  · exact takeChecksum_keeps b s
  · exact takeChecksum_keeps b s
  -- WaitAck
  · exact emit_keeps _ s
  · exact telegramUpdate_keeps ..
  · exact telegramUpdate_keeps ..
  · exact emit_keeps _ s
  · exact telegramUpdate_keeps ..
  · exact raise_dropTelegram_keeps _ _ s
  -- WaitResponse
  · exact emit_keeps _ s
  · exact noteResponse_acceptLength_keeps b s
  · exact raise_dropTelegram_keeps _ _ s

/-! ### The trace -/

theorem TransitionKeeps.trace_prefix {s t : State} (h : TransitionKeeps s t) : s.trace <+: t.trace := by
  rw [State.trace, State.trace, h.outBeforeReset]
  exact (List.prefix_append_right_inj _).2 h.out

theorem fsm_trace_prefix {b : Byte} {s t : State} (h : fsm b s = .next t) : s.trace <+: t.trace :=
  (fsm_keeps h).trace_prefix

theorem raise_trace_prefix (e : Event) (s : State) : s.trace <+: (s.raise e).trace :=
  (List.prefix_append_right_inj _).2 (List.prefix_append ..)

/-- R78: whatever symbol the Core takes, it only appends. -/
theorem exec_decodeStream_trace_prefix {p : Option Byte} {b : Byte} {s t : State}
    (h : exec (decodeStream s.params.toConstants p b) s = .next t) : s.trace <+: t.trace := by
  rcases exec_decodeStream p b s with ⟨-, -, e⟩ | ⟨-, -, e⟩ | ⟨b1, -, -, e⟩ | ⟨b1, -, -, -, e⟩ | ⟨b1, -, -, -, e⟩
  · exact fsm_trace_prefix (e ▸ h)
  · cases e ▸ h; exact List.prefix_rfl
  · exact (raise_trace_prefix (.framingError b1 b) s).trans (fsm_trace_prefix (s := (s.raise _).setPend none) (e ▸ h))
  · exact fsm_trace_prefix (s := s.setPend none) (e ▸ h)
  · cases e ▸ h; exact raise_trace_prefix _ s

/-- Settles O54, by what the step ran: only a reset and the Core's symbol touch the output. -/
theorem stepsOnlyAppendToTheTrace : Obligations.StepsOnlyAppendToTheTrace := by
  intro s t h
  suffices hp : s.trace <+: t.trace from hp.imp fun _ => Eq.symm
  rcases step_cases h with ⟨bytes, rest, -, -, hf⟩ | ⟨rest, -, hr⟩ | ⟨rest, -, -, rfl⟩ | ⟨rest, b, q, -, -, -, he⟩
  case inl => cases hf; exact List.prefix_rfl
  case inr.inl => rw [execReset_trace hr]; exact List.prefix_rfl
  case inr.inr.inl => exact List.prefix_rfl
  case inr.inr.inr =>
    exact exec_decodeStream_trace_prefix (s := { s with agenda := rest, inQ := q }) he

end Sys2Proof.Proofs
end

