-- ==== Sys2Proof/Proofs/Invariant.lean ====
section
/-! PROOFS. The invariant of R35: a reachable telegram is in one of four phases, each of which implies the invariant
(between telegrams, in the head of a Request, in the body of a Request, in a Response); every transition goes from a
state that meets the invariant to one of the phases (O55, O56, O57). -/

namespace Sys2Proof.Proofs
open Sys2Proof Sys2Proof.Machine

/-! ### Arithmetic of the length byte and the countdown -/

theorem le_maxLenByte_iff (c : Constants) (b : Byte) : b ≤ c.maxLenByte ↔ b.toNat ≤ c.maxLen.toNat := by
  simp only [BitVec.le_def, Constants.maxLenByte, BitVec.toNat_setWidth]
  have := c.maxLen.isLt
  rw [Nat.mod_eq_of_lt (by omega)]

/-- A length that `MAX_LEN` allows fits the five bits of `remaining`. -/
theorem toNat_setWidth_of_le_maxLen {n : BitVec 5} {b : Byte} (h : b.toNat ≤ n.toNat) :
    (b.setWidth 5).toNat = b.toNat := by
  rw [BitVec.toNat_setWidth, Nat.mod_eq_of_lt (h.trans_lt n.isLt)]

theorem toNat_sub_one {r : BitVec 5} (h : 1 ≤ r.toNat) : (r - 1).toNat = r.toNat - 1 := by
  bv_omega

/-! ### The state after a length or data byte: WaitCRC when nothing remains, else WaitData -/

section AfterLast
variable {p : Prop} [Decidable p]

theorem afterLast_le : 6 ≤ (if p then FsmState.waitCrc else .waitData).code.toNat ∧
    (if p then FsmState.waitCrc else .waitData).code.toNat ≤ 8 := by
  split <;> decide

theorem afterLast_waitData
    (h : (if p then FsmState.waitCrc else .waitData).code = FsmState.waitData.code) : ¬ p := by
  intro hp; rw [if_pos hp] at h; exact absurd h (by decide)

theorem afterLast_waitCrc
    (h : (if p then FsmState.waitCrc else .waitData).code = FsmState.waitCrc.code) : p := by
  by_contra hp; rw [if_neg hp] at h; exact absurd h (by decide)

theorem afterLast_ne_waitAck : (if p then FsmState.waitCrc else .waitData).code ≠ FsmState.waitAck.code := by
  split <;> decide

theorem afterLast_ne_waitResponse : (if p then FsmState.waitCrc else .waitData).code ≠ FsmState.waitResponse.code := by
  split <;> decide

end AfterLast

/-! ### The phases of a telegram -/

/-- Between telegrams: WaitSYN or WaitSrc, and no telegram begun. -/
structure BetweenTelegrams (s : State) : Prop where
  st : s.st = FsmState.waitSyn.code ∨ s.st = FsmState.waitSrc.code
  clear : s.TelegramClear

/-- Before the Request's length byte: WaitDest to WaitLen. -/
structure InHead (s : State) : Prop where
  st : 2 ≤ s.st.toNat ∧ s.st.toNat ≤ 5
  noResponse : s.gotResponse = false
  noAck : s.ackReceived = false
  rspClear : s.rsp = Response.cleared
  payload : s.req.payload = []
  len : s.req.len.toNat ≤ s.params.maxLen.toNat
  broadcast : s.gotBroadcast = true ↔ 3 ≤ s.st.toNat ∧ s.req.dest = s.params.broadcast

/-- From the Request's length byte to its end or to the Response's length byte: WaitData to WaitResponse. -/
structure InRequest (s : State) : Prop where
  st : 6 ≤ s.st.toNat ∧ s.st.toNat ≤ 9
  noResponse : s.gotResponse = false
  ack : s.ackReceived = true → s.st = FsmState.waitResponse.code
  rspClear : s.rsp = Response.cleared
  broadcast : s.gotBroadcast = true ↔ s.req.dest = s.params.broadcast
  bound : s.req.payload.length ≤ s.req.len.toNat ∧ s.req.len.toNat ≤ s.params.maxLen.toNat
  data : s.st = FsmState.waitData.code →
    1 ≤ s.remaining.toNat ∧ s.req.payload.length + s.remaining.toNat = s.req.len.toNat
  crcTime : s.st = FsmState.waitCrc.code → s.req.payload.length = s.req.len.toNat
  complete : s.st = FsmState.waitAck.code ∨ s.st = FsmState.waitResponse.code → s.req.Complete s.params

/-- From the Response's length byte on: WaitData to WaitAck. -/
structure InResponse (s : State) : Prop where
  st : 6 ≤ s.st.toNat ∧ s.st.toNat ≤ 8
  response : s.gotResponse = true
  broadcast : s.gotBroadcast = true ↔ s.req.dest = s.params.broadcast
  req : s.req.Complete s.params
  reqLen : s.req.len.toNat ≤ s.params.maxLen.toNat
  bound : s.rsp.payload.length ≤ s.rsp.len.toNat ∧ s.rsp.len.toNat ≤ s.params.maxLen.toNat
  data : s.st = FsmState.waitData.code →
    1 ≤ s.remaining.toNat ∧ s.rsp.payload.length + s.remaining.toNat = s.rsp.len.toNat
  crcTime : s.st = FsmState.waitCrc.code → s.rsp.payload.length = s.rsp.len.toNat
  complete : s.st = FsmState.waitAck.code → s.rsp.Complete s.params

/-- What the invariant says besides the telegram's phase: the pending prefix, and the telegrams output. -/
structure Delivers (s : State) : Prop where
  pending : ∀ b, s.pend = some b → s.params.escMin ≤ b
  valid : AllValid s.params s.trace

/-! ### Each phase implies the invariant -/

section Phases
variable {s : State} (d : Delivers s)
include d

theorem BetweenTelegrams.inv (h : BetweenTelegrams s) : s.Inv := by
  obtain ⟨hreq, hrsp, hrem, hgr, hgb, hack⟩ := h.clear
  have hst : s.st.toNat ≤ 1 := by rcases h.st with e | e <;> rw [e] <;> decide
  have later {q : FsmState} (hq : 2 ≤ q.code.toNat) : s.st ≠ q.code := fun e => by rw [e] at hst; omega
  exact {
    legal := hst.trans (by decide)
    clear := fun _ => h.clear
    broadcast := iff_of_false (by simp [hgb]) fun e => absurd (e.1.trans hst) (by decide)
    data := fun e => absurd e (later (by decide))
    response := by simp [hgr]
    ack := by simp [hack]
    reqBound := by simp [hreq, Request.cleared]
    rspBound := by simp [hrsp, Response.cleared]
    pending := d.pending
    early := fun _ => by rw [hreq]; rfl
    noResponse := fun _ => hrsp
    crcTime := fun e => absurd e (later (by decide))
    acked := fun e => (e.elim (later (by decide)) (later (by decide))).elim
    rspAcked := by simp [hgr]
    outValid := d.valid }

theorem InHead.inv (h : InHead s) : s.Inv := by
  obtain ⟨hlo, hhi⟩ := h.st
  have early {q : FsmState} (hq : q.code.toNat ≤ 1) : s.st ≠ q.code := fun e => by rw [e] at hlo; omega
  have later {q : FsmState} (hq : 6 ≤ q.code.toNat) : s.st ≠ q.code := fun e => by rw [e] at hhi; omega
  exact {
    legal := hhi.trans (by decide)
    clear := fun e => (e.elim (early (by decide)) (early (by decide))).elim
    broadcast := h.broadcast
    data := fun e => absurd e (later (by decide))
    response := by simp [h.noResponse]
    ack := by simp [h.noAck]
    reqBound := by simp [h.payload, h.len]
    rspBound := by simp [h.rspClear, Response.cleared]
    pending := d.pending
    early := fun _ => h.payload
    noResponse := fun _ => h.rspClear
    crcTime := fun e => absurd e (later (by decide))
    acked := fun e => (e.elim (later (by decide)) (later (by decide))).elim
    rspAcked := by simp [h.noResponse]
    outValid := d.valid }

theorem InRequest.inv (h : InRequest s) : s.Inv := by
  obtain ⟨hlo, hhi⟩ := h.st
  have early {q : FsmState} (hq : q.code.toNat ≤ 5) : s.st ≠ q.code := fun e => by rw [e] at hlo; omega
  exact {
    legal := hhi
    clear := fun e => (e.elim (early (by decide)) (early (by decide))).elim
    broadcast := h.broadcast.trans (iff_and_self.2 fun _ => by omega)
    data := by
      rw [State.activePayload_req_active h.noResponse, State.activeLen_req_active h.noResponse]
      exact h.data
    response := by simp [h.noResponse]
    ack := fun e => .inl (h.ack e)
    reqBound := h.bound
    rspBound := by simp [h.rspClear, Response.cleared]
    pending := d.pending
    early := by omega
    noResponse := fun _ => h.rspClear
    crcTime := by
      rw [State.activePayload_req_active h.noResponse, State.activeLen_req_active h.noResponse]
      exact h.crcTime
    acked := h.complete
    rspAcked := by simp [h.noResponse]
    outValid := d.valid }

theorem InResponse.inv (h : InResponse s) : s.Inv := by
  obtain ⟨hlo, hhi⟩ := h.st
  have early {q : FsmState} (hq : q.code.toNat ≤ 5) : s.st ≠ q.code := fun e => by rw [e] at hlo; omega
  exact {
    legal := hhi.trans (by decide)
    clear := fun e => (e.elim (early (by decide)) (early (by decide))).elim
    broadcast := h.broadcast.trans (iff_and_self.2 fun _ => by omega)
    data := by
      rw [State.activePayload_rsp_active h.response, State.activeLen_rsp_active h.response]
      exact h.data
    response := fun _ => ⟨h.st, h.req⟩
    ack := fun _ => .inr h.response
    reqBound := ⟨h.req.1.le, h.reqLen⟩
    rspBound := h.bound
    pending := d.pending
    early := by omega
    noResponse := by simp [h.response]
    crcTime := by
      rw [State.activePayload_rsp_active h.response, State.activeLen_rsp_active h.response]
      exact h.crcTime
    acked := fun _ => h.req
    rspAcked := fun e _ => h.complete e
    outValid := d.valid }

end Phases

/-! ### What the invariant says in a given state -/

section Uses
variable {s : State} (h : s.Inv) {q : FsmState}
include h

theorem inv_delivers : Delivers s := ⟨h.pending, h.outValid⟩

/-- A Response is received in WaitData, WaitCRC and WaitAck only (R35 item 5). -/
theorem inv_gotResponse_eq_false (hst : s.st = q.code) (hq : q.code.toNat ≤ 5 ∨ q.code.toNat = 9) :
    s.gotResponse = false := by
  rw [← hst] at hq
  by_contra hg
  obtain ⟨⟨hlo, hhi⟩, -⟩ := h.response (Bool.not_eq_false _ ▸ hg)
  omega

/-- `ack_received` is held only in WaitResponse and while a Response is received (R35 item 6). -/
theorem inv_ackReceived_eq_false (hst : s.st = q.code) (hq : q.code.toNat ≤ 8) (hg : s.gotResponse = false) :
    s.ackReceived = false := by
  by_contra ha
  rcases h.ack (Bool.not_eq_false _ ▸ ha) with e | e
  · rw [← hst, e] at hq; exact absurd hq (by decide)
  · simp [hg] at e

/-- Past WaitDest `got_broadcast` tells whether the destination is BROADCAST, and before it is clear (R35 item 3). -/
theorem inv_broadcast_iff (hst : s.st = q.code) (hq : 3 ≤ q.code.toNat) :
    s.gotBroadcast = true ↔ s.req.dest = s.params.broadcast :=
  h.broadcast.trans (and_iff_right (hst ▸ hq))

theorem inv_gotBroadcast_eq_false (hst : s.st = q.code) (hq : q.code.toNat ≤ 2) : s.gotBroadcast = false := by
  rw [← hst] at hq
  by_contra hb
  have := (h.broadcast.1 (Bool.not_eq_false _ ▸ hb)).1
  omega

/-- Before the length byte the Request's half is the active one, and its payload is empty. -/
theorem inv_inHead (hst : s.st = q.code) (hq : 2 ≤ q.code.toNat ∧ q.code.toNat ≤ 5) : InHead s where
  st := by rwa [hst]
  noResponse := inv_gotResponse_eq_false h hst (.inl hq.2)
  noAck := inv_ackReceived_eq_false h hst (hq.2.trans (by decide)) (inv_gotResponse_eq_false h hst (.inl hq.2))
  rspClear := h.noResponse (inv_gotResponse_eq_false h hst (.inl hq.2))
  payload := h.early (by rw [hst]; exact hq.2)
  len := h.reqBound.2
  broadcast := h.broadcast

/-- The telegram an emit hands over is valid once its checksums have been compared (R112 item 1). -/
theorem inv_telegram_valid (hreq : s.req.Complete s.params)
    (hrsp : s.gotResponse = true → s.rsp.Complete s.params) : s.telegram.Valid s.params := by
  refine ⟨hreq, h.reqBound.2, fun r hr => ?_⟩
  cases hg : s.gotResponse
  · simp [State.telegram, hg] at hr
  · obtain rfl : s.rsp = r := by simpa [State.telegram, hg] using hr
    exact ⟨hrsp hg, h.rspBound.2⟩

end Uses

/-! ### The output stays valid -/

theorem allValid_append {p : Params} {xs ys : List Item} (hx : AllValid p xs) (hy : AllValid p ys) :
    AllValid p (xs ++ ys) :=
  fun t h => (List.mem_append.1 h).elim (hx t) (hy t)

theorem allValid_event (p : Params) (e : Event) : AllValid p [.evt e] := by
  intro t h; simp at h

theorem allValid_emitted {p : Params} {t : Tel} (h : t.Valid p) : AllValid p (.tel t :: matchItems p t) := by
  intro u hu
  rcases List.mem_cons.1 hu with e | hm
  · cases e; exact h
  · exact absurd hm (tel_not_mem_matchItems p t u)

/-- An append to the output by something that leaves the prefix and the parameters alone. -/
theorem Delivers.append {s t : State} (d : Delivers s) (items : List Item) (hi : AllValid s.params items)
    (hpend : t.pend = s.pend) (hparams : t.params = s.params) (htrace : t.trace = s.trace ++ items) : Delivers t where
  pending := by rw [hpend, hparams]; exact d.pending
  valid := by rw [hparams, htrace]; exact allValid_append d.valid hi

theorem Delivers.of_same_trace {s t : State} (d : Delivers s)
    (hpend : t.pend = s.pend) (hparams : t.params = s.params) (htrace : t.trace = s.trace) : Delivers t :=
  d.append [] (fun _ h => absurd h List.not_mem_nil) hpend hparams (htrace.trans (List.append_nil _).symm)

theorem Delivers.raise {s : State} (d : Delivers s) (e : Event) : Delivers (s.raise e) :=
  d.append [.evt e] (allValid_event _ e) rfl rfl (List.append_assoc ..).symm

/-! ### The end of a telegram -/

theorem betweenTelegrams_dropTelegram (s : State) {q : FsmState} (hq : q = .waitSyn ∨ q = .waitSrc) :
    BetweenTelegrams (s.dropTelegram q) where
  st := hq.imp (congrArg FsmState.code) (congrArg FsmState.code)
  clear := ⟨rfl, rfl, rfl, rfl, rfl, rfl⟩

theorem Delivers.dropTelegram_inv {s : State} (d : Delivers s) {q : FsmState} (hq : q = .waitSyn ∨ q = .waitSrc) :
    (s.dropTelegram q).Inv :=
  (betweenTelegrams_dropTelegram s hq).inv (d.of_same_trace rfl rfl rfl)

/-- R89: a valid telegram is delivered, and the block is between telegrams. -/
theorem Delivers.emit_inv {s : State} (d : Delivers s) {q : FsmState} (hq : q = .waitSyn ∨ q = .waitSrc)
    (hv : s.telegram.Valid s.params) : (s.emit q).Inv :=
  (show BetweenTelegrams (s.emit q) from betweenTelegrams_dropTelegram _ hq).inv
    (d.append _ (allValid_emitted hv) rfl rfl (List.append_assoc ..).symm)

/-! ### WaitSYN to WaitCmdLo -/

section Transitions
variable {s : State} (h : s.Inv) (b : Byte)
include h

/-- R90, R91, R93. -/
theorem inv_goto_of_between (hst : s.st = FsmState.waitSyn.code ∨ s.st = FsmState.waitSrc.code)
    {q : FsmState} (hq : q = .waitSyn ∨ q = .waitSrc) : (s.goto q).Inv :=
  BetweenTelegrams.inv ((inv_delivers h).of_same_trace rfl rfl rfl)
    { st := hq.imp (congrArg FsmState.code) (congrArg FsmState.code), clear := h.clear hst }

/-- R92. -/
theorem inv_takeSource (hst : s.st = FsmState.waitSrc.code) :
    (({ s with req.src := b } : State).goto .waitDest).Inv := by
  obtain ⟨hreq, hrsp, -, hgr, hgb, hack⟩ := h.clear (.inr hst)
  exact InHead.inv ((inv_delivers h).of_same_trace rfl rfl rfl)
    { st := by simp [FsmState.code]
      noResponse := hgr
      noAck := hack
      rspClear := hrsp
      payload := congrArg Request.payload hreq
      len := h.reqBound.2
      broadcast := by simp [hgb, FsmState.code] }

/-- R94. -/
theorem inv_takeDestination (hst : s.st = FsmState.waitDest.code) :
    ((({ s with req.dest := b } : State).noteDestination b).goto .waitCmdHi).Inv := by
  have head := inv_inHead h hst (by decide)
  have hgb : s.gotBroadcast = false := inv_gotBroadcast_eq_false h hst (by decide)
  exact InHead.inv ((inv_delivers h).of_same_trace rfl rfl rfl)
    { head with
      st := by simp [FsmState.code]
      broadcast := by simp [hgb, FsmState.code] }

/-- R95. -/
theorem inv_takeCommandHigh (hst : s.st = FsmState.waitCmdHi.code) :
    (({ s with req.cmdHi := b } : State).goto .waitCmdLo).Inv :=
  InHead.inv ((inv_delivers h).of_same_trace rfl rfl rfl)
    { inv_inHead h hst (by decide) with
      st := by simp [FsmState.code]
      broadcast := (inv_broadcast_iff (s := s) h hst (by decide)).trans (iff_and_self.2 fun _ => by simp [FsmState.code]) }

/-- R96. -/
theorem inv_takeCommandLow (hst : s.st = FsmState.waitCmdLo.code) :
    (({ s with req.cmdLo := b } : State).goto .waitLen).Inv :=
  InHead.inv ((inv_delivers h).of_same_trace rfl rfl rfl)
    { inv_inHead h hst (by decide) with
      st := by simp [FsmState.code]
      broadcast := (inv_broadcast_iff (s := s) h hst (by decide)).trans (iff_and_self.2 fun _ => by simp [FsmState.code]) }

end Transitions

/-! ### The active buffer's operations, by the active half -/

section Active
variable {s : State} (b : Byte)

theorem acceptLength_req_active (h : s.gotResponse = false) :
    s.acceptLength b = { s with
      req.len := b
      remaining := b.setWidth 5
      st := (if b = 0 then FsmState.waitCrc else .waitData).code } := by
  rw [State.acceptLength, State.setActiveLen_req_active b h]; rfl

theorem acceptLength_rsp_active (h : s.gotResponse = true) :
    s.acceptLength b = { s with
      rsp.len := b
      remaining := b.setWidth 5
      st := (if b = 0 then FsmState.waitCrc else .waitData).code } := by
  rw [State.acceptLength, State.setActiveLen_rsp_active b h]; rfl

theorem takeData_req_active (h : s.gotResponse = false) :
    s.takeData b = { s with
      req.payload := s.req.payload ++ [b]
      remaining := s.remaining - 1
      st := (if s.remaining - 1 = 0 then FsmState.waitCrc else .waitData).code } := by
  rw [State.takeData, State.appendActive_req_active b h]; rfl

theorem takeData_rsp_active (h : s.gotResponse = true) :
    s.takeData b = { s with
      rsp.payload := s.rsp.payload ++ [b]
      remaining := s.remaining - 1
      st := (if s.remaining - 1 = 0 then FsmState.waitCrc else .waitData).code } := by
  rw [State.takeData, State.appendActive_rsp_active b h]; rfl

end Active

/-- A length that was just accepted: all of it remains, and none of it when it is 0. -/
theorem acceptLength_remaining_spec {n : BitVec 5} {b : Byte} (hb : b.toNat ≤ n.toNat) (hz : ¬ b = 0) :
    1 ≤ (b.setWidth 5).toNat ∧ 0 + (b.setWidth 5).toNat = b.toNat := by
  rw [toNat_setWidth_of_le_maxLen hb]
  have : b.toNat ≠ 0 := fun e => hz (BitVec.eq_of_toNat_eq e)
  omega

/-- The countdown and the payload's length always add up to the length byte (R35 item 4). -/
theorem takeData_length_spec {payload : List Byte} {r : BitVec 5} {n : Nat} (b : Byte)
    (h : 1 ≤ r.toNat ∧ payload.length + r.toNat = n) :
    (payload ++ [b]).length ≤ n ∧
      (r - 1 = 0 → (payload ++ [b]).length = n) ∧
      (¬ r - 1 = 0 → 1 ≤ (r - 1).toNat ∧ (payload ++ [b]).length + (r - 1).toNat = n) := by
  obtain ⟨hr, hn⟩ := h
  have hz : r - 1 = 0 ↔ r.toNat - 1 = 0 := by rw [← toNat_sub_one hr, ← BitVec.toNat_inj]; rfl
  rw [hz, toNat_sub_one hr, List.length_append, List.length_singleton]
  omega

/-! ### WaitLen and WaitResponse: the length byte -/

section Transitions
variable {s : State} (h : s.Inv) (b : Byte)
include h

/-- R98. -/
theorem inv_acceptRequestLength (hst : s.st = FsmState.waitLen.code) (hb : b ≤ s.params.maxLenByte) :
    (s.acceptLength b).Inv := by
  rw [le_maxLenByte_iff] at hb
  have head := inv_inHead h hst (by decide)
  have empty := head.payload
  rw [acceptLength_req_active b head.noResponse]
  refine InRequest.inv ((inv_delivers h).of_same_trace rfl rfl rfl)
    { st := afterLast_le.imp_right (·.trans (by decide))
      noResponse := head.noResponse
      ack := by simp [head.noAck]
      rspClear := head.rspClear
      broadcast := inv_broadcast_iff (s := s) h hst (by decide)
      bound := ⟨by simp [empty], hb⟩
      data := fun e => ?data
      crcTime := fun e => ?crcTime
      complete := by simp [afterLast_ne_waitAck, afterLast_ne_waitResponse] }
  case data => simpa [empty] using acceptLength_remaining_spec hb (afterLast_waitData e)
  case crcTime => simp [empty, afterLast_waitCrc e]

/-- R110: the Request is complete and stays so, and the Response begins. -/
theorem inv_acceptResponseLength (hst : s.st = FsmState.waitResponse.code) (hb : b ≤ s.params.maxLenByte) :
    (s.noteResponse.acceptLength b).Inv := by
  rw [le_maxLenByte_iff] at hb
  have clear := h.noResponse (inv_gotResponse_eq_false h hst (by decide))
  have empty : s.rsp.payload = [] := congrArg Response.payload clear
  rw [acceptLength_rsp_active b (s := s.noteResponse) rfl]
  refine InResponse.inv ((inv_delivers h).of_same_trace rfl rfl rfl)
    { st := afterLast_le
      response := rfl
      broadcast := inv_broadcast_iff (s := s) h hst (by decide)
      req := h.acked (.inr hst)
      reqLen := h.reqBound.2
      bound := ⟨by simp [empty], hb⟩
      data := fun e => ?data
      crcTime := fun e => ?crcTime
      complete := by simp [afterLast_ne_waitAck] }
  case data => simpa [empty] using acceptLength_remaining_spec hb (afterLast_waitData e)
  case crcTime => simp [empty, afterLast_waitCrc e]

/-! ### WaitData -/

theorem inv_takeRequestData (hst : s.st = FsmState.waitData.code) (hg : s.gotResponse = false) :
    (s.takeData b).Inv := by
  have count := h.data hst
  rw [State.activePayload_req_active hg, State.activeLen_req_active hg] at count
  obtain ⟨hle, hcrc, hdata⟩ := takeData_length_spec b count
  rw [takeData_req_active b hg]
  exact InRequest.inv ((inv_delivers h).of_same_trace rfl rfl rfl)
    { st := afterLast_le.imp_right (·.trans (by decide))
      noResponse := hg
      ack := by simp [inv_ackReceived_eq_false h hst (by decide) hg]
      rspClear := h.noResponse hg
      broadcast := inv_broadcast_iff (s := s) h hst (by decide)
      bound := ⟨hle, h.reqBound.2⟩
      data := fun e => hdata (afterLast_waitData e)
      crcTime := fun e => hcrc (afterLast_waitCrc e)
      complete := by simp [afterLast_ne_waitAck, afterLast_ne_waitResponse] }

theorem inv_takeResponseData (hst : s.st = FsmState.waitData.code) (hg : s.gotResponse = true) :
    (s.takeData b).Inv := by
  have count := h.data hst
  rw [State.activePayload_rsp_active hg, State.activeLen_rsp_active hg] at count
  obtain ⟨hle, hcrc, hdata⟩ := takeData_length_spec b count
  rw [takeData_rsp_active b hg]
  exact InResponse.inv ((inv_delivers h).of_same_trace rfl rfl rfl)
    { st := afterLast_le
      response := hg
      broadcast := inv_broadcast_iff (s := s) h hst (by decide)
      req := (h.response hg).2
      reqLen := h.reqBound.2
      bound := ⟨hle, h.rspBound.2⟩
      data := fun e => hdata (afterLast_waitData e)
      crcTime := fun e => hcrc (afterLast_waitCrc e)
      complete := by simp [afterLast_ne_waitAck] }

/-- R99. -/
theorem inv_takeData (hst : s.st = FsmState.waitData.code) : (s.takeData b).Inv := by
  cases hg : s.gotResponse
  · exact inv_takeRequestData h b hst hg
  · exact inv_takeResponseData h b hst hg

/-! ### WaitCRC -/

theorem inv_acceptRequestCrc (hst : s.st = FsmState.waitCrc.code) (hg : s.gotResponse = false)
    (hb : b = s.activeChecksum) : ((s.setActiveCrc b).goto .waitAck).Inv := by
  have whole := h.crcTime hst
  rw [State.activePayload_req_active hg, State.activeLen_req_active hg] at whole
  rw [State.activeChecksum_req_active hg] at hb
  rw [State.setActiveCrc_req_active b hg]
  exact InRequest.inv ((inv_delivers h).of_same_trace rfl rfl rfl)
    { st := by simp [FsmState.code]
      noResponse := hg
      ack := by simp [inv_ackReceived_eq_false h hst (by decide) hg]
      rspClear := h.noResponse hg
      broadcast := inv_broadcast_iff (s := s) h hst (by decide)
      bound := h.reqBound
      data := fun e => absurd e (by simp [FsmState.code])
      crcTime := fun e => absurd e (by simp [FsmState.code])
      complete := fun _ => ⟨whole, decide_eq_true hb.symm⟩ }

theorem inv_acceptResponseCrc (hst : s.st = FsmState.waitCrc.code) (hg : s.gotResponse = true)
    (hb : b = s.activeChecksum) : ((s.setActiveCrc b).goto .waitAck).Inv := by
  have whole := h.crcTime hst
  rw [State.activePayload_rsp_active hg, State.activeLen_rsp_active hg] at whole
  rw [State.activeChecksum_rsp_active hg] at hb
  rw [State.setActiveCrc_rsp_active b hg]
  exact InResponse.inv ((inv_delivers h).of_same_trace rfl rfl rfl)
    { st := by simp [FsmState.code]
      response := hg
      broadcast := inv_broadcast_iff (s := s) h hst (by decide)
      req := (h.response hg).2
      reqLen := h.reqBound.2
      bound := h.rspBound
      data := fun e => absurd e (by simp [FsmState.code])
      crcTime := fun e => absurd e (by simp [FsmState.code])
      complete := fun _ => ⟨whole, decide_eq_true hb.symm⟩ }

/-- R101, R102: a checksum that matches completes the active half, any other drops the telegram. -/
theorem inv_takeChecksum (hst : s.st = FsmState.waitCrc.code) : (s.takeChecksum b).Inv := by
  rcases s.takeChecksum_cases b with ⟨hb, e⟩ | ⟨-, e⟩
  · rw [e]
    cases hg : s.gotResponse
    · exact inv_acceptRequestCrc h b hst hg hb
    · exact inv_acceptResponseCrc h b hst hg hb
  · rw [e]
    exact ((inv_delivers h).raise _).dropTelegram_inv (.inl rfl)

/-! ### WaitAck and WaitResponse -/

/-- R104: a complete Request waits for its Response. -/
theorem inv_awaitResponse (hst : s.st = FsmState.waitAck.code) (hg : s.gotResponse = false) :
    (s.noteAck.goto .waitResponse).Inv :=
  InRequest.inv ((inv_delivers h).of_same_trace rfl rfl rfl)
    { st := by simp [FsmState.code]
      noResponse := hg
      ack := fun _ => rfl
      rspClear := h.noResponse hg
      broadcast := inv_broadcast_iff (s := s) h hst (by decide)
      bound := h.reqBound
      data := fun e => absurd e (by simp [FsmState.code])
      crcTime := fun e => absurd e (by simp [FsmState.code])
      complete := fun _ => h.acked (.inl hst) }

/-- R103, R106: in WaitAck both halves that the telegram has are complete. -/
theorem inv_emit_of_waitAck (hst : s.st = FsmState.waitAck.code) {q : FsmState} (hq : q = .waitSyn ∨ q = .waitSrc) :
    (s.emit q).Inv :=
  (inv_delivers h).emit_inv hq (inv_telegram_valid h (h.acked (.inl hst)) (h.rspAcked hst))

/-- R109: in WaitResponse the telegram is a complete Request and no Response. -/
theorem inv_emit_of_waitResponse (hst : s.st = FsmState.waitResponse.code) : (s.emit .waitSyn).Inv := by
  have hg := inv_gotResponse_eq_false h hst (by decide)
  exact (inv_delivers h).emit_inv (.inl rfl) (inv_telegram_valid h (h.acked (.inr hst)) (by simp [hg]))

/-! ### One transition -/

/-- Every transition keeps the invariant. -/
theorem inv_fsm {b : Byte} {t : State} (e : fsm b s = .next t) : t.Inv := by
  have drop (q : FsmState) := (inv_delivers h).dropTelegram_inv (q := q)
  have dropAfter (v : Event) := ((inv_delivers h).raise v).dropTelegram_inv (q := .waitSyn) (.inl rfl)
  rcases fsm_cases e with
    ⟨hst, -, rfl⟩ | ⟨hst, -, rfl⟩ | ⟨hst, -, rfl⟩ | ⟨hst, -, rfl⟩ | ⟨hst, rfl⟩ | ⟨hst, rfl⟩ | ⟨hst, rfl⟩ |
    ⟨hst, hb, rfl⟩ | ⟨-, -, rfl⟩ | ⟨hst, -, rfl⟩ | ⟨hst, hr, -⟩ | ⟨hst, rfl⟩ |
    ⟨hst, -, -, rfl⟩ | ⟨hst, -, hg, rfl⟩ | ⟨-, -, rfl⟩ | ⟨hst, -, -, rfl⟩ | ⟨-, -, -, rfl⟩ | ⟨-, -, rfl⟩ |
    ⟨hst, -, rfl⟩ | ⟨hst, hb, rfl⟩ | ⟨-, -, -, rfl⟩
  -- WaitSYN to WaitCmdLo
  · exact inv_goto_of_between h (.inl hst) (.inr rfl)
  · exact inv_goto_of_between h (.inl hst) (.inl rfl)
  · exact inv_goto_of_between h (.inr hst) (.inr rfl)
  · exact inv_takeSource h b hst
  · exact inv_takeDestination h b hst
  · exact inv_takeCommandHigh h b hst
  · exact inv_takeCommandLow h b hst
  -- WaitLen to WaitCRC; in WaitData something remains, so R100 does not arise
  · exact inv_acceptRequestLength h b hst hb
  · exact dropAfter _
  · exact inv_takeData h b hst
  · exact absurd (h.data hst).1 (by simp [hr])
  · exact inv_takeChecksum h b hst
  -- WaitAck
  · exact inv_emit_of_waitAck h hst (.inl rfl)
  · exact inv_awaitResponse h hst hg
  · exact drop _ (.inl rfl)
  · exact inv_emit_of_waitAck h hst (.inr rfl)
  · exact drop _ (.inr rfl)
  · exact dropAfter _
  -- WaitResponse
  · exact inv_emit_of_waitResponse h hst
  · exact inv_acceptResponseLength h b hst hb
  · exact dropAfter _

end Transitions

/-! ### The step -/

/-- Whatever the queue, the pending prefix, the schedule and the output become, as long as the prefix and the telegrams
output are good. -/
theorem Delivers.update_inv {s : State} (h : s.Inv) {inQ : List Byte} {agenda : List Turn} {pend : Option Byte}
    {out : List Item} (d : Delivers { s with inQ, agenda, pend, out }) :
    ({ s with inQ, agenda, pend, out } : State).Inv :=
  { h with pending := d.pending, outValid := d.valid }

/-- The turn and the head byte are taken, or a chunk is fed: nothing that the invariant is about. -/
theorem inv_update_queue {s : State} (h : s.Inv) (inQ : List Byte) (agenda : List Turn) :
    ({ s with inQ, agenda } : State).Inv :=
  Delivers.update_inv h ((inv_delivers h).of_same_trace rfl rfl rfl)

theorem inv_setPend {s : State} (h : s.Inv) {p : Option Byte} (hp : ∀ b, p = some b → s.params.escMin ≤ b) :
    (s.setPend p).Inv :=
  Delivers.update_inv h { pending := hp, valid := h.outValid }

theorem inv_raise {s : State} (h : s.Inv) (e : Event) : (s.raise e).Inv :=
  Delivers.update_inv h ((inv_delivers h).raise e)

theorem inv_setPend_none {s : State} (h : s.Inv) : (s.setPend none).Inv :=
  inv_setPend h fun _ e => nomatch e

/-- R78: the Core's symbol keeps the invariant. -/
theorem inv_exec_decodeStream {p : Option Byte} {b : Byte} {s t : State} (h : s.Inv)
    (he : exec (decodeStream s.params.toConstants p b) s = .next t) : t.Inv := by
  rcases exec_decodeStream p b s with ⟨-, -, e⟩ | ⟨-, hb, e⟩ | ⟨b1, -, -, e⟩ | ⟨b1, -, -, -, e⟩ | ⟨b1, -, -, -, e⟩
  · exact inv_fsm h (e ▸ he)
  · cases e ▸ he
    exact inv_setPend h fun _ hp => Option.some.inj hp ▸ hb
  · exact inv_fsm (inv_setPend_none (inv_raise h _)) (e ▸ he)
  · exact inv_fsm (inv_setPend_none h) (e ▸ he)
  · cases e ▸ he
    exact inv_raise (inv_setPend_none h) _

theorem inv_execReset {s t : State} (h : s.Inv) (hr : execReset s = .next t) : t.Inv := by
  have trace := execReset_trace hr
  obtain rfl := execReset_eq_next hr
  refine BetweenTelegrams.inv { pending := (fun _ e => nomatch e), valid := ?_ } ⟨.inl rfl, rfl, rfl, rfl, rfl, rfl, rfl⟩
  rw [trace]
  exact h.outValid

/-- Settles O56, by what the step ran. -/
theorem stepKeepsInvariant : Obligations.StepKeepsInvariant := by
  intro s t h hs
  rcases step_cases hs with ⟨bytes, rest, -, -, hf⟩ | ⟨rest, -, hr⟩ | ⟨rest, -, -, rfl⟩ | ⟨rest, b, q, -, -, -, he⟩
  · cases hf; exact inv_update_queue h _ _
  · exact inv_execReset (inv_update_queue h s.inQ rest) hr
  · exact inv_update_queue h s.inQ rest
  · exact inv_exec_decodeStream (inv_update_queue h q rest) he

/-! ### Construction and the reachable states -/

/-- R36: nothing is pending and nothing has been output. -/
theorem inv_construct (p : Params) (agenda : List Turn) : ({ State.construct p with agenda := agenda } : State).Inv :=
  BetweenTelegrams.inv { pending := (fun _ e => nomatch e), valid := (fun _ e => absurd e List.not_mem_nil) }
    ⟨.inl rfl, rfl, rfl, rfl, rfl, rfl, rfl⟩

/-- Settles O55: `State.reset` is the construction with the default parameters. -/
theorem constructionMeetsInvariant : Obligations.ConstructionMeetsInvariant :=
  ⟨inv_construct, inv_construct Params.default []⟩

theorem reachable_inv {s : State} (h : Reachable s) : s.Inv := by
  induction h with
  | construct p agenda => exact inv_construct p agenda
  | step _ hs ih => exact stepKeepsInvariant _ _ ih hs

/-- Settles O57: the items are part of the invariant, and item 7 bounds the buffers by `MAX_LEN`. -/
theorem reachableStatesMeetTheListedItems : Obligations.ReachableStatesMeetTheListedItems := by
  intro s hs
  have h := reachable_inv hs
  refine ⟨h.toListed, fun hwf => ?_⟩
  have hcap : s.params.maxLen.toNat ≤ s.params.payloadCap := of_decide_eq_true hwf
  obtain ⟨hreq, hreqLen⟩ := h.reqBound
  obtain ⟨hrsp, hrspLen⟩ := h.rspBound
  exact ⟨(hreq.trans hreqLen).trans hcap, (hrsp.trans hrspLen).trans hcap⟩

end Sys2Proof.Proofs
end

