-- ==== Sys2Proof/Proofs/AckReceived.lean ====
section
/-! PROOFS. `ack_received` is unobservable (O60): from two states that differ in it alone, every operation answers two
states that differ in it alone, or refuses both for the same reason. -/

namespace Sys2Proof.Proofs
open Sys2Proof Sys2Proof.Machine

/-- Two results that differ at most in the next state's `ack_received`. -/
inductive AckTwins : Result → Result → Prop where
  | next (t : State) (a : Bool) : AckTwins (.next t) (.next { t with ackReceived := a })
  | refused (r : Refusal) : AckTwins (.refused r) (.refused r)

/-- A guard that does not look at `ack_received` takes both states to the same branch. -/
theorem AckTwins.ite {c : Prop} [Decidable c] {x x' y y' : Result} (hx : AckTwins x x') (hy : AckTwins y y') :
    AckTwins (if c then x else y) (if c then x' else y') := by
  split
  · exact hx
  · exact hy

theorem AckTwins.next_of {r : Result} {t : State} (h : AckTwins (.next t) r) :
    ∃ a', r = .next { t with ackReceived := a' } := by
  cases h with
  | next t a => exact ⟨a, rfl⟩

/-! ### The operations on the active buffer -/

theorem takeChecksum_match {s : State} (b : Byte) (h : b = s.activeChecksum) :
    s.takeChecksum b = (s.setActiveCrc b).goto .waitAck := by
  rcases s.takeChecksum_cases b with ⟨-, e⟩ | ⟨hn, -⟩
  · exact e
  · exact absurd h hn

theorem takeChecksum_mismatch {s : State} (b : Byte) (h : b ≠ s.activeChecksum) :
    s.takeChecksum b = (s.raise (.checksumMismatch s.activePart s.activeChecksum b)).dropTelegram .waitSyn := by
  rcases s.takeChecksum_cases b with ⟨hb, -⟩ | ⟨-, e⟩
  · exact absurd hb h
  · exact e

section Twins
variable (b : Byte) (s : State) (a : Bool)

theorem setActiveLen_withAck :
    ({ s with ackReceived := a } : State).setActiveLen b = { s.setActiveLen b with ackReceived := a } := by
  simp only [State.setActiveLen]; split <;> rfl

theorem appendActive_withAck :
    ({ s with ackReceived := a } : State).appendActive b = { s.appendActive b with ackReceived := a } := by
  simp only [State.appendActive]; split <;> rfl

theorem setActiveCrc_withAck :
    ({ s with ackReceived := a } : State).setActiveCrc b = { s.setActiveCrc b with ackReceived := a } := by
  simp only [State.setActiveCrc]; split <;> rfl

theorem acceptLength_twins :
    AckTwins (.next (s.acceptLength b)) (.next (({ s with ackReceived := a } : State).acceptLength b)) := by
  unfold State.acceptLength
  rw [setActiveLen_withAck b s a]
  exact .next _ a

theorem takeData_twins :
    AckTwins (.next (s.takeData b)) (.next (({ s with ackReceived := a } : State).takeData b)) := by
  unfold State.takeData
  rw [appendActive_withAck b s a]
  exact .next _ a

/-- Neither checksum's input holds `ack_received`. -/
theorem takeChecksum_twins :
    AckTwins (.next (s.takeChecksum b)) (.next (({ s with ackReceived := a } : State).takeChecksum b)) := by
  by_cases hb : b = s.activeChecksum
  · rw [takeChecksum_match b hb, takeChecksum_match (s := { s with ackReceived := a }) b hb,
      setActiveCrc_withAck b s a]
    exact .next _ a
  · rw [takeChecksum_mismatch b hb, takeChecksum_mismatch (s := { s with ackReceived := a }) b hb]
    exact .next _ false

/-! ### One transition -/

/-- R30 over the rows: the flag is written by R104 and by the clearing of a telegram, and read by none. -/
theorem fsm_twins : AckTwins (fsm b s) (fsm b { s with ackReceived := a }) := by
  rcases hq : FsmState.ofCode s.st with _ | q
  · rw [fsm_of_none b s hq, fsm_of_none b { s with ackReceived := a } hq]
    exact .refused _
  rw [fsm_of_ofCode b s hq, fsm_of_ofCode b { s with ackReceived := a } hq]
  cases q with
  | waitSyn => exact .ite (.next _ a) (.next _ a)
  | waitSrc => exact .ite (.next _ a) (.next _ a)
  | waitDest => exact .next _ a
  | waitCmdHi => exact .next _ a
  | waitCmdLo => exact .next _ a
  | waitLen => exact .ite (acceptLength_twins b s a) (.next _ false)
  | waitData => exact .ite (takeChecksum_twins b s a) (takeData_twins b s a)
  | waitCrc => exact takeChecksum_twins b s a
  | waitAck =>
    exact .ite (.ite (.next _ false) (.next _ true))
      (.ite (.next _ false) (.ite (.ite (.next _ false) (.next _ false)) (.next _ false)))
  | waitResponse => exact .ite (.next _ false) (.ite (acceptLength_twins b s.noteResponse a) (.next _ false))

/-! ### The Core's symbol -/

theorem exec_decodeRaw :
    exec (decodeRaw s.params.toConstants b) s =
      if s.params.escMin ≤ b then .next (s.setPend (some b)) else fsm b s := by
  unfold decodeRaw
  split
  · rfl
  · split <;> rfl

/-- R82. -/
theorem exec_decodePair_framing {b : Byte} (b1 : Byte) (hb : b.msb = false) :
    exec (decodePair b1 b) s = fsm b ((s.raise (.framingError b1 b)).setPend none) := by
  rw [decodePair, if_pos hb]; rfl

theorem takePair_twins (c : BitVec 4) (dd : BitVec 2) (e : BitVec 7) :
    AckTwins (takePair c dd e s) (takePair c dd e { s with ackReceived := a }) :=
  .ite (fsm_twins _ (s.setPend none) a) (.next _ a)

theorem exec_decodeStream_twins (p : Option Byte) :
    AckTwins (exec (decodeStream s.params.toConstants p b) s)
      (exec (decodeStream s.params.toConstants p b) { s with ackReceived := a }) := by
  cases p with
  | none =>
    rw [decodeStream_none, exec_decodeRaw, exec_decodeRaw b { s with ackReceived := a }]
    exact .ite (.next _ a) (fsm_twins b s a)
  | some b1 =>
    rw [decodeStream_some]
    cases hb : b.msb
    · rw [exec_decodePair_framing s b1 hb, exec_decodePair_framing { s with ackReceived := a } b1 hb]
      exact fsm_twins b ((s.raise (.framingError b1 b)).setPend none) a
    · rw [exec_decodePair hb, exec_decodePair hb]
      exact takePair_twins s a _ _ _

/-! ### The step -/

theorem step_twins : AckTwins (step s) (step { s with ackReceived := a }) := by
  rcases turn_cases s with ⟨bytes, rest, ha, hb⟩ | ⟨rest, ha⟩ | ⟨rest, ht⟩
  · rw [step_feed ha hb, step_feed (s := { s with ackReceived := a }) ha hb]
    exact .next _ a
  · rw [step_reset ha, step_reset (s := { s with ackReceived := a }) ha]
    exact .next _ false
  · have ht' : ({ s with ackReceived := a } : State).CoreTurn rest := ht
    by_cases hq : s.inQ = []
    · rw [step_coreTurn_nil ht hq, step_coreTurn_nil ht' hq]
      exact .next _ a
    obtain ⟨b, q, hq⟩ := List.exists_cons_of_ne_nil hq
    by_cases hl : s.Legal
    · rw [step_coreTurn_cons ht hq hl, step_coreTurn_cons ht' hq hl]
      exact exec_decodeStream_twins b { s with agenda := rest, inQ := q } a s.pend
    · rw [step_coreTurn_reserved ht hq hl, step_coreTurn_reserved ht' hq hl]
      exact .refused _

end Twins

/-- Settles O60: two steps from states that differ in the flag alone are twins. -/
theorem ackReceivedIsUnobservable : Obligations.AckReceivedIsUnobservable :=
  fun s _ a h => (h ▸ step_twins s a).next_of

end Sys2Proof.Proofs
end

