-- ==== Sys2Proof/Proofs/Parameters.lean ====
section
/-! PROOFS. The parameters are never written (O53): every row is an update of registers and output, or hands a byte to
the state machine, whose frame holds the parameters. -/

namespace Sys2Proof.Proofs
open Sys2Proof Sys2Proof.Machine

/-- Whatever next state the result answers has the parameters `p`. -/
def KeepsParams (p : Params) (r : Result) : Prop := ∀ t, r = .next t → t.params = p

theorem KeepsParams.next {p : Params} {t : State} (h : t.params = p) : KeepsParams p (.next t) := by
  rintro _ ⟨⟩
  exact h

theorem KeepsParams.ite {p : Params} {c : Prop} [Decidable c] {r r' : Result} (h : KeepsParams p r)
    (h' : KeepsParams p r') : KeepsParams p (if c then r else r') := by
  split
  · exact h
  · exact h'

section Rows
variable (s : State)

/-- R88: the frame of a transition. -/
theorem fsm_keepsParams (b : Byte) : KeepsParams s.params (fsm b s) := fun _ h => (fsm_keeps h).params

theorem takePair_keepsParams (c : BitVec 4) (dd : BitVec 2) (e : BitVec 7) :
    KeepsParams s.params (takePair c dd e s) :=
  .ite (fsm_keepsParams (s.setPend none) _) (.next rfl)

theorem takeChecksum_keepsParams (b : Byte) : KeepsParams s.params (.next (s.takeChecksum b)) :=
  .next (takeChecksum_keeps b s).params

/-- A field read latches a raw integer, or raises an event and latches the skip (R125). -/
theorem readField_params (r : FieldRead) : (s.readField r).params = s.params := by
  cases r <;> rfl

/-- R51 over the instructions, format by format. -/
theorem exec_keepsParams (i : Instr) : KeepsParams s.params (exec i s) := by
  cases i with
  -- HOST
  | feed _ | reset => exact .next rfl
  -- RAW
  | rawPlainLo b | rawPlainHi b => exact fsm_keepsParams s b
  | rawEscPrefix _ => exact .next rfl
  -- ESC
  | escFramingError b1 b2 => exact fsm_keepsParams ((s.raise (.framingError b1 b2)).setPend none) b2
  | escReceived dd e | escResetted dd e | escStarted dd e | escInfo dd e | escUnknown4 dd e | escUnknown5 dd e
  | escUnknown6 dd e | escUnknown7 dd e | escUnknown8 dd e | escUnknown9 dd e | escFailed dd e | escErrorEbus dd e
  | escErrorHost dd e | escUnknownD dd e | escUnknownE dd e | escUnknownF dd e =>
    exact takePair_keepsParams s _ dd e
  -- FSM
  | fsmWaitSynSyn | fsmWaitSynOther _ | fsmWaitSrcSyn | fsmWaitSrcOther _ | fsmWaitDestAny _ | fsmWaitCmdHiAny _
  | fsmWaitCmdLoAny _ | fsmWaitLenBad _ | fsmWaitAckNack | fsmWaitAckOther _ | fsmWaitRspSyn | fsmWaitRspBad _ =>
    exact .next rfl
  | fsmWaitLenOkLo _ | fsmWaitLenOk16 => exact .next (acceptLength_keeps _ s).params
  | fsmWaitRspOkLo _ | fsmWaitRspOk16 => exact .next (noteResponse_acceptLength_keeps _ s).params
  | fsmWaitDataAny b => exact .ite (takeChecksum_keepsParams s b) (.next (takeData_keeps b s).params)
  | fsmWaitCrcAny b => exact takeChecksum_keepsParams s b
  | fsmWaitAckAck | fsmWaitAckSyn => exact .ite (.next rfl) (.next rfl)
  -- OP, PATTERN
  | crc8 _ _ | checksum _ | patAny _ | patPrefix _ _ | patLiteral _ _ | patAbsent _ => exact .next rfl
  -- DTYPE
  | typeU8 _ _ | typeU16le _ _ | typeU16be _ _ | typeUnsupported _ _ => exact .next (readField_params s _)

end Rows

/-- A step runs an instruction, or it is idle. -/
theorem step_params {s t : State} (h : step s = .next t) : t.params = s.params := by
  rcases step_cases h with ⟨bytes, rest, -, -, hf⟩ | ⟨rest, -, hr⟩ | ⟨rest, -, -, rfl⟩ | ⟨rest, b, q, -, -, -, he⟩
  · exact exec_keepsParams { s with agenda := rest } (.feed bytes) t hf
  · exact exec_keepsParams { s with agenda := rest } .reset t hr
  · rfl
  · exact exec_keepsParams { s with agenda := rest, inQ := q } _ t he

/-- Settles O53: every row, then every step. -/
theorem parametersAreNeverWritten : Obligations.ParametersAreNeverWritten :=
  ⟨fun i s => exec_keepsParams s i, fun _ _ => step_params⟩

end Sys2Proof.Proofs
end

