-- ==== Sys2Proof/Proofs/Queue.lean ====
section
/-! PROOFS. Taking a byte does not depend on the bytes and the turns still to come: with another queue and another
schedule every symbol does the same, and leaves that queue and that schedule as they are. -/

namespace Sys2Proof.Proofs
open Sys2Proof Sys2Proof.Machine

/-- The same result with another queue and another schedule. -/
def withQueue (inQ : List Byte) (agenda : List Turn) : Result → Result
  | .next t => .next { t with inQ, agenda }
  | .fault e => .fault e
  | .refused r => .refused r

section Queue
variable (b : Byte) (s : State) (inQ : List Byte) (agenda : List Turn)

/-- A guard that looks at neither takes both states to the same branch. -/
theorem withQueue_ite {c : Prop} [Decidable c] {x x' y y' : Result} (hx : x' = withQueue inQ agenda x)
    (hy : y' = withQueue inQ agenda y) :
    (if c then x' else y') = withQueue inQ agenda (if c then x else y) := by
  split
  · exact hx
  · exact hy

/-! ### The operations on the active buffer -/

theorem setActiveLen_withQueue :
    ({ s with inQ, agenda } : State).setActiveLen b = { s.setActiveLen b with inQ, agenda } := by
  simp only [State.setActiveLen]; split <;> rfl

theorem appendActive_withQueue :
    ({ s with inQ, agenda } : State).appendActive b = { s.appendActive b with inQ, agenda } := by
  simp only [State.appendActive]; split <;> rfl

theorem setActiveCrc_withQueue :
    ({ s with inQ, agenda } : State).setActiveCrc b = { s.setActiveCrc b with inQ, agenda } := by
  simp only [State.setActiveCrc]; split <;> rfl

theorem acceptLength_withQueue :
    ({ s with inQ, agenda } : State).acceptLength b = { s.acceptLength b with inQ, agenda } := by
  unfold State.acceptLength
  rw [setActiveLen_withQueue]
  rfl

theorem takeData_withQueue : ({ s with inQ, agenda } : State).takeData b = { s.takeData b with inQ, agenda } := by
  unfold State.takeData
  rw [appendActive_withQueue]
  rfl

theorem takeChecksum_withQueue :
    ({ s with inQ, agenda } : State).takeChecksum b = { s.takeChecksum b with inQ, agenda } := by
  by_cases hb : b = s.activeChecksum
  · rw [takeChecksum_match b hb, takeChecksum_match (s := { s with inQ, agenda }) b hb, setActiveCrc_withQueue]
    rfl
  · rw [takeChecksum_mismatch b hb, takeChecksum_mismatch (s := { s with inQ, agenda }) b hb]
    rfl

/-! ### One transition -/

/-- R88: the state machine reads neither the queue nor the schedule. -/
theorem fsm_withQueue : fsm b { s with inQ, agenda } = withQueue inQ agenda (fsm b s) := by
  rcases hq : FsmState.ofCode s.st with _ | q
  · rw [fsm_of_none b s hq, fsm_of_none b { s with inQ, agenda } hq]
    rfl
  rw [fsm_of_ofCode b s hq, fsm_of_ofCode b { s with inQ, agenda } hq]
  cases q with
  | waitSyn | waitSrc => exact withQueue_ite _ _ rfl rfl
  | waitDest | waitCmdHi | waitCmdLo => rfl
  | waitLen => exact withQueue_ite _ _ (congrArg _ (acceptLength_withQueue b s inQ agenda)) rfl
  | waitData =>
    exact withQueue_ite _ _ (congrArg _ (takeChecksum_withQueue b s inQ agenda))
      (congrArg _ (takeData_withQueue b s inQ agenda))
  | waitCrc => exact congrArg Host.Outcome.next (takeChecksum_withQueue b s inQ agenda)
  | waitAck =>
    exact withQueue_ite _ _ (withQueue_ite _ _ rfl rfl)
      (withQueue_ite _ _ rfl (withQueue_ite _ _ (withQueue_ite _ _ rfl rfl) rfl))
  | waitResponse =>
    exact withQueue_ite _ _ rfl
      (withQueue_ite _ _ (congrArg _ (acceptLength_withQueue b s.noteResponse inQ agenda)) rfl)

/-! ### The Core's symbol -/

theorem takePair_withQueue (c : BitVec 4) (dd : BitVec 2) (e : BitVec 7) :
    takePair c dd e { s with inQ, agenda } = withQueue inQ agenda (takePair c dd e s) :=
  withQueue_ite _ _ (fsm_withQueue _ (s.setPend none) inQ agenda) rfl

theorem exec_decodeStream_withQueue (p : Option Byte) :
    exec (decodeStream s.params.toConstants p b) { s with inQ, agenda } =
      withQueue inQ agenda (exec (decodeStream s.params.toConstants p b) s) := by
  cases p with
  | none =>
    rw [decodeStream_none, exec_decodeRaw, exec_decodeRaw b { s with inQ, agenda }]
    exact withQueue_ite _ _ rfl (fsm_withQueue b s inQ agenda)
  | some b1 =>
    rw [decodeStream_some]
    cases hb : b.msb
    · rw [exec_decodePair_framing s b1 hb, exec_decodePair_framing { s with inQ, agenda } b1 hb]
      exact fsm_withQueue b ((s.raise (.framingError b1 b)).setPend none) inQ agenda
    · rw [exec_decodePair hb, exec_decodePair hb]
      exact takePair_withQueue s inQ agenda _ _ _

end Queue

end Sys2Proof.Proofs
end

