-- ==== Sys2Proof/Proofs/Chunking.lean ====
section
/-! PROOFS. Chunking invariance (O59). The bytes to come are those in the queue and those the schedule will feed. With
no reset to come, they and the registers determine the state the machine ends in, and no step changes it. -/

namespace Sys2Proof.Proofs
open Sys2Proof Sys2Proof.Machine

/-! ### Taking one byte -/

/-- What the Core does with the raw byte `b` (R78). -/
def takeByte (s : State) (b : Byte) : Result := exec (decodeStream s.params.toConstants s.pend b) s

/-- R148: in a legal state the Core completes on every byte. -/
theorem takeByte_completesLegal (b : Byte) {s : State} (h : s.Legal) : CompletesLegal (takeByte s b) := by
  unfold takeByte
  rcases exec_decodeStream s.pend b s with
    ⟨-, -, e⟩ | ⟨-, -, e⟩ | ⟨b1, -, -, e⟩ | ⟨b1, -, -, -, e⟩ | ⟨b1, -, -, -, e⟩
  · rw [e]; exact fsm_completesLegal _ h
  · rw [e]; exact ⟨_, rfl, h⟩
  · rw [e]; exact fsm_completesLegal _ (s := (s.raise _).setPend none) h
  · rw [e]; exact fsm_completesLegal _ (s := s.setPend none) h
  · rw [e]; exact ⟨_, rfl, h⟩

theorem takeByte_legal {b : Byte} {s t : State} (hl : s.Legal) (h : takeByte s b = .next t) : t.Legal := by
  obtain ⟨u, hu, hul⟩ := takeByte_completesLegal b hl
  cases hu.symm.trans h
  exact hul

theorem takeByte_params {b : Byte} {s t : State} (h : takeByte s b = .next t) : t.params = s.params :=
  exec_keepsParams s _ t h

/-- The registers, with nothing to come. -/
def quiet (s : State) : State := { s with inQ := [], agenda := [] }

/-- On its turn the Core takes the head byte as it would with nothing else to come. -/
theorem step_takeByte {s u : State} {rest : List Turn} {b : Byte} {q : List Byte} (ht : s.CoreTurn rest)
    (hq : s.inQ = b :: q) (hl : s.Legal) (hu : takeByte (quiet s) b = .next u) :
    step s = .next { u with inQ := q, agenda := rest } := by
  rw [step_coreTurn_cons ht hq hl]
  exact (exec_decodeStream_withQueue b (quiet s) q rest s.pend).trans
    (congrArg (withQueue q rest) hu)

/-- Taking a byte makes nothing come. -/
theorem takeByte_quiet {b : Byte} {s u : State} (h : takeByte (quiet s) b = .next u) : quiet u = u := by
  have hu : takeByte (quiet s) b = withQueue [] [] (takeByte (quiet s) b) :=
    exec_decodeStream_withQueue b (quiet s) [] [] s.pend
  rw [h] at hu
  exact (Host.Outcome.next.inj hu).symm

/-! ### Taking the bytes to come -/

/-- From `s` the Core takes the bytes one by one, and ends in `t`. -/
inductive Takes : State → List Byte → State → Prop where
  | nil (s : State) : Takes s [] s
  | cons {s u t : State} {b : Byte} {bs : List Byte} : takeByte s b = .next u → Takes u bs t → Takes s (b :: bs) t

theorem exists_takes : ∀ (bs : List Byte) {s : State}, s.Legal → ∃ t, Takes s bs t
  | [], s, _ => ⟨s, .nil s⟩
  | b :: bs, _, hl =>
    have ⟨_, hu, hul⟩ := takeByte_completesLegal b hl
    have ⟨t, ht⟩ := exists_takes bs hul
    ⟨t, .cons hu ht⟩

/-! ### The bytes to come -/

@[simp] theorem agendaBytes_nil : agendaBytes [] = [] := rfl

@[simp] theorem agendaBytes_feed (bytes : List Byte) (rest : List Turn) :
    agendaBytes (.feed bytes :: rest) = bytes ++ agendaBytes rest := rfl

@[simp] theorem agendaBytes_core (rest : List Turn) : agendaBytes (.core :: rest) = agendaBytes rest := rfl

/-- A bound on the steps until all bytes are taken. -/
def workLeft (s : State) : Nat := s.agenda.length + s.inQ.length + 2 * (agendaBytes s.agenda).length

/-- The machine is on its way from `s` to `t`: with no reset to come, the Core takes the bytes to come to `t`. -/
structure Ends (s t : State) : Prop where
  legal : s.Legal
  room : s.params.inQueueCap ≠ some 0
  noReset : Turn.reset ∉ s.agenda
  takes : Takes (quiet s) (s.inQ ++ agendaBytes s.agenda) t

/-- Moving bytes from the schedule to the queue, or dropping turns that feed none, leads to the same end. -/
theorem Ends.update_queue {s t : State} (h : Ends s t) {inQ : List Byte} {agenda : List Turn}
    (hr : Turn.reset ∉ agenda) (hb : inQ ++ agendaBytes agenda = s.inQ ++ agendaBytes s.agenda) :
    Ends { s with inQ, agenda } t :=
  ⟨h.legal, h.room, hr, hb ▸ h.takes⟩

/-- The Core's turn leaves a suffix of the schedule, and does not change the bytes that it feeds. -/
theorem coreTurn_rest {s : State} {rest : List Turn} (h : s.CoreTurn rest) :
    rest <:+ s.agenda ∧ agendaBytes rest = agendaBytes s.agenda := by
  rcases h with ⟨ha, rfl⟩ | ha | ⟨bytes, later, -, -, rfl⟩
  · exact ⟨List.nil_suffix, by rw [ha]⟩
  · rw [ha]; exact ⟨List.suffix_cons .., rfl⟩
  · exact ⟨List.suffix_rfl, rfl⟩

/-- A queue that can hold a byte has room when it is empty, so that an idle turn is a turn of the schedule or the end
of it. -/
theorem coreTurn_rest_of_empty {s : State} {rest : List Turn} (h : s.CoreTurn rest) (hq : s.inQ = [])
    (hcap : s.params.inQueueCap ≠ some 0) : rest.length = s.agenda.length - 1 := by
  rcases h with ⟨ha, rfl⟩ | ha | ⟨bytes, later, -, hb, -⟩
  · rw [ha]; rfl
  · rw [ha]; rfl
  · obtain ⟨hne, h0⟩ : bytes ≠ [] ∧ s.roomFor bytes = 0 := by simpa [State.holdsBack] using hb
    have hpos := List.length_pos_iff.mpr hne
    rcases hc : s.params.inQueueCap with _ | cap
    · rw [s.roomFor_unbounded bytes hc] at h0
      omega
    · rw [roomFor_of_cap hc, hq] at h0
      obtain rfl : cap = 0 := by simpa [hne] using h0
      exact absurd hc hcap

theorem roomFor_pos {s : State} {bytes : List Byte} (h : s.holdsBack bytes = false) (hne : bytes ≠ []) :
    0 < s.roomFor bytes := by
  simp only [State.holdsBack, hne, ne_eq, not_false_eq_true, decide_true, Bool.true_and, decide_eq_false_iff_not] at h
  omega

/-! ### One step -/

/-- The step of `s` stays on the way to `t`, with less work left if there was any. -/
def GoesOn (s t : State) : Prop := ∃ u, step s = .next u ∧ Ends u t ∧ workLeft u ≤ workLeft s - 1

section Step
variable {s t : State} (h : Ends s t)
include h

/-- A feed moves bytes from the schedule to the queue, at least one when it is cut. -/
theorem Ends.feed {bytes : List Byte} {rest : List Turn} (ha : s.agenda = .feed bytes :: rest)
    (hb : s.holdsBack bytes = false) : GoesOn s t := by
  obtain ⟨taken, left, hsplit, hlen, hf⟩ := execFeed_splits bytes { s with agenda := rest }
  refine ⟨_, (step_feed ha hb).trans hf, ?_⟩
  have hr : Turn.reset ∉ rest := fun hm => h.noReset (ha ▸ List.mem_cons_of_mem _ hm)
  by_cases hleft : left = []
  · subst hleft
    refine ⟨h.update_queue (by simpa using hr) (by simp [ha, hsplit]), ?_⟩
    simp only [workLeft, ha, hsplit, if_true, agendaBytes_feed, List.length_append, List.length_cons, List.length_nil]
    omega
  · have hpos : 0 < taken.length := hlen ▸ roomFor_pos hb (by simp [hsplit, hleft])
    refine ⟨h.update_queue (by simpa [hleft] using hr) (by simp [ha, hsplit, hleft]), ?_⟩
    simp only [workLeft, ha, hsplit, if_neg hleft, agendaBytes_feed, List.length_append, List.length_cons]
    omega

/-- An idle turn is taken off the schedule, if there is one. -/
theorem Ends.idle {rest : List Turn} (ht : s.CoreTurn rest) (hq : s.inQ = []) :
    GoesOn s t := by
  obtain ⟨hsuffix, hbytes⟩ := coreTurn_rest ht
  refine ⟨_, step_coreTurn_nil ht hq,
    h.update_queue (fun hm => h.noReset (hsuffix.subset hm)) (by rw [hbytes]), ?_⟩
  have hlen := coreTurn_rest_of_empty ht hq h.room
  by_cases ha : s.agenda = []
  · simp [workLeft, hbytes, hlen, hq, ha]
  · have := List.length_pos_iff.mpr ha
    simp only [workLeft, hbytes, hlen]
    omega

/-- The Core takes the first of the bytes to come. -/
theorem Ends.take {rest : List Turn} {b : Byte} {q : List Byte} (ht : s.CoreTurn rest) (hq : s.inQ = b :: q) :
    GoesOn s t := by
  obtain ⟨hsuffix, hbytes⟩ := coreTurn_rest ht
  have htakes := h.takes
  rw [hq, List.cons_append] at htakes
  cases htakes with
  | @cons _ u _ _ _ hu htail =>
    refine ⟨_, step_takeByte ht hq h.legal hu, ⟨?legal, ?room, ?noReset, ?takes⟩, ?work⟩
    case legal => exact takeByte_legal (s := quiet s) (t := u) h.legal hu
    case room => exact (takeByte_params hu).symm ▸ h.room
    case noReset => exact fun hm => h.noReset (hsuffix.subset hm)
    case takes =>
      rw [← takeByte_quiet hu] at htail
      exact hbytes.symm ▸ htail
    case work =>
      have := hsuffix.length_le
      simp only [workLeft, hbytes, hq, List.length_cons]
      omega

/-- R49, one step: whoever's turn it is, the end stays the same. -/
theorem Ends.step : GoesOn s t := by
  rcases turn_cases s with ⟨bytes, rest, ha, hb⟩ | ⟨rest, ha⟩ | ⟨rest, ht⟩
  · exact h.feed ha hb
  · exact absurd (ha ▸ List.mem_cons_self) h.noReset
  · cases hq : s.inQ with
    | nil => exact h.idle ht hq
    | cons b q => exact h.take ht hq

/-- With no work left the end is reached. -/
theorem Ends.eq_of_workLeft (hw : workLeft s = 0) : s = t := by
  obtain ⟨ha, hq⟩ : s.agenda = [] ∧ s.inQ = [] := by
    simpa only [List.length_eq_zero_iff, Nat.add_eq_zero_iff] using (Nat.add_eq_zero_iff.mp hw).1
  have htakes := h.takes
  rw [ha, hq] at htakes
  cases htakes
  rw [quiet, ← ha, ← hq]

end Step

/-! ### The run -/

theorem run_succ_of_step {M : Host.Core} {s u : M.State} (k : Nat) (h : M.step s = .next u) :
    M.run (k + 1) s = M.run k u := by
  rw [Host.Core.run, h]

/-- However the bytes are cut into feeds, a run that is long enough reaches the end. -/
theorem run_of_ends (n : Nat) {s t : State} (h : Ends s t) (hn : workLeft s ≤ n) :
    Sys2Proof.core.run n s = .next t := by
  induction n generalizing s with
  | zero => rw [h.eq_of_workLeft (Nat.le_zero.mp hn)]; rfl
  | succ n ih =>
    obtain ⟨u, hs, hu, hw⟩ := h.step
    exact (run_succ_of_step (M := Sys2Proof.core) n hs).trans (ih hu (by omega))

/-- Settles O59: the two schedules have the same bytes to come, so the same end. -/
theorem chunkingInvariance : Obligations.ChunkingInvariance := by
  intro s agenda n m hl hcap hreset hn hm
  obtain ⟨t, ht⟩ := exists_takes (s.inQ ++ agendaBytes agenda) (s := quiet s) hl
  refine ⟨t, run_of_ends n ⟨hl, hcap, hreset, ht⟩ hn, run_of_ends m ⟨hl, hcap, by simp, ?_⟩ ?_⟩
  · simpa [quiet] using ht
  · simpa [workLeft] using hm

end Sys2Proof.Proofs
end

