-- ==== Sys2Proof/Proofs/EscapePair.lean ====
section
/-! PROOFS. The bytes of an escape pair: how they are put together from the command and the data bits and taken apart
again, and what data byte they carry (O9, O11, O12). -/

namespace Sys2Proof.Proofs
open Sys2Proof Sys2Proof.Machine

/-! ### The two bytes and their fields (R54) -/

/-- The first byte of a pair: `11`, the command, the data bits 7:6. -/
def escFirst (c : BitVec 4) (dd : BitVec 2) : Byte := 0b11#2 ++ c ++ dd

/-- The second byte of a valid pair: the continuation bit, the data's low part. -/
def escSecond (e : BitVec 7) : Byte := 1#1 ++ e

section Fields
variable (c : BitVec 4) (dd : BitVec 2) (e : BitVec 7)

@[simp] theorem escCommand_escFirst : escCommand (escFirst c dd) = c := by decide +revert
@[simp] theorem escHigh_escFirst : escHigh (escFirst c dd) = dd := by decide +revert
@[simp] theorem escMin_le_escFirst : Config.escMin ≤ escFirst c dd := by decide +revert
@[simp] theorem escLow_escSecond : escLow (escSecond e) = e := by decide +revert
@[simp] theorem escSecond_msb : (escSecond e).msb = true := by decide +revert

end Fields

/-- A byte from `ESC_MIN` on is a first byte, put together from its own fields. -/
theorem escFirst_fields {b1 : Byte} (h : Config.escMin ≤ b1) : escFirst (escCommand b1) (escHigh b1) = b1 := by
  decide +revert

theorem escSecond_fields {b2 : Byte} (h : b2.msb = true) : escSecond (escLow b2) = b2 := by
  decide +revert

/-! ### The data byte (R55) -/

/-- The source's formula, on the fields. -/
theorem escapeData_toNat (dd : BitVec 2) (e : BitVec 7) :
    (escapeData dd e).toNat = (dd.toNat * 64 + e.toNat) % 256 := by
  have happ : (dd ++ 0#6).toNat = dd.toNat * 64 := by
    rw [BitVec.toNat_append, Nat.shiftLeft_eq, BitVec.toNat_ofNat, Nat.zero_mod, Nat.or_zero]
  have he : e.toNat % 256 = e.toNat := Nat.mod_eq_of_lt (by omega)
  rw [escapeData, BitVec.toNat_add, happ, BitVec.toNat_setWidth, he]

/-- With the low part's top bit clear nothing carries. -/
theorem escapeData_no_carry (dd : BitVec 2) (l : BitVec 6) : escapeData dd (0#1 ++ l) = dd ++ l := by
  decide +revert

/-- With it set, the sum carries into the high part, and out of the byte when the high part is 3. -/
theorem escapeData_carry (dd : BitVec 2) (l : BitVec 6) : escapeData dd (1#1 ++ l) = (dd + 1#2) ++ l := by
  decide +revert

/-- The low part is the bit that decides the carry above the bits that are kept. -/
theorem escLow_eq_append (b2 : Byte) : escLow b2 = BitVec.ofBool (b2.getLsbD 6) ++ b2.extractLsb' 0 6 := by
  decide +revert

theorem escHigh_toNat (b1 : Byte) : (escHigh b1).toNat = b1.toNat % 4 := by
  simp [escHigh, BitVec.extractLsb'_toNat]

theorem escLow_toNat (b2 : Byte) : (escLow b2).toNat = b2.toNat % 128 := by
  simp [escLow, BitVec.extractLsb'_toNat]

theorem escCommand_toNat (b1 : Byte) : (escCommand b1).toNat = b1.toNat / 4 % 16 := by
  simp [escCommand, BitVec.extractLsb'_toNat, Nat.shiftRight_eq_div_pow]

/-- Settles O9: the formula's closed forms are the data byte's sum without and with the carry. -/
theorem escapeDataFollowsSourceFormula : Obligations.EscapeDataFollowsSourceFormula := by
  intro b1 b2 h1 h2
  have h1 : 192 ≤ b1.toNat := h1
  have h2 : 128 ≤ b2.toNat := h2
  refine ⟨?_, fun h6 => ?_, fun h6 => ?_, ?_⟩
  · rw [escapeData_toNat, escHigh_toNat, escLow_toNat, Nat.shiftLeft_eq]
    omega
  · rw [escLow_eq_append, h6]
    exact escapeData_no_carry _ _
  · rw [escLow_eq_append, h6]
    exact escapeData_carry _ _
  · rw [escCommand_toNat, Nat.shiftRight_eq_div_pow]
    omega

/-! ### The adapter labels (R58) -/

/-- Settles O11, over the sixteen commands. -/
theorem adapterLabelsAreTheTable : Obligations.AdapterLabelsAreTheTable :=
  ⟨rfl, rfl, rfl, rfl, rfl, rfl, rfl, by decide⟩

/-! ### The canonical pair (R57) -/

theorem escPairFirst_eq (c : BitVec 4) (d : Byte) : escPairFirst c d = escFirst c (d.extractLsb' 6 2) := rfl

/-- The canonical second byte has the carry bit clear. -/
theorem escPairSecond_eq (d : Byte) : escPairSecond d = escSecond (0#1 ++ d.extractLsb' 0 6) := by
  decide +revert

theorem append_extract_six (d : Byte) : d.extractLsb' 6 2 ++ d.extractLsb' 0 6 = d := by
  decide +revert

/-- Settles O12: the fields of the canonical pair are those it was put together from, and its data byte has no carry. -/
theorem canonicalPairDecodesBack : Obligations.CanonicalPairDecodesBack := by
  intro c d
  rw [escPairFirst_eq, escPairSecond_eq]
  refine ⟨escMin_le_escFirst _ _, escSecond_msb _, escCommand_escFirst _ _, ?_⟩
  rw [escHigh_escFirst, escLow_escSecond, escapeData_no_carry, append_extract_six]

end Sys2Proof.Proofs
end

