-- ==== Sys2Proof/Proofs/Codec.lean ====
section
/-! PROOFS. Decoder and encoder, format by format: what the decoder gives for the word of a row, and that what it gives
is well-formed and has the code it was read from (O46, O47, O48). -/

namespace Sys2Proof.Proofs
open Sys2Proof Sys2Proof.Machine

/-! ### Words and their fields -/

@[simp] theorem extract_first_byte (b1 b2 : Byte) : (b1 ++ b2).extractLsb' 8 8 = b1 :=
  BitVec.extractLsb'_append_eq_left

@[simp] theorem extract_second_byte (b1 b2 : Byte) : (b1 ++ b2).extractLsb' 0 8 = b2 :=
  BitVec.extractLsb'_append_eq_right

@[simp] theorem extract_state (st : BitVec 4) (b : Byte) : (st ++ b).extractLsb' 8 4 = st :=
  BitVec.extractLsb'_append_eq_left

@[simp] theorem extract_logical_byte (st : BitVec 4) (b : Byte) : (st ++ b).extractLsb' 0 8 = b :=
  BitVec.extractLsb'_append_eq_right

theorem append_pair_bytes (w : BitVec 16) : w.extractLsb' 8 8 ++ w.extractLsb' 0 8 = w :=
  BitVec.extractLsb'_append_extractLsb'

theorem append_fsm_fields (w : BitVec 12) : w.extractLsb' 8 4 ++ w.extractLsb' 0 8 = w :=
  BitVec.extractLsb'_append_extractLsb'

theorem escWord_eq_append (c : BitVec 4) (dd : BitVec 2) (e : BitVec 7) :
    escWord c dd e = escFirst c dd ++ escSecond e := by
  apply BitVec.eq_of_toNat_eq
  simp only [escWord, escFirst, escSecond, BitVec.toNat_append, Nat.shiftLeft_or_distrib, ← Nat.shiftLeft_add,
    Nat.or_assoc]

/-! ### Format RAW (R53) -/

theorem decode_raw {b : Byte} {i : Instr} (h : decodeRaw Constants.default b = i) : decode (.raw b) = .ok i :=
  congrArg Except.ok h

theorem decodeRaw_prefix {b : Byte} (h : Config.escMin ≤ b) : decodeRaw Constants.default b = .rawEscPrefix b :=
  if_pos h

theorem decodeRaw_plain {b : Byte} (h : b < Config.escMin) :
    decodeRaw Constants.default b = if b < 0x80 then .rawPlainLo b else .rawPlainHi b :=
  if_neg (BitVec.not_le.mpr h)

/-! ### Format ESC (R54) -/

/-- The row of a valid pair, by its fields. -/
def escRow (c : BitVec 4) (dd : BitVec 2) (e : BitVec 7) : Instr :=
  match c.toNat with
  | 0 => .escResetted dd e
  | 1 => .escReceived dd e
  | 2 => .escStarted dd e
  | 3 => .escInfo dd e
  | 4 => .escUnknown4 dd e
  | 5 => .escUnknown5 dd e
  | 6 => .escUnknown6 dd e
  | 7 => .escUnknown7 dd e
  | 8 => .escUnknown8 dd e
  | 9 => .escUnknown9 dd e
  | 10 => .escFailed dd e
  | 11 => .escErrorEbus dd e
  | 12 => .escErrorHost dd e
  | 13 => .escUnknownD dd e
  | 14 => .escUnknownE dd e
  | _ => .escUnknownF dd e

theorem decodePair_valid (b1 : Byte) {b2 : Byte} (h : b2.msb = true) :
    decodePair b1 b2 = escRow (escCommand b1) (escHigh b1) (escLow b2) := by
  rw [decodePair, if_neg (by simp [h])]; rfl

theorem decodePair_framing (b1 : Byte) {b2 : Byte} (h : b2.msb = false) : decodePair b1 b2 = .escFramingError b1 b2 :=
  if_pos h

theorem decode_pair {b1 : Byte} (h : Config.escMin ≤ b1) (b2 : Byte) :
    decode (.esc (b1 ++ b2)) = .ok (decodePair b1 b2) := by
  rw [decode, extract_first_byte, extract_second_byte, if_pos h]

theorem decode_escWord (c : BitVec 4) (dd : BitVec 2) (e : BitVec 7) :
    decode (.esc (escWord c dd e)) = .ok (escRow c dd e) := by
  rw [escWord_eq_append, decode_pair (escMin_le_escFirst c dd), decodePair_valid _ (escSecond_msb e),
    escCommand_escFirst, escHigh_escFirst, escLow_escSecond]

/-- A word that decodes is a pair whose first byte is a prefix. -/
theorem exists_of_decode_esc {w : BitVec 16} {i : Instr} (h : decode (.esc w) = .ok i) :
    ∃ b1 b2, Config.escMin ≤ b1 ∧ w = b1 ++ b2 ∧ i = decodePair b1 b2 := by
  rw [decode] at h
  split at h
  · next hb => cases h; exact ⟨_, _, hb, (append_pair_bytes w).symm, rfl⟩
  · cases h

/-! ### Format FSM (R61) -/

theorem decodeFsm_code (q : FsmState) (b : Byte) : decodeFsm q.code b = some (decodeState q b) := by
  rw [decodeFsm, FsmState.ofCode_code]; rfl

theorem decode_fsmWord (q : FsmState) (b : Byte) : decode (.fsm (fsmWord q b)) = .ok (decodeState q b) := by
  rw [decode, fsmWord, extract_state, extract_logical_byte, decodeFsm_code]

theorem decode_fsmWord_of {q : FsmState} {b : Byte} {i : Instr} (h : decodeState q b = i) :
    decode (.fsm (fsmWord q b)) = .ok i :=
  h ▸ decode_fsmWord q b

/-- A word that decodes is a decode word of one of the ten states. -/
theorem exists_of_decode_fsm {w : BitVec 12} {i : Instr} (h : decode (.fsm w) = .ok i) :
    ∃ q b, w = fsmWord q b ∧ i = decodeState q b := by
  rcases hq : FsmState.ofCode (w.extractLsb' 8 4) with _ | q
  · simp [decode, decodeFsm, hq] at h
  · have hw : w = fsmWord q (w.extractLsb' 0 8) := by
      rw [fsmWord, ← FsmState.code_of_ofCode hq, append_fsm_fields]
    refine ⟨q, _, hw, ?_⟩
    rw [hw, decode_fsmWord] at h
    exact (Except.ok.inj h).symm

/-- A length below the default `MAX_LEN` is the four bits that the OK_LO rows keep. -/
theorem zero_append_setWidth_four {b : Byte} (h : b < Config.maxLenByte) : 0#4 ++ b.setWidth 4 = b := by
  decide +revert

theorem setWidth_eight_setWidth_four {b : Byte} (h : b < Config.maxLenByte) : (b.setWidth 4).setWidth 8 = b := by
  decide +revert

theorem setWidth_four_zero_append (n : BitVec 4) : (0#4 ++ n : Byte).setWidth 4 = n := by
  decide +revert

theorem zero_append_lt_maxLenByte (n : BitVec 4) : (0#4 ++ n : Byte) < Config.maxLenByte := by
  decide +revert

/-- A length that is not up to the default `MAX_LEN` is past it. -/
theorem maxLenByte_lt {b : Byte} (hne : ¬ b = Config.maxLenByte) (hlt : ¬ b < Config.maxLenByte) :
    Config.maxLenByte < b := by
  decide +revert

/-- The three length rows, as the two states that read a length choose among them. -/
theorem lengthRow_ok {α : Type} (n : BitVec 4) (ok16 : α) (okLo : BitVec 4 → α) (bad : Byte → α) :
    (if (0#4 ++ n : Byte) = Config.maxLenByte then ok16
      else if (0#4 ++ n : Byte) < Config.maxLenByte then okLo ((0#4 ++ n : Byte).setWidth 4)
      else bad (0#4 ++ n)) = okLo n := by
  have h := zero_append_lt_maxLenByte n
  rw [if_neg (BitVec.ne_of_lt h), if_pos h, setWidth_four_zero_append]

theorem lengthRow_bad {α : Type} {b : Byte} (h : Config.maxLenByte < b) (ok16 : α) (okLo : BitVec 4 → α)
    (bad : Byte → α) :
    (if b = Config.maxLenByte then ok16 else if b < Config.maxLenByte then okLo (b.setWidth 4) else bad b) = bad b := by
  rw [if_neg (BitVec.ne_of_lt h).symm, if_neg (BitVec.not_lt.mpr (BitVec.le_of_lt h))]

/-! ### Formats PATTERN and DTYPE (R64, R65) -/

theorem decodePattern_literal {p : Text} (h : isLiteralText p = true) (value : Text) :
    decodePattern (some p) value = .patLiteral p value := by
  simp only [isLiteralText, Bool.and_eq_true, decide_eq_true_eq] at h
  obtain ⟨hstar, hcaret⟩ := h
  unfold decodePattern
  split
  · next hp => cases hp
  · next hp => exact absurd (Option.some.inj hp) hstar
  · next hp => cases hp; exact absurd rfl hcaret
  · next hp => cases hp; rfl

theorem isSupportedType_eq_true_iff (ty : Text) :
    isSupportedType ty = true ↔ ty = Config.typeU8 ∨ ty = Config.typeU16le ∨ ty = Config.typeU16be := by
  simp [isSupportedType, or_assoc]

theorem decodeType_unsupported {ty : Text} (h : isSupportedType ty = false) (site : FieldSite) (pay : List Byte) :
    decodeType Constants.default ty site pay = .typeUnsupported site ty := by
  have hty := (isSupportedType_eq_true_iff ty).not.mp (by simp [h])
  obtain ⟨h8, hle, hbe⟩ : ty ≠ Config.typeU8 ∧ ty ≠ Config.typeU16le ∧ ty ≠ Config.typeU16be := by
    simpa only [not_or] using hty
  exact (if_neg h8).trans ((if_neg hle).trans (if_neg hbe))

/-! ### Every well-formed instruction is what its code decodes to -/

/-- Settles O47, by the rows: each row's code is a word of its format, and the operand's range selects the row again. -/
theorem decodeOfEncode : Obligations.DecodeOfEncode := by
  intro i hwf
  cases i with
  | feed bytes => rfl
  | reset => rfl
  | rawPlainLo b =>
    have hb : b < 0x80#8 := of_decide_eq_true hwf
    exact decode_raw ((decodeRaw_plain (BitVec.lt_trans hb (by decide))).trans (if_pos hb))
  | rawPlainHi b =>
    obtain ⟨hlo, hhi⟩ : 0x80#8 ≤ b ∧ b < Config.escMin := by simpa [Instr.wf] using hwf
    exact decode_raw ((decodeRaw_plain hhi).trans (if_neg (BitVec.not_lt.mpr hlo)))
  | rawEscPrefix b => exact decode_raw (decodeRaw_prefix (of_decide_eq_true hwf))
  | escFramingError b1 b2 =>
    obtain ⟨h1, h2⟩ : Config.escMin ≤ b1 ∧ b2 < 0x80#8 := by simpa [Instr.wf] using hwf
    have hmsb : b2.msb = false := BitVec.msb_eq_false_iff_two_mul_lt.mpr (by bv_omega)
    rw [encode, decode_pair h1, decodePair_framing b1 hmsb]
  | escReceived dd e => exact decode_escWord 1 dd e
  | escResetted dd e => exact decode_escWord 0 dd e
  | escStarted dd e => exact decode_escWord 2 dd e
  | escInfo dd e => exact decode_escWord 3 dd e
  | escUnknown4 dd e => exact decode_escWord 4 dd e
  | escUnknown5 dd e => exact decode_escWord 5 dd e
  | escUnknown6 dd e => exact decode_escWord 6 dd e
  | escUnknown7 dd e => exact decode_escWord 7 dd e
  | escUnknown8 dd e => exact decode_escWord 8 dd e
  | escUnknown9 dd e => exact decode_escWord 9 dd e
  | escFailed dd e => exact decode_escWord 10 dd e
  | escErrorEbus dd e => exact decode_escWord 11 dd e
  | escErrorHost dd e => exact decode_escWord 12 dd e
  | escUnknownD dd e => exact decode_escWord 13 dd e
  | escUnknownE dd e => exact decode_escWord 14 dd e
  | escUnknownF dd e => exact decode_escWord 15 dd e
  | fsmWaitSynSyn => exact decode_fsmWord_of rfl
  | fsmWaitSynOther b => exact decode_fsmWord_of (if_neg (of_decide_eq_true hwf))
  | fsmWaitSrcSyn => exact decode_fsmWord_of rfl
  | fsmWaitSrcOther b => exact decode_fsmWord_of (if_neg (of_decide_eq_true hwf))
  | fsmWaitDestAny b => exact decode_fsmWord .waitDest b
  | fsmWaitCmdHiAny b => exact decode_fsmWord .waitCmdHi b
  | fsmWaitCmdLoAny b => exact decode_fsmWord .waitCmdLo b
  | fsmWaitLenOkLo n => exact decode_fsmWord_of (lengthRow_ok ..)
  | fsmWaitLenOk16 => exact decode_fsmWord_of rfl
  | fsmWaitLenBad b => exact decode_fsmWord_of (lengthRow_bad (of_decide_eq_true hwf) ..)
  | fsmWaitDataAny b => exact decode_fsmWord .waitData b
  | fsmWaitCrcAny b => exact decode_fsmWord .waitCrc b
  | fsmWaitAckAck => exact decode_fsmWord_of rfl
  | fsmWaitAckNack => exact decode_fsmWord_of rfl
  | fsmWaitAckSyn => exact decode_fsmWord_of rfl
  | fsmWaitAckOther b =>
    obtain ⟨hack, hnack, hsyn⟩ : b ≠ Config.ack ∧ b ≠ Config.nack ∧ b ≠ Config.syn := by
      simpa [Instr.wf, and_assoc] using hwf
    exact decode_fsmWord_of ((if_neg hack).trans ((if_neg hnack).trans (if_neg hsyn)))
  | fsmWaitRspSyn => exact decode_fsmWord_of rfl
  | fsmWaitRspOkLo n =>
    have hsyn : (0#4 ++ n : Byte) ≠ Config.syn :=
      BitVec.ne_of_lt (BitVec.lt_trans (zero_append_lt_maxLenByte n) (by decide))
    exact decode_fsmWord_of ((if_neg hsyn).trans (lengthRow_ok ..))
  | fsmWaitRspOk16 => exact decode_fsmWord_of rfl
  | fsmWaitRspBad b =>
    obtain ⟨hlen, hsyn⟩ : Config.maxLenByte < b ∧ b ≠ Config.syn := by simpa [Instr.wf] using hwf
    exact decode_fsmWord_of ((if_neg hsyn).trans (lengthRow_bad hlen ..))
  | crc8 r b => rfl
  | checksum bytes => rfl
  | patAny v => rfl
  | patPrefix q v => rfl
  | patLiteral p v => exact congrArg Except.ok (decodePattern_literal hwf v)
  | patAbsent v => rfl
  | typeU8 site pay => rfl
  | typeU16le site pay => rfl
  | typeU16be site pay => rfl
  | typeUnsupported site ty =>
    have hty : isSupportedType ty = false := by simpa [Instr.wf] using hwf
    exact congrArg Except.ok (decodeType_unsupported hty site [])

/-! ### What the decoder gives is well-formed and has the code it was read from -/

/-- `i` is a symbol of its row, and `c` is its code. -/
structure IsSymbolOf (i : Instr) (c : Code) : Prop where
  wf : i.wf = true
  code : encode i = c

/-- Both rows of a guard have the code, each where its side of the guard holds. -/
theorem IsSymbolOf.ite {p : Prop} [Decidable p] {i j : Instr} {c : Code} (h : p → IsSymbolOf i c)
    (h' : ¬ p → IsSymbolOf j c) : IsSymbolOf (if p then i else j) c := by
  split
  · next hp => exact h hp
  · next hp => exact h' hp

theorem isSymbolOf_decodeRaw (b : Byte) : IsSymbolOf (decodeRaw Constants.default b) (.raw b) :=
  .ite (fun hesc => ⟨decide_eq_true hesc, rfl⟩) fun hesc =>
    have hhi : b < Config.escMin := BitVec.not_le.mp hesc
    .ite (fun hlo => ⟨decide_eq_true hlo, rfl⟩) fun hlo =>
      ⟨by simpa [Instr.wf] using And.intro (BitVec.not_lt.mp hlo) hhi, rfl⟩

theorem isSymbolOf_escRow (c : BitVec 4) (dd : BitVec 2) (e : BitVec 7) :
    IsSymbolOf (escRow c dd e) (.esc (escWord c dd e)) := by
  have row : ∀ k : Fin 16, IsSymbolOf (escRow (.ofFin k) dd e) (.esc (escWord (.ofFin k) dd e)) := by
    intro k
    fin_cases k <;> exact ⟨rfl, rfl⟩
  exact row c.toFin

theorem isSymbolOf_decodePair {b1 : Byte} (h : Config.escMin ≤ b1) (b2 : Byte) :
    IsSymbolOf (decodePair b1 b2) (.esc (b1 ++ b2)) := by
  cases hb : b2.msb
  case false =>
    have h2 : b2 < 0x80#8 := by
      have := BitVec.msb_eq_false_iff_two_mul_lt.mp hb
      bv_omega
    rw [decodePair_framing b1 hb]
    exact ⟨by simpa [Instr.wf] using And.intro h h2, rfl⟩
  case true =>
    have hw : escWord (escCommand b1) (escHigh b1) (escLow b2) = b1 ++ b2 := by
      rw [escWord_eq_append, escFirst_fields h, escSecond_fields hb]
    rw [decodePair_valid b1 hb, ← hw]
    exact isSymbolOf_escRow _ _ _

theorem isSymbolOf_decodeWaitLen (b : Byte) : IsSymbolOf (decodeWaitLen b) (.fsm (fsmWord .waitLen b)) :=
  .ite (fun heq => ⟨rfl, by rw [heq]; rfl⟩) fun hne =>
    .ite (fun hlt => ⟨rfl, by rw [encode, zero_append_setWidth_four hlt]⟩) fun hlt =>
      ⟨decide_eq_true (maxLenByte_lt hne hlt), rfl⟩

theorem isSymbolOf_decodeWaitRsp {b : Byte} (hsyn : ¬ b = Config.syn) :
    IsSymbolOf (decodeWaitRsp b) (.fsm (fsmWord .waitResponse b)) :=
  .ite (fun heq => ⟨rfl, by rw [heq]; rfl⟩) fun hne =>
    .ite (fun hlt => ⟨rfl, by rw [encode, zero_append_setWidth_four hlt]⟩) fun hlt =>
      ⟨by simpa [Instr.wf] using And.intro (maxLenByte_lt hne hlt) hsyn, rfl⟩

theorem isSymbolOf_decodeState (q : FsmState) (b : Byte) : IsSymbolOf (decodeState q b) (.fsm (fsmWord q b)) := by
  cases q with
  | waitSyn => exact .ite (fun heq => ⟨rfl, by rw [heq]; rfl⟩) fun hne => ⟨decide_eq_true hne, rfl⟩
  | waitSrc => exact .ite (fun heq => ⟨rfl, by rw [heq]; rfl⟩) fun hne => ⟨decide_eq_true hne, rfl⟩
  | waitDest => exact ⟨rfl, rfl⟩
  | waitCmdHi => exact ⟨rfl, rfl⟩
  | waitCmdLo => exact ⟨rfl, rfl⟩
  | waitLen => exact isSymbolOf_decodeWaitLen b
  | waitData => exact ⟨rfl, rfl⟩
  | waitCrc => exact ⟨rfl, rfl⟩
  | waitAck =>
    exact .ite (fun heq => ⟨rfl, by rw [heq]; rfl⟩) fun hack =>
      .ite (fun heq => ⟨rfl, by rw [heq]; rfl⟩) fun hnack =>
        .ite (fun heq => ⟨rfl, by rw [heq]; rfl⟩) fun hsyn =>
          ⟨by simp [Instr.wf, hack, hnack, hsyn], rfl⟩
  | waitResponse => exact .ite (fun heq => ⟨rfl, by rw [heq]; rfl⟩) isSymbolOf_decodeWaitRsp

theorem isSymbolOf_decodePattern (p : Option Text) (value : Text) :
    IsSymbolOf (decodePattern p value) (.pattern p value) := by
  unfold decodePattern
  split
  · exact ⟨rfl, rfl⟩
  · exact ⟨rfl, rfl⟩
  · exact ⟨rfl, rfl⟩
  · next p hstar hcaret =>
    have hp : p.head? ≠ some '^' := fun h => by
      obtain ⟨q, rfl⟩ := List.head?_eq_some_iff.mp h
      exact hcaret q rfl
    exact ⟨by simp [Instr.wf, isLiteralText, hp, show p ≠ ['*'] from hstar], rfl⟩

theorem isSymbolOf_decodeType {ty : Text} (h : isSupportedType ty = true) (site : FieldSite) (pay : List Byte) :
    IsSymbolOf (decodeType Constants.default ty site pay) (.dataType ty site pay) := by
  rcases (isSupportedType_eq_true_iff ty).mp h with rfl | rfl | rfl
  · exact ⟨rfl, rfl⟩
  · exact ⟨rfl, rfl⟩
  · exact ⟨rfl, rfl⟩

/-- What of a code its row reads: all of it, but for the payload of an unsupported type. -/
def codeRead : Code → Code
  | .dataType ty site pay => .dataType ty site (if isSupportedType ty then pay else [])
  | c => c

/-- In every format the decoder gives a symbol whose code is what its row read. -/
theorem isSymbolOf_of_decode {c : Code} {i : Instr} (h : decode c = .ok i) : IsSymbolOf i (codeRead c) := by
  cases c with
  | raw b => cases h; exact isSymbolOf_decodeRaw b
  | esc w =>
    obtain ⟨b1, b2, h1, rfl, rfl⟩ := exists_of_decode_esc h
    exact isSymbolOf_decodePair h1 b2
  | fsm w =>
    obtain ⟨q, b, rfl, rfl⟩ := exists_of_decode_fsm h
    exact isSymbolOf_decodeState q b
  | feed bytes => cases h; exact ⟨rfl, rfl⟩
  | reset => cases h; exact ⟨rfl, rfl⟩
  | crc8 r b => cases h; exact ⟨rfl, rfl⟩
  | checksum bytes => cases h; exact ⟨rfl, rfl⟩
  | pattern p v => cases h; exact isSymbolOf_decodePattern p v
  | dataType ty site pay =>
    cases h
    cases hty : isSupportedType ty
    case false =>
      rw [decodeType_unsupported hty, codeRead, hty]
      exact ⟨by simp [Instr.wf, hty], rfl⟩
    case true =>
      rw [codeRead, hty]
      exact isSymbolOf_decodeType hty site pay

/-- The row reads all of a code that is no data-type code or one of a supported type. -/
theorem codeRead_eq_self {c : Code} (h : ∀ ty site pay, c = .dataType ty site pay → isSupportedType ty = true) :
    codeRead c = c := by
  cases c with
  | dataType ty site pay => rw [codeRead, h ty site pay rfl]; rfl
  | _ => rfl

/-- Settles O48: an instruction's code is what its row read of the code it was decoded from. -/
theorem encodeOfDecode : Obligations.EncodeOfDecode := by
  intro c i h
  obtain ⟨hwf, hcode⟩ := isSymbolOf_of_decode h
  refine ⟨hwf, fun hty => hcode.trans (codeRead_eq_self hty), ?_⟩
  rintro ty site pay rfl hty
  rw [hcode, codeRead, hty]
  rfl

/-- Settles O46: the decoder is run on each word. -/
theorem writtenOutWordsDecode : Obligations.WrittenOutWordsDecode := by
  unfold Obligations.WrittenOutWordsDecode
  decide

end Sys2Proof.Proofs
end

