-- ==== Sys2Proof/Proofs/SelectedRow.lean ====
section
/-! PROOFS. The state machine's transition is the row that the state and the byte select: with the constants at their
defaults the row the decoder gives, with any constants the row whose guard holds for them (O23). -/

namespace Sys2Proof.Proofs
open Sys2Proof Sys2Proof.Machine

section Rows
variable (b : Byte) (s : State)

/-! ### An accepted length, written out (R98, R110) -/

/-- The state register's value after a length byte. -/
theorem afterLength_code (p : Prop) [Decidable p] :
    (if p then FsmState.waitCrc else .waitData).code = if p then (7 : BitVec 4) else 6 :=
  apply_ite FsmState.code p ..

theorem acceptLength_eq :
    s.acceptLength b =
      if s.gotResponse then
        { s with rsp.len := b, remaining := b.setWidth 5, st := if b = 0 then 7 else 6 }
      else { s with req.len := b, remaining := b.setWidth 5, st := if b = 0 then 7 else 6 } := by
  cases hg : s.gotResponse
  case false => rw [acceptLength_req_active b hg, afterLength_code]; simp [hg]
  case true => rw [acceptLength_rsp_active b hg, afterLength_code]; simp [hg]

theorem noteResponse_acceptLength_eq :
    s.noteResponse.acceptLength b =
      { s with gotResponse := true, rsp.len := b, remaining := b.setWidth 5, st := if b = 0 then 7 else 6 } := by
  rw [acceptLength_rsp_active b rfl, afterLength_code]; rfl

/-! ### The length rows and the decoder's (R97, R98, R110, R111) -/

/-- With the default `MAX_LEN` the three length rows of a state do what the state's guards do, when its OK rows accept a
length by `accept` and its BAD row drops the telegram by `drop`. -/
theorem exec_lengthRow {okLo : BitVec 4 → Instr} {ok16 : Instr} {bad : Byte → Instr} {accept drop : Byte → Result}
    (hlo : ∀ n, exec (okLo n) s = accept (n.setWidth 8)) (h16 : exec ok16 s = accept Config.maxLenByte)
    (hbad : exec (bad b) s = drop b) :
    exec (if b = Config.maxLenByte then ok16 else if b < Config.maxLenByte then okLo (b.setWidth 4) else bad b) s =
      if b ≤ Config.maxLenByte then accept b else drop b := by
  by_cases heq : b = Config.maxLenByte
  · rw [if_pos heq, if_pos (BitVec.le_of_eq heq), h16, heq]
  rw [if_neg heq]
  by_cases hlt : b < Config.maxLenByte
  · rw [if_pos hlt, if_pos (BitVec.le_of_lt hlt), hlo, setWidth_eight_setWidth_four hlt]
  · rw [if_neg hlt, if_neg (BitVec.not_le.mpr (maxLenByte_lt heq hlt)), hbad]

section Default
variable {s} (hc : s.params.toConstants = Constants.default)
include hc

theorem exec_decodeWaitLen : exec (decodeWaitLen b) s = fsmWaitLen b s := by
  rw [fsmWaitLen, hc]
  exact exec_lengthRow (accept := fun b => .next (s.acceptLength b)) (drop := fun b => execFsmWaitLenBad b s) b s
    (fun _ => rfl) rfl rfl

theorem exec_decodeWaitRsp :
    exec (decodeWaitRsp b) s =
      if b ≤ s.params.maxLenByte then .next (s.noteResponse.acceptLength b) else execFsmWaitRspBad b s := by
  rw [hc]
  exact exec_lengthRow (accept := fun b => .next (s.noteResponse.acceptLength b))
    (drop := fun b => execFsmWaitRspBad b s) b s (fun _ => rfl) rfl rfl

/-! ### The row of a state and a byte (R61, R87) -/

/-- With the constants at their defaults the transition is the row the decoder gives for the state and the byte. -/
theorem fsm_eq_exec_decodeState {q : FsmState} (hq : FsmState.ofCode s.st = some q) :
    fsm b s = exec (decodeState q b) s := by
  have hsyn : s.params.syn = Config.syn := by rw [hc]; rfl
  have hack : s.params.ack = Config.ack := by rw [hc]; rfl
  have hnack : s.params.nack = Config.nack := by rw [hc]; rfl
  rw [fsm_of_ofCode b s hq]
  cases q with
  | waitSyn => simp only [decodeState, hsyn, apply_ite (exec · s)]; rfl
  | waitSrc => simp only [decodeState, hsyn, apply_ite (exec · s)]; rfl
  | waitDest => rfl
  | waitCmdHi => rfl
  | waitCmdLo => rfl
  | waitLen => exact (exec_decodeWaitLen b hc).symm
  | waitData => rfl
  | waitCrc => rfl
  | waitAck => simp only [decodeState, fsmWaitAck, hsyn, hack, hnack, apply_ite (exec · s)]; rfl
  | waitResponse =>
    simp only [decodeState, fsmWaitRsp, hsyn, apply_ite (exec · s), exec_decodeWaitRsp b hc]; rfl

theorem fsm_eq_exec_of_decode {i : Instr} (h : decode (.fsm (s.st ++ b)) = .ok i) : fsm b s = exec i s := by
  obtain ⟨q, b', hw, rfl⟩ := exists_of_decode_fsm h
  have hst : s.st = q.code := by simpa [fsmWord] using congrArg (BitVec.extractLsb' 8 4) hw
  have hb : b = b' := by simpa [fsmWord] using congrArg (BitVec.extractLsb' 0 8) hw
  rw [hb]
  exact fsm_eq_exec_decodeState b' hc (hst ▸ q.ofCode_code)

end Default

/-! ### Any constants -/

/-- R97, R98, with the guard on the numbers. -/
theorem fsmWaitLen_eq :
    fsmWaitLen b s =
      if b.toNat ≤ s.params.maxLen.toNat then .next (s.acceptLength b) else exec (.fsmWaitLenBad b) s := by
  simp only [fsmWaitLen, le_maxLenByte_iff]; rfl

/-- R109 to R111, with the guard on the numbers. -/
theorem fsmWaitRsp_eq :
    fsmWaitRsp b s =
      if b = s.params.syn then exec .fsmWaitRspSyn s
      else if b.toNat ≤ s.params.maxLen.toNat then .next (s.noteResponse.acceptLength b)
      else exec (.fsmWaitRspBad b) s := by
  simp only [fsmWaitRsp, le_maxLenByte_iff]; rfl

end Rows

/-- Settles O23, state by state. -/
theorem fsmRunsTheSelectedRow : Obligations.FsmRunsTheSelectedRow := by
  intro b s
  have row (q : FsmState) (h : s.st = q.code) := fsm_of_ofCode b s (h ▸ q.ofCode_code)
  refine ⟨fun hc i h => fsm_eq_exec_of_decode b hc h, row .waitSyn, row .waitSrc, row .waitDest, row .waitCmdHi,
    row .waitCmdLo, fun h => ?_, row .waitData, row .waitCrc, row .waitAck, fun h => ?_⟩
  · rw [row .waitLen h, fsmWaitLen_eq, acceptLength_eq]
  · rw [row .waitResponse h, fsmWaitRsp_eq, noteResponse_acceptLength_eq]

end Sys2Proof.Proofs
end

