-- ==== Sys2Proof/Proofs/Crc8.lean ====
section
/-! PROOFS. The CRC8 Engine: the rows of R71 and R72, the default table of R70, and why a single changed byte never goes
unnoticed (R76). With the running value fixed a step is injective in the byte; with the byte fixed a step under the
default table is injective in the running value, since each of the eight shifts that compute an entry can be undone. -/

namespace Sys2Proof.Proofs
open Sys2Proof Sys2Proof.Machine

/-- Settles O27. -/
theorem checksumFoldsTableSteps : Obligations.ChecksumFoldsTableSteps :=
  ⟨rfl, fun p => ⟨fun _ _ => rfl, crcFold_nil p, crcFold_snoc p⟩⟩

/-- Settles O28: the 256 printed entries, each evaluated. -/
theorem defaultTableIsThePolynomials : Obligations.DefaultTableIsThePolynomials := by
  unfold Obligations.DefaultTableIsThePolynomials
  decide +kernel

/-! ### The default table is injective -/

/-- 0x9B is odd, so a shift keeps the bit it moves out as the lowest bit of its result. -/
theorem crcShift_lowestBit (c : Byte) : (Config.crcShift c)[0] = c.msb := by
  by_cases h : c.msb <;> simp [Config.crcShift, h]

/-- A shift to the left by one loses the highest bit and no other. -/
theorem eq_of_msb_eq_of_shiftLeft_eq {c d : Byte} (hmsb : c.msb = d.msb) (hshift : c <<< 1 = d <<< 1) : c = d := by
  ext i hi
  by_cases htop : i = 7
  · subst htop
    simpa [BitVec.msb_eq_getLsbD_last] using hmsb
  · have hbit : (c <<< 1).getLsbD (i + 1) = (d <<< 1).getLsbD (i + 1) := by rw [hshift]
    simpa [show i + 1 < 8 by omega] using hbit

theorem crcShift_injective : Function.Injective Config.crcShift := by
  intro c d h
  have hmsb : c.msb = d.msb := by rw [← crcShift_lowestBit, h, crcShift_lowestBit]
  refine eq_of_msb_eq_of_shiftLeft_eq hmsb ?_
  by_cases hd : d.msb <;> simpa [Config.crcShift, hmsb, hd] using h

theorem crcEntry_injective : Function.Injective Config.crcEntry :=
  crcShift_injective.iterate 8

theorem crcStep_default_eq_crcEntry_xor (r b : Byte) : crcStep Config.crcTable r b = Config.crcEntry r ^^^ b :=
  congrArg (· ^^^ b) (defaultTableIsThePolynomials r.toFin)

/-- With the byte fixed, a step under the default table is injective in the running value. -/
theorem crcStep_default_injective (b : Byte) : Function.Injective (crcStep Config.crcTable · b) := by
  intro r r' h
  simp only [crcStep_default_eq_crcEntry_xor, BitVec.xor_left_inj] at h
  exact crcEntry_injective h

/-! ### A single changed byte -/

/-- Two running values that differ stay different whatever bytes follow. -/
theorem foldl_crcStep_default_injective (ys : List Byte) :
    Function.Injective (ys.foldl (crcStep Config.crcTable)) := by
  induction ys with
  | nil => exact Function.injective_id
  | cons y ys ih => exact ih.comp (crcStep_default_injective y)

/-- Settles O29: the steps at the changed byte differ, and the bytes after it keep the running values apart. -/
theorem singleByteChangesChecksum : Obligations.SingleByteChangesChecksum := by
  intro p xs ys b c htable hbc hsum
  simp only [crcFold_append, List.foldl_cons, htable] at hsum
  have hstep := foldl_crcStep_default_injective ys hsum
  exact hbc (crcStep_byte_injective _ _ hstep)

/-! ### Rows of format OP and PATTERN -/

/-- Settles O30: each row is `setUnit` of its rule's result, and `setUnit` writes `unitOut` alone. -/
theorem opAndPatternRowsLatchTheirResult : Obligations.OpAndPatternRowsLatchTheirResult :=
  fun _ _ _ _ _ _ => ⟨rfl, rfl, rfl, rfl, rfl, rfl⟩

end Sys2Proof.Proofs
end

