-- ==== Sys2Proof/Proofs/Deframer.lean ====
section
/-! PROOFS. The Deframer: the Host's feed (O1), the rows of formats RAW and ESC (O5 to O8, O10), and the Core step as
the spec's pseudocode (O50). The sixteen rows of valid pairs are one row with the command as an operand, `escRow`, and
its meaning is `takePair`. -/

namespace Sys2Proof.Proofs
open Sys2Proof Sys2Proof.Machine

theorem CompletesLegal.completes {r : Result} (h : CompletesLegal r) : ∃ t, r = .next t :=
  h.imp fun _ => And.left

/-! ### The Host's feed (R77) -/

/-- With no capacity, or with one that the chunk keeps to, there is room for all of it. -/
theorem roomFor_eq_length {s : State} {bytes : List Byte}
    (h : ∀ cap, s.params.inQueueCap = some cap → s.inQ.length + bytes.length ≤ cap) :
    s.roomFor bytes = bytes.length := by
  cases hcap : s.params.inQueueCap with
  | none => exact s.roomFor_unbounded bytes hcap
  | some cap =>
    have hfits := h cap hcap
    rw [roomFor_of_cap hcap]
    omega

/-- Settles O1: a chunk the queue has room for joins it whole. -/
theorem feedAppendsChunk : Obligations.FeedAppendsChunk :=
  fun bytes s h => (exec_feed bytes s).trans (execFeed_of_room (roomFor_eq_length h))

/-! ### Rows of format RAW (R80, R81) -/

theorem exec_rawPlainLo (b : Byte) (s : State) : exec (.rawPlainLo b) s = fsm b s := rfl

theorem exec_rawPlainHi (b : Byte) (s : State) : exec (.rawPlainHi b) s = fsm b s := rfl

/-- Settles O5: both rows are the transition, which completes in a legal state. -/
theorem plainBytesGoToStateMachine : Obligations.PlainBytesGoToStateMachine := by
  intro b s
  refine ⟨exec_rawPlainLo b s, exec_rawPlainHi b s, fun hl => ?_⟩
  obtain ⟨t, ht⟩ := (fsm_completesLegal b hl).completes
  exact ⟨t, (exec_rawPlainLo b s).trans ht, (exec_rawPlainHi b s).trans ht, ht⟩

/-- Settles O6: the row is `setPend`, which writes `pend` alone. -/
theorem escPrefixIsHeld : Obligations.EscPrefixIsHeld := fun _ _ => rfl

/-! ### ESC_FRAMING_ERROR (R82) -/

theorem exec_escFramingError (b1 b2 : Byte) (s : State) :
    exec (.escFramingError b1 b2) s =
      fsm b2 { s with out := s.out ++ [.evt (.framingError b1 b2)], pend := none } := rfl

/-- Settles O7: reporting and discarding leave the state legal for the second byte. -/
theorem framingErrorResynchronises : Obligations.FramingErrorResynchronises := by
  intro b1 b2 s
  refine ⟨exec_escFramingError b1 b2 s, fun hl => ?_⟩
  rw [exec_escFramingError]
  exact (fsm_completesLegal b2 (s := { s with out := _, pend := none }) hl).completes

/-! ### The rows of valid pairs (R83 to R85) -/

section Pair
variable (c : BitVec 4) (dd : BitVec 2) (e : BitVec 7) (s : State)

/-- What a valid pair does, with its next states written out. -/
theorem takePair_eq :
    takePair c dd e s =
      if c = s.params.cmdReceived then fsm (escapeData dd e) { s with pend := none }
      else .next { s with
        pend := none, out := s.out ++ [.evt (.adapterStatus c (escapeData dd e) (statusLabel c))] } := rfl

/-- The row of command `c` is what its bytes decode to, so it does what a pair of that command does. -/
theorem exec_escRow : exec (escRow c dd e) s = takePair c dd e s := by
  have hvalid := escSecond_msb e
  simpa only [decodePair_valid _ hvalid, escCommand_escFirst, escHigh_escFirst, escLow_escSecond] using
    exec_decodePair (b1 := escFirst c dd) hvalid s

/-- R84, for the row of any command. -/
theorem exec_escRow_forwards (hc : c = s.params.cmdReceived) :
    exec (escRow c dd e) s = fsm (escapeData dd e) { s with pend := none } ∧
      (s.Legal → ∃ t, exec (escRow c dd e) s = .next t) := by
  rw [exec_escRow, takePair_eq, if_pos hc]
  exact ⟨rfl, fun hl => (fsm_completesLegal _ (s := { s with pend := none }) hl).completes⟩

/-- R85, for the row of any command. -/
theorem exec_escRow_status (hc : c ≠ s.params.cmdReceived) :
    exec (escRow c dd e) s = .next { s with
      pend := none, out := s.out ++ [.evt (.adapterStatus c (escapeData dd e) (statusLabel c))] } := by
  rw [exec_escRow, takePair_eq, if_neg hc]

end Pair

/-- Settles O8: each row is `escRow` of its command. -/
theorem receivedPairForwardsByte : Obligations.ReceivedPairForwardsByte := by
  intro dd e s
  have row (c : BitVec 4) := exec_escRow_forwards c dd e s
  exact ⟨row 1, row 0, row 2, row 3, row 4, row 5, row 6, row 7, row 8, row 9, row 10, row 11, row 12, row 13, row 14,
    row 15⟩

/-- Settles O10: each row is `escRow` of its command. -/
theorem statusPairsAreNeverForwarded : Obligations.StatusPairsAreNeverForwarded := by
  intro dd e s
  have row (c : BitVec 4) := exec_escRow_status c dd e s
  exact ⟨row 0, row 2, row 3, row 4, row 5, row 6, row 7, row 8, row 9, row 10, row 11, row 12, row 13, row 14,
    row 15, row 1⟩

/-! ### The Core step (R78) -/

/-- The data byte by the source's formula over the integers, whatever prefix is held: what lies below 0xC0 is lost mod
256. -/
theorem escapeData_eq_ofInt (b1 : Byte) {b2 : Byte} (h : b2.msb = true) :
    escapeData (escHigh b1) (escLow b2) =
      BitVec.ofInt 8 (((b1.toNat : ℤ) - 0xC0) * 2 ^ 6 + ((b2.toNat : ℤ) - 0x80)) := by
  have hb2 : 128 ≤ b2.toNat := by simpa using BitVec.toNat_ge_of_msb_true h
  apply BitVec.eq_of_toNat_eq
  rw [escapeData_toNat, escHigh_toNat, escLow_toNat, BitVec.toNat_ofInt]
  omega

section Symbol
variable (b : Byte) (s : State)

/-- With no prefix held. -/
theorem exec_decodeStream_none :
    exec (decodeStream s.params.toConstants none b) s =
      if b.toNat < s.params.escMin.toNat then fsm b s else .next (s.setPend (some b)) := by
  rw [decodeStream_none, exec_decodeRaw, ← ite_not]
  simp only [BitVec.not_le, BitVec.lt_def]

/-- With the prefix `b1` held. -/
theorem exec_decodeStream_some (b1 : Byte) :
    exec (decodeStream s.params.toConstants (some b1) b) s =
      if b.getLsbD 7 = false then fsm b ((s.raise (.framingError b1 b)).setPend none)
      else
        let c : BitVec 4 := b1.extractLsb' 2 4
        let d : Byte := BitVec.ofInt 8 (((b1.toNat : ℤ) - 0xC0) * 2 ^ 6 + ((b.toNat : ℤ) - 0x80))
        if c = s.params.cmdReceived then fsm d (s.setPend none)
        else .next ((s.setPend none).raise (.adapterStatus c d (statusLabel c))) := by
  have hmsb : b.msb = b.getLsbD 7 := BitVec.msb_eq_getLsbD_last b
  rw [decodeStream_some]
  cases hb : b.getLsbD 7
  case false => exact exec_decodePair_framing s b1 (hmsb.trans hb)
  case true =>
    have hvalid : b.msb = true := hmsb.trans hb
    rw [exec_decodePair hvalid, takePair_eq, escapeData_eq_ofInt b1 hvalid]
    rfl

end Symbol

/-- Settles O50, by whether a prefix is held. -/
theorem coreStepFollowsPseudocode : Obligations.CoreStepFollowsPseudocode := by
  intro s rest b q ht hq hl u
  have runs {p : Option Byte} (hp : s.pend = p) : step s = exec (decodeStream s.params.toConstants p b) u := by
    rw [← hp]
    exact step_coreTurn_cons ht hq hl
  cases hp : s.pend with
  | none => exact (runs hp).trans (exec_decodeStream_none b u)
  | some b1 => exact (runs hp).trans (exec_decodeStream_some b u b1)

end Sys2Proof.Proofs
end

