-- ==== Sys2Proof/Proofs/TelegramRows.lean ====
section
/-! PROOFS. The rows of format FSM, each as an equation of the next state (O13 to O22). A telegram ends in one of three
ways, by a drop, by an event and a drop, or by an emit, and all three are `State.ended`. -/

namespace Sys2Proof.Proofs
open Sys2Proof Sys2Proof.Machine

/-! ### The end of a telegram, written out (R88, R89, R148) -/

section Ended
variable (s : State) (q : FsmState)

theorem telegram_eq_held : s.telegram = s.held := rfl

/-- A drop with no event. -/
theorem dropTelegram_eq_ended : s.dropTelegram q = s.ended [] q.code := by
  rw [State.ended, List.append_nil]; rfl

/-- A drop after the event that reports its cause. -/
theorem raise_dropTelegram_eq_ended (e : Event) : (s.raise e).dropTelegram q = s.ended [.evt e] q.code := rfl

theorem emit_eq_ended : s.emit q = s.ended s.emitted q.code := by
  rw [State.emit, telegram_eq_held]; rfl

end Ended

/-! ### WaitSYN to WaitCmdLo -/

section Head
variable {b : Byte} {s : State}

/-- Going to the state it is in changes nothing. -/
theorem goto_of_st_eq {q : FsmState} (h : s.st = q.code) : s.goto q = s := by
  rw [State.goto, ← h]

theorem noteDestination_of_eq (h : b = s.params.broadcast) :
    s.noteDestination b = { s with gotBroadcast := true } := by
  simp [State.noteDestination, h]

theorem noteDestination_of_ne (h : b ≠ s.params.broadcast) : s.noteDestination b = s := by
  simp [State.noteDestination, h]

end Head

theorem exec_fsmWaitSynOther (b : Byte) (s : State) : exec (.fsmWaitSynOther b) s = .next (s.goto .waitSyn) := rfl

theorem exec_fsmWaitSrcSyn (s : State) : exec .fsmWaitSrcSyn s = .next (s.goto .waitSrc) := rfl

/-- Settles O13: a row that leads where the machine already is leaves all of it unchanged. -/
theorem synchronisationRows : Obligations.SynchronisationRows := by
  intro b s
  refine ⟨rfl, rfl, fun h => ?_, rfl, fun h => ?_, rfl⟩
  · rw [exec_fsmWaitSynOther, goto_of_st_eq h]
  · rw [exec_fsmWaitSrcSyn, goto_of_st_eq h]

theorem exec_fsmWaitDestAny (b : Byte) (s : State) :
    exec (.fsmWaitDestAny b) s = .next ((({ s with req.dest := b } : State).noteDestination b).goto .waitCmdHi) := rfl

/-- Settles O14, by whether the destination is BROADCAST. -/
theorem destinationAndCommandRows : Obligations.DestinationAndCommandRows := by
  intro b s
  refine ⟨fun h => ?_, fun h => ?_, rfl, rfl⟩
  · rw [exec_fsmWaitDestAny, noteDestination_of_eq (s := { s with req.dest := b }) h]; rfl
  · rw [exec_fsmWaitDestAny, noteDestination_of_ne (s := { s with req.dest := b }) h]; rfl

/-! ### The length rows -/

section Length
variable (n : BitVec 4) (s : State)

/-- The four bits that the OK_LO rows have of a length say whether it is 0. -/
theorem setWidth_eight_eq_zero_iff : n.setWidth 8 = 0 ↔ n = 0 := by
  decide +revert

/-- The countdown starts at the length byte's low five bits, and an OK_LO length has four. -/
theorem setWidth_five_setWidth_eight : (n.setWidth 8).setWidth 5 = n.setWidth 5 :=
  BitVec.setWidth_setWidth_of_le n (by decide)

theorem exec_fsmWaitLenOkLo : exec (.fsmWaitLenOkLo n) s = .next (s.acceptLength (n.setWidth 8)) := rfl

theorem exec_fsmWaitLenOk16 : exec .fsmWaitLenOk16 s = .next (s.acceptLength Config.maxLenByte) := rfl

theorem exec_fsmWaitLenBad (b : Byte) :
    exec (.fsmWaitLenBad b) s = .next ((s.raise (.lengthViolation .req b)).dropTelegram .waitSyn) := rfl

theorem exec_fsmWaitRspOkLo :
    exec (.fsmWaitRspOkLo n) s = .next (s.noteResponse.acceptLength (n.setWidth 8)) := rfl

theorem exec_fsmWaitRspOk16 : exec .fsmWaitRspOk16 s = .next (s.noteResponse.acceptLength Config.maxLenByte) := rfl

/-- The drop clears what `noteResponse` set. -/
theorem exec_fsmWaitRspBad (b : Byte) :
    exec (.fsmWaitRspBad b) s = .next ((s.raise (.lengthViolation .rsp b)).dropTelegram .waitSyn) := rfl

end Length

/-- Settles O15: an accepted length is written to the active half. -/
theorem requestLengthRows : Obligations.RequestLengthRows := by
  refine fun s => ⟨fun n => ?_, ?_, fun b => ?_⟩
  · rw [exec_fsmWaitLenOkLo, acceptLength_eq]
    simp only [setWidth_eight_eq_zero_iff, setWidth_five_setWidth_eight]
  · rw [exec_fsmWaitLenOk16, acceptLength_eq]; rfl
  · rw [exec_fsmWaitLenBad, raise_dropTelegram_eq_ended]; rfl

/-- Settles O22: an accepted Response length is written to the Response. -/
theorem responseLengthRows : Obligations.ResponseLengthRows := by
  refine fun s => ⟨fun n => ?_, ?_, fun b => ?_⟩
  · rw [exec_fsmWaitRspOkLo, noteResponse_acceptLength_eq]
    simp only [setWidth_eight_eq_zero_iff, setWidth_five_setWidth_eight]
  · rw [exec_fsmWaitRspOk16, noteResponse_acceptLength_eq]; rfl
  · rw [exec_fsmWaitRspBad, raise_dropTelegram_eq_ended]; rfl

/-! ### WaitData -/

/-- A data byte taken, written out (R99). -/
theorem takeData_eq (b : Byte) (s : State) :
    s.takeData b =
      if s.gotResponse then
        { s with rsp.payload := s.rsp.payload ++ [b], remaining := s.remaining - 1,
                 st := if s.remaining = 1 then 7 else 6 }
      else
        { s with req.payload := s.req.payload ++ [b], remaining := s.remaining - 1,
                 st := if s.remaining = 1 then 7 else 6 } := by
  have last : s.remaining - 1 = 0 ↔ s.remaining = 1 := sub_eq_zero
  cases hg : s.gotResponse
  case false => rw [takeData_req_active b hg, afterLength_code]; simp only [hg, last, Bool.false_eq_true, if_false]
  case true => rw [takeData_rsp_active b hg, afterLength_code]; simp only [hg, last, if_true]

theorem exec_fsmWaitDataAny (b : Byte) (s : State) :
    exec (.fsmWaitDataAny b) s = if s.remaining = 0 then exec (.fsmWaitCrcAny b) s else .next (s.takeData b) := rfl

/-- Settles O16, by whether a byte remains. -/
theorem dataRow : Obligations.DataRow := by
  refine fun b s => ⟨fun h => ?_, fun h => ?_⟩
  · rw [exec_fsmWaitDataAny, if_neg h, takeData_eq]
  · rw [exec_fsmWaitDataAny, if_pos h]

/-! ### WaitCRC -/

theorem activePart_req_active {s : State} (h : s.gotResponse = false) : s.activePart = .req := by
  simp [State.activePart, h]

theorem activePart_rsp_active {s : State} (h : s.gotResponse = true) : s.activePart = .rsp := by
  simp [State.activePart, h]

theorem exec_fsmWaitCrcAny (b : Byte) (s : State) : exec (.fsmWaitCrcAny b) s = .next (s.takeChecksum b) := rfl

section Checksum
variable (b : Byte) {s : State}

/-- R101. -/
theorem exec_fsmWaitCrcAny_of_eq (h : b = s.activeChecksum) :
    exec (.fsmWaitCrcAny b) s = .next ((s.setActiveCrc b).goto .waitAck) := by
  rw [exec_fsmWaitCrcAny, takeChecksum_match b h]

/-- R102. -/
theorem exec_fsmWaitCrcAny_of_ne (h : b ≠ s.activeChecksum) :
    exec (.fsmWaitCrcAny b) s = .next (s.ended [.evt (.checksumMismatch s.activePart s.activeChecksum b)] 0) := by
  rw [exec_fsmWaitCrcAny, takeChecksum_mismatch b h]; rfl

end Checksum

/-- Settles O17, by the active half and by whether the byte is its checksum. -/
theorem checksumRow : Obligations.ChecksumRow := by
  intro b s wantReq wantRsp
  refine ⟨fun hg => ?request, fun hg => ?response⟩
  case request =>
    have want : s.activeChecksum = wantReq := State.activeChecksum_req_active hg
    refine ⟨fun h => ?_, fun h => ?_⟩
    · rw [exec_fsmWaitCrcAny_of_eq b (h.trans want.symm), State.setActiveCrc_req_active b hg]; rfl
    · rw [exec_fsmWaitCrcAny_of_ne b (want ▸ h), activePart_req_active hg, want]
  case response =>
    have want : s.activeChecksum = wantRsp := State.activeChecksum_rsp_active hg
    refine ⟨fun h => ?_, fun h => ?_⟩
    · rw [exec_fsmWaitCrcAny_of_eq b (h.trans want.symm), State.setActiveCrc_rsp_active b hg]; rfl
    · rw [exec_fsmWaitCrcAny_of_ne b (want ▸ h), activePart_rsp_active hg, want]

/-! ### WaitAck and WaitResponse -/

section Ack
variable (s : State)

theorem exec_fsmWaitAckAck :
    exec .fsmWaitAckAck s = if s.gotResponse then .next (s.emit .waitSyn) else .next (s.noteAck.goto .waitResponse) :=
  rfl

theorem exec_fsmWaitAckSyn :
    exec .fsmWaitAckSyn s = if s.gotBroadcast then .next (s.emit .waitSrc) else .next (s.dropTelegram .waitSrc) := rfl

theorem exec_fsmWaitAckNack : exec .fsmWaitAckNack s = .next (s.dropTelegram .waitSyn) := rfl

theorem exec_fsmWaitAckOther (b : Byte) :
    exec (.fsmWaitAckOther b) s = .next ((s.raise (.protocolError b)).dropTelegram .waitSyn) := rfl

theorem exec_fsmWaitRspSyn : exec .fsmWaitRspSyn s = .next (s.emit .waitSyn) := rfl

end Ack

/-- Settles O18, by whether a Response was received. -/
theorem ackRow : Obligations.AckRow := by
  refine fun s => ⟨fun h => ?_, fun h => ?_⟩
  · rw [exec_fsmWaitAckAck, if_pos h, emit_eq_ended]; rfl
  · rw [exec_fsmWaitAckAck, if_neg (Bool.eq_false_iff.mp h)]; rfl

/-- Settles O19, by whether the telegram is a broadcast. -/
theorem synEndsBroadcastOrDrops : Obligations.SynEndsBroadcastOrDrops := by
  refine fun s => ⟨fun h => ?_, fun h => ?_⟩
  · rw [exec_fsmWaitAckSyn, if_pos h, emit_eq_ended]; rfl
  · rw [exec_fsmWaitAckSyn, if_neg (Bool.eq_false_iff.mp h), dropTelegram_eq_ended]; rfl

/-- Settles O20: a drop without an event, and one after it. -/
theorem nackAndOtherBytesDrop : Obligations.NackAndOtherBytesDrop := by
  refine fun b s => ⟨?_, ?_⟩
  · rw [exec_fsmWaitAckNack, dropTelegram_eq_ended]; rfl
  · rw [exec_fsmWaitAckOther, raise_dropTelegram_eq_ended]; rfl

/-- Settles O21: the row is the emit. -/
theorem synInWaitResponseEmits : Obligations.SynInWaitResponseEmits := by
  intro s
  rw [exec_fsmWaitRspSyn, emit_eq_ended]; rfl

end Sys2Proof.Proofs
end

