-- ==== Sys2Proof/Proofs/TransitionOutput.lean ====
section
/-! PROOFS. What one transition outputs: nothing, one error event, or the telegram the registers hold and the items of
its scan (O25, O26). By the invariant every telegram output in a reachable state is valid (O58). -/

namespace Sys2Proof.Proofs
open Sys2Proof Sys2Proof.Machine

/-! ### A field read is a raw integer or one of two skips (R125 to R130) -/

section Read
variable (site : FieldSite) (payload : List Byte)

/-- The field lies inside the payload and is read, or it is skipped as out of range. -/
def ReadsOrOutOfRange (r : FieldRead) : Prop := (∃ n, r = .raw n) ∨ r = outOfRange site payload

theorem readU8_cases : ReadsOrOutOfRange site payload (readU8 site payload) := by
  unfold readU8
  split
  · exact .inl ⟨_, rfl⟩
  · exact .inr rfl

theorem readU16le_cases : ReadsOrOutOfRange site payload (readU16le site payload) := by
  unfold readU16le
  split
  · exact .inl ⟨_, rfl⟩
  · exact .inr rfl

theorem readU16be_cases : ReadsOrOutOfRange site payload (readU16be site payload) := by
  unfold readU16be
  split
  · exact .inl ⟨_, rfl⟩
  · exact .inr rfl

theorem readField_cases (c : Constants) (ty : Text) :
    ReadsOrOutOfRange site payload (readField c ty site payload) ∨
      readField c ty site payload = readUnsupported site ty := by
  unfold readField
  split
  · exact .inl (readU8_cases site payload)
  split
  · exact .inl (readU16le_cases site payload)
  split
  · exact .inl (readU16be_cases site payload)
  · exact .inr rfl

/-- A skipped field's event is one of the extractor's. -/
theorem fromScan_of_readField_skip {c : Constants} {ty : Text} {site : FieldSite} {payload : List Byte} {e : Event}
    (h : readField c ty site payload = .skip e) : (Item.evt e).FromScan := by
  rcases readField_cases site payload c ty with (⟨n, hr⟩ | hr) | hr
  · cases hr.symm.trans h
  · cases hr.symm.trans h; trivial
  · cases hr.symm.trans h; trivial

end Read

/-! ### The items of the scan (R113, R123, R124) -/

section Scan
variable (c : Constants)

/-- Only events of skipped fields have been gathered. -/
def EventsFromScan (g : Gathered) : Prop := ∀ e ∈ g.events, (Item.evt e).FromScan

theorem extractField_fromScan {ci mi : Nat} {payload : List Byte} {g : Gathered} (hg : EventsFromScan g) (f : Field) :
    EventsFromScan (extractField c ci mi payload g f) := by
  unfold extractField
  split
  · exact hg
  · next e hr =>
    intro x hx
    rcases List.mem_append.1 hx with h | h
    · exact hg x h
    · obtain rfl := List.mem_singleton.1 h
      exact fromScan_of_readField_skip hr

theorem foldl_extractField_fromScan {ci mi : Nat} {payload : List Byte} (fmap : List Field) {g : Gathered}
    (hg : EventsFromScan g) : EventsFromScan (fmap.foldl (extractField c ci mi payload) g) := by
  induction fmap generalizing g with
  | nil => exact hg
  | cons f rest ih => exact ih (extractField_fromScan c hg f)

/-- A definition's events, and then its record. -/
theorem fromScan_of_mem_extract {ci mi : Nat} {m : MessageDef} {t : Tel} {x : Item} (h : x ∈ extract c ci mi m t) :
    x.FromScan := by
  unfold extract at h
  split at h
  · obtain rfl := List.mem_singleton.1 h
    trivial
  · next fmap payload _ =>
    rcases List.mem_append.1 h with hx | hx
    · obtain ⟨e, he, rfl⟩ := List.mem_map.1 hx
      exact foldl_extractField_fromScan c fmap (fun _ hn => absurd hn List.not_mem_nil) e he
    · obtain rfl := List.mem_singleton.1 hx
      trivial

theorem fromScan_of_mem_matchMessages {ci : Nat} {t : Tel} {x : Item} (ms : List MessageDef) {mi : Nat}
    (h : x ∈ matchMessages c ci t mi ms) : x.FromScan := by
  induction ms generalizing mi with
  | nil => exact absurd h List.not_mem_nil
  | cons m rest ih =>
    rw [matchMessages_cons] at h
    rcases List.mem_append.1 h with hx | hx
    · split at hx
      · exact fromScan_of_mem_extract c hx
      · exact absurd hx List.not_mem_nil
    · exact ih hx

theorem fromScan_of_mem_matchCircuits {t : Tel} {x : Item} (cs : List Circuit) {ci : Nat}
    (h : x ∈ matchCircuits c t ci cs) : x.FromScan := by
  induction cs generalizing ci with
  | nil => exact absurd h List.not_mem_nil
  | cons circuit rest ih =>
    rw [matchCircuits_cons] at h
    exact (List.mem_append.1 h).elim (fromScan_of_mem_matchMessages c circuit.messages) ih

end Scan

/-- The scan outputs records and the Matcher/Extractor's own events (R149 item 3). -/
theorem fromScan_of_mem_matchItems {p : Params} {t : Tel} {x : Item} (h : x ∈ matchItems p t) : x.FromScan :=
  fromScan_of_mem_matchCircuits p.toConstants p.catalog.circuits h

/-! ### One transition -/

/-- The state and the byte are those of R103, R106 or R109. -/
def EmitRule (b : Byte) (s : State) : Prop :=
  (s.st = 8 ∧ b = s.params.ack ∧ s.gotResponse = true) ∨
    (s.st = 8 ∧ b = s.params.syn ∧ s.gotBroadcast = true) ∨ (s.st = 9 ∧ b = s.params.syn)

/-- What the transition from `s` to `t` on the byte `b` outputs. -/
inductive Outputs (b : Byte) (s t : State) : Prop where
  | nothing (out : t.out = s.out)
  | violation (e : Event) (items : TransitionItems [.evt e]) (out : t.out = s.out ++ [.evt e])
  | telegram (rule : EmitRule b s) (clear : t.TelegramClear) (out : t.out = s.out ++ s.emitted)

section Transition
variable {b : Byte} {s t : State}

theorem transitionItems_lengthViolation (part : Part) (b : Byte) :
    TransitionItems [.evt (.lengthViolation part b)] := .inr (.inl ⟨part, b, rfl⟩)

theorem transitionItems_checksumMismatch (part : Part) (computed received : Byte) :
    TransitionItems [.evt (.checksumMismatch part computed received)] :=
  .inr (.inr (.inl ⟨part, computed, received, rfl⟩))

theorem transitionItems_protocolError (b : Byte) : TransitionItems [.evt (.protocolError b)] :=
  .inr (.inr (.inr (.inl ⟨b, rfl⟩)))

theorem transitionItems_emitted (s : State) : TransitionItems s.emitted :=
  .inr (.inr (.inr (.inr ⟨s.held, _, rfl, fun _ => fromScan_of_mem_matchItems⟩)))

/-- R89: the telegram is output and the registers are cleared, whatever state follows. -/
theorem emit_outputs (q : FsmState) (h : EmitRule b s) : Outputs b s (s.emit q) :=
  .telegram h ⟨rfl, rfl, rfl, rfl, rfl, rfl⟩ rfl

/-- R101 outputs nothing, R102 the mismatch. -/
theorem takeChecksum_outputs (b : Byte) (s : State) : Outputs b s (s.takeChecksum b) := by
  rcases s.takeChecksum_cases b with ⟨-, e⟩ | ⟨-, e⟩
  · exact .nothing (by rw [e]; exact s.setActiveCrc_out b)
  · exact .violation _ (transitionItems_checksumMismatch ..) (by rw [e]; rfl)

/-- R149, rule by rule. -/
theorem fsm_outputs (h : fsm b s = .next t) : Outputs b s t := by
  rcases fsm_cases h with
    ⟨-, -, rfl⟩ | ⟨-, -, rfl⟩ | ⟨-, -, rfl⟩ | ⟨-, -, rfl⟩ | ⟨-, rfl⟩ | ⟨-, rfl⟩ | ⟨-, rfl⟩ |
    ⟨-, -, rfl⟩ | ⟨-, -, rfl⟩ | ⟨-, -, rfl⟩ | ⟨-, -, rfl⟩ | ⟨-, rfl⟩ |
    ⟨hst, hb, hg, rfl⟩ | ⟨-, -, -, rfl⟩ | ⟨-, -, rfl⟩ | ⟨hst, hb, hg, rfl⟩ | ⟨-, -, -, rfl⟩ | ⟨-, -, rfl⟩ |
    ⟨hst, hb, rfl⟩ | ⟨-, -, rfl⟩ | ⟨-, -, -, rfl⟩
  -- WaitSYN to WaitCmdLo
  · exact .nothing rfl
  · exact .nothing rfl
  · exact .nothing rfl
  · exact .nothing rfl
  · exact .nothing rfl
  · exact .nothing rfl
  · exact .nothing rfl
  -- WaitLen to WaitCRC
  · exact .nothing (s.acceptLength_out b)
  · exact .violation _ (transitionItems_lengthViolation ..) rfl
  · exact .nothing (s.takeData_out b)
  · exact takeChecksum_outputs b s
  · exact takeChecksum_outputs b s
  -- WaitAck
  · exact emit_outputs _ (.inl ⟨hst, hb, hg⟩)
  · exact .nothing rfl
  · exact .nothing rfl
  · exact emit_outputs _ (.inr (.inl ⟨hst, hb, hg⟩))
  · exact .nothing rfl
  · exact .violation _ (transitionItems_protocolError b) rfl
  -- WaitResponse
  · exact emit_outputs _ (.inr (.inr ⟨hst, hb⟩))
  · exact .nothing (s.noteResponse.acceptLength_out b)
  · exact .violation _ (transitionItems_lengthViolation ..) rfl

/-- R149 items 2 and 3. -/
theorem Outputs.transitionItems (h : Outputs b s t) : ∃ items, t.out = s.out ++ items ∧ TransitionItems items := by
  cases h with
  | nothing out => exact ⟨[], by rw [out, List.append_nil], .inl rfl⟩
  | violation e items out => exact ⟨_, out, items⟩
  | telegram _ _ out => exact ⟨_, out, transitionItems_emitted s⟩

end Transition

/-- Settles O25: the frame of every transition, and what it outputs. -/
theorem transitionFrame : Obligations.TransitionFrame := by
  intro b s t h
  have keeps := fsm_keeps h
  exact ⟨keeps.inQ, keeps.pend, keeps.params, keeps.agenda, keeps.unitOut, keeps.outBeforeReset,
    (fsm_outputs h).transitionItems⟩

/-! ### The telegrams among the items (R112) -/

theorem isTel_eq_false_of_fromScan {x : Item} (h : x.FromScan) : x.isTel = false := by
  cases x with
  | tel _ => exact h.elim
  | record _ => rfl
  | evt _ => rfl

theorem countP_isTel_matchItems (p : Params) (t : Tel) : (matchItems p t).countP Item.isTel = 0 :=
  List.countP_eq_zero.2 fun _ hx => by simp [isTel_eq_false_of_fromScan (fromScan_of_mem_matchItems hx)]

/-- An emit outputs one telegram: the scan's items are none. -/
theorem countP_isTel_emitted (s : State) : s.emitted.countP Item.isTel = 1 := by
  rw [State.emitted, List.countP_cons_of_pos rfl, countP_isTel_matchItems]

theorem eq_held_of_tel_mem_emitted {s : State} {u : Tel} (h : Item.tel u ∈ s.emitted) : u = s.held := by
  rcases List.mem_cons.1 h with e | hm
  · exact Item.tel.inj e
  · exact absurd hm (tel_not_mem_matchItems _ _ u)

/-- Settles O26: only an emit outputs a telegram. -/
theorem telegramOnlyFromThreeRules : Obligations.TelegramOnlyFromThreeRules := by
  intro b s t h
  cases fsm_outputs h with
  | nothing out => exact ⟨[], by rw [out, List.append_nil], zero_le_one, fun u hu => absurd hu List.not_mem_nil⟩
  | violation e _ out => exact ⟨_, out, zero_le_one, fun u hu => nomatch List.mem_singleton.1 hu⟩
  | telegram rule clear out =>
    exact ⟨_, out, (countP_isTel_emitted s).le, fun u hu => ⟨eq_held_of_tel_mem_emitted hu, clear, rule⟩⟩

/-- Settles O58: the invariant of the reachable states holds the validity of every telegram output. -/
theorem deliveredTelegramsAreValid : Obligations.DeliveredTelegramsAreValid :=
  fun _ hs => (reachable_inv hs).outValid

end Sys2Proof.Proofs
end

