-- ==== Sys2Proof/Proofs/Matcher.lean ====
section
/-! PROOFS. The Message Matcher: the pattern forms (O31, O32, O33), the hex rendering they compare with (O34), the match
of a definition (O35) and the scan over the catalog (O36). -/

namespace Sys2Proof.Proofs
open Sys2Proof Sys2Proof.Machine

/-! ### The pattern forms (R116 to R120) -/

theorem prefixAccepts_iff_isPrefix (q value : Text) : prefixAccepts q value = true ↔ q <+: value := by
  simp only [prefixAccepts, Bool.and_eq_true, decide_eq_true_eq]
  constructor
  · rintro ⟨-, htake⟩
    exact List.prefix_iff_eq_take.mpr htake.symm
  · intro h
    exact ⟨h.length_le, (List.prefix_iff_eq_take.mp h).symm⟩

/-- Settles O31: the test of length and first characters is the library's relation `<+:`. -/
theorem prefixAcceptsExactlyItsExtensions : Obligations.PrefixAcceptsExactlyItsExtensions := by
  intro q value
  rw [prefixAccepts_iff_isPrefix]
  exact exists_congr fun _ => eq_comm

/-- What a Literal asks of one position: a star, or the value's own character (R119). -/
def LiteralChar (p v : Char) : Prop := p = '*' ∨ p = v

theorem literalAccepts_iff_forall₂ (p value : Text) :
    literalAccepts p value = true ↔ List.Forall₂ LiteralChar p value := by
  induction p generalizing value with
  | nil => cases value <;> simp
  | cons c p ih =>
    cases value with
    | nil => simp
    | cons v vs => simp [ih, LiteralChar]

/-- Settles O32: the comparison relates the two texts position by position. -/
theorem literalComparesPositionByPosition : Obligations.LiteralComparesPositionByPosition := by
  intro p value
  rw [literalAccepts_iff_forall₂, List.forall₂_iff_get]
  rfl

/-- A text of neither other form is compared as a Literal. -/
theorem accepts_literal {p : Text} (hstar : p ≠ ['*']) (hcaret : ∀ q, p ≠ '^' :: q) (value : Text) :
    accepts (some p) value = literalAccepts p value := by
  unfold accepts
  split
  · next hp => cases hp
  · next hp => exact absurd (Option.some.inj hp) hstar
  · next q hp => exact absurd (Option.some.inj hp) (hcaret q)
  · next hp => rw [Option.some.inj hp]

/-- The row of a field's text latches the matcher's answer for it (R116). -/
theorem exec_decodePattern (p : Option Text) (value : Text) (s : State) :
    exec (decodePattern p value) s = .next (s.setUnit (.accept (accepts p value))) := by
  unfold decodePattern
  split
  · rfl
  · rfl
  · rfl
  · next hstar hcaret => rw [accepts_literal hstar hcaret]; rfl

/-- Settles O33: `decode` reads a request-match field with `decodePattern`. -/
theorem acceptsRunsTheDecodedForm : Obligations.AcceptsRunsTheDecodedForm := by
  intro p value s i h
  cases h
  exact exec_decodePattern p value s

/-! ### The hex rendering (R114) -/

theorem hexDigit_eq_getElem (n : BitVec 4) : hexDigit n = hexDigits[n.toNat]'n.isLt :=
  List.getD_eq_getElem hexDigits '0' n.isLt

theorem hexDigit_mem (n : BitVec 4) : hexDigit n ∈ hexDigits := by
  rw [hexDigit_eq_getElem]
  exact List.getElem_mem _

/-- The sixteen digits are distinct. -/
theorem hexDigit_injective : Function.Injective hexDigit := by
  intro n m h
  rw [hexDigit_eq_getElem, hexDigit_eq_getElem] at h
  have hdistinct : hexDigits.Nodup := by decide
  exact BitVec.eq_of_toNat_eq ((hdistinct.getElem_inj_iff).mp h)

/-- The default of a lookup does not matter below sixteen. -/
theorem hexDigit_eq_getD (n : BitVec 4) (d : Char) : hexDigit n = hexDigits.getD n.toNat d := by
  rw [hexDigit_eq_getElem, List.getD_eq_getElem hexDigits d n.isLt]

theorem highNibble_toNat (v : Byte) : (v.extractLsb' 4 4).toNat = v.toNat / 16 := by
  have := v.isLt
  simp only [BitVec.extractLsb'_toNat, Nat.shiftRight_eq_div_pow]
  omega

theorem lowNibble_toNat (v : Byte) : (v.extractLsb' 0 4).toNat = v.toNat % 16 := by
  simp [BitVec.extractLsb'_toNat]

theorem hex2_eq (v : Byte) (d : Char) :
    hex2 v = [hexDigits.getD (v.toNat / 16) d, hexDigits.getD (v.toNat % 16) d] := by
  rw [hex2, hexDigit_eq_getD _ d, hexDigit_eq_getD _ d, highNibble_toNat, lowNibble_toNat]

theorem append_nibbles (v : Byte) : v.extractLsb' 4 4 ++ v.extractLsb' 0 4 = v :=
  BitVec.extractLsb'_append_extractLsb'

/-- A byte is its two nibbles, and each digit tells its nibble. -/
theorem hex2_injective : Function.Injective hex2 := by
  intro v w h
  obtain ⟨hhigh, hlow⟩ : hexDigit (v.extractLsb' 4 4) = hexDigit (w.extractLsb' 4 4) ∧
      hexDigit (v.extractLsb' 0 4) = hexDigit (w.extractLsb' 0 4) := by simpa [hex2] using h
  rw [← append_nibbles v, hexDigit_injective hhigh, hexDigit_injective hlow, append_nibbles]

theorem hexs_length (s : List Byte) : (hexs s).length = 2 * s.length := by
  induction s with
  | nil => rfl
  | cons v s ih => rw [hexs_cons, List.length_append, hex2_length, ih, List.length_cons]; omega

theorem mem_hexDigits_of_mem_hexs {s : List Byte} {c : Char} (h : c ∈ hexs s) : c ∈ hexDigits := by
  obtain ⟨v, -, hv⟩ := List.mem_flatMap.mp h
  rcases List.mem_pair.mp hv with rfl | rfl
  · exact hexDigit_mem _
  · exact hexDigit_mem _

/-- Every byte takes two digits, so the renderings can be told apart byte by byte. -/
theorem hexs_injective : Function.Injective hexs := by
  intro s
  induction s with
  | nil =>
    intro s' h
    have hlen := congrArg List.length h
    rw [hexs_length, hexs_length] at hlen
    exact (List.length_eq_zero_iff.mp (by simpa using hlen.symm)).symm
  | cons v s ih =>
    intro s' h
    cases s' with
    | nil => cases h
    | cons w s' =>
      obtain ⟨hv, hs⟩ := List.append_inj (by simpa using h) (hex2_length v)
      rw [hex2_injective hv, ih hs]

/-- Settles O34. -/
theorem hexRenderingIsFaithful : Obligations.HexRenderingIsFaithful :=
  ⟨fun v => hex2_eq v ' ', hexs_nil, hexs_cons, fun s => ⟨hexs_length s, fun _ => mem_hexDigits_of_mem_hexs⟩,
    fun _ _ h => hexs_injective h⟩

/-! ### Definitions and the scan (R113, R115, R121) -/

/-- The renderings read the Request registers alone. -/
theorem defMatches_congr (rm : RequestMatch) {t u : Tel} (h : u.toRequest = t.toRequest) :
    defMatches rm u = defMatches rm t := by
  unfold defMatches
  rw [h]

/-- Settles O35. -/
theorem definitionMatchesOnTheRequest : Obligations.DefinitionMatchesOnTheRequest := by
  intro rm t
  refine ⟨?_, fun _ => defMatches_congr rm⟩
  simp only [defMatches, Bool.and_eq_true, and_assoc]

theorem matchMessages_eq_flatMap (c : Constants) (ci : Nat) (t : Tel) (mi : Nat) (ms : List MessageDef) :
    matchMessages c ci t mi ms = (ms.zipIdx mi).flatMap fun m =>
      if defMatches m.1.requestMatch t then extract c ci m.2 m.1 t else [] := by
  induction ms generalizing mi with
  | nil => rfl
  | cons m rest ih => rw [matchMessages_cons, ih, List.zipIdx_cons, List.flatMap_cons]

theorem matchCircuits_eq_flatMap (c : Constants) (t : Tel) (ci : Nat) (circuits : List Circuit) :
    matchCircuits c t ci circuits =
      (circuits.zipIdx ci).flatMap fun circuit => matchMessages c circuit.2 t 0 circuit.1.messages := by
  induction circuits generalizing ci with
  | nil => rfl
  | cons circuit rest ih => rw [matchCircuits_cons, ih, List.zipIdx_cons, List.flatMap_cons]

/-- Settles O36: the two recursions of the scan are the two loops over the indexed lists. -/
theorem scanFollowsCatalogOrder : Obligations.ScanFollowsCatalogOrder := by
  intro p t
  simp only [matchItems, matchCircuits_eq_flatMap, matchMessages_eq_flatMap]

end Sys2Proof.Proofs
end

