-- ==== Sys2Proof/Proofs/Extractor.lean ====
section
/-! PROOFS. The Field Extractor: reading a field (O37) and the rows that do it (O38), the record's fields (O39), the
selection of a field map (O40) and what a matching definition outputs (O41). -/

namespace Sys2Proof.Proofs
open Sys2Proof Sys2Proof.Machine

/-! ### Reading a field (R126 to R130) -/

section Read
variable (site : FieldSite) (pay : List Byte)

theorem memRead_one {buf : List Byte} {off : Nat} (h : off + 1 ≤ buf.length) :
    memRead buf off 1 = some [buf[off]] := by
  rw [memRead_in_range h, List.drop_eq_getElem_cons h, List.take_succ_cons, List.take_zero]

theorem memRead_two {buf : List Byte} {off : Nat} (h : off + 2 ≤ buf.length) :
    memRead buf off 2 = some [buf[off], buf[off + 1]] := by
  rw [memRead_in_range h, List.drop_eq_getElem_cons (by omega : off < buf.length),
    List.drop_eq_getElem_cons h, List.take_succ_cons, List.take_succ_cons, List.take_zero]

theorem readU8_in_range (h : site.offset + 1 ≤ pay.length) :
    readU8 site pay = .raw (pay[site.offset].setWidth 16) := by
  rw [readU8, memRead_one h]

theorem readU16le_in_range (h : site.offset + 2 ≤ pay.length) :
    readU16le site pay = .raw (pay[site.offset + 1] ++ pay[site.offset]) := by
  rw [readU16le, memRead_two h]

theorem readU16be_in_range (h : site.offset + 2 ≤ pay.length) :
    readU16be site pay = .raw (pay[site.offset] ++ pay[site.offset + 1]) := by
  rw [readU16be, memRead_two h]

theorem readU8_out_of_range (h : pay.length < site.offset + 1) : readU8 site pay = outOfRange site pay := by
  rw [readU8, memRead_out_of_range h]

theorem readU16le_out_of_range (h : pay.length < site.offset + 2) : readU16le site pay = outOfRange site pay := by
  rw [readU16le, memRead_out_of_range h]

theorem readU16be_out_of_range (h : pay.length < site.offset + 2) : readU16be site pay = outOfRange site pay := by
  rw [readU16be, memRead_out_of_range h]

end Read

theorem byte_setWidth_toNat (b : Byte) : (b.setWidth 16).toNat = b.toNat := by
  have := b.isLt
  rw [BitVec.toNat_setWidth]
  omega

/-- The first byte of a pair is its high byte. -/
theorem bytePair_toNat (hi lo : Byte) : (hi ++ lo).toNat = hi.toNat * 256 + lo.toNat := by
  rw [BitVec.toNat_append, ← Nat.shiftLeft_add_eq_or_of_lt lo.isLt, Nat.shiftLeft_eq]

/-- Settles O37, type by type. -/
theorem supportedFieldsReadOrSkip : Obligations.SupportedFieldsReadOrSkip := by
  intro site pay
  refine ⟨fun h => ?_, fun h => ?_, fun h => ?_, readU8_out_of_range site pay, fun h => ⟨?_, ?_⟩⟩
  · exact ⟨_, readU8_in_range site pay h, byte_setWidth_toNat _⟩
  · exact ⟨_, readU16le_in_range site pay h, bytePair_toNat _ _⟩
  · exact ⟨_, readU16be_in_range site pay h, bytePair_toNat _ _⟩
  · exact readU16le_out_of_range site pay h
  · exact readU16be_out_of_range site pay h

/-! ### The rows of format DTYPE (R125, R129) -/

theorem readField_eq_latched (s : State) (r : FieldRead) : s.readField r = r.latched s := by
  cases r with
  | raw n => rfl
  | skip e => rfl

/-- Under every spelling of the types the row of a text does what reading a field of that type does. -/
theorem exec_decodeType (c : Constants) (ty : Text) (site : FieldSite) (pay : List Byte) (s : State) :
    exec (decodeType c ty site pay) s = .next (s.readField (readField c ty site pay)) := by
  unfold decodeType readField
  split
  · rfl
  split
  · rfl
  split
  · rfl
  · rfl

/-- Settles O38: each row is `State.readField` of its rule's result. -/
theorem typeRowsLatchOrRaise : Obligations.TypeRowsLatchOrRaise := by
  intro s site pay ty
  simp only [← readField_eq_latched]
  exact ⟨rfl, rfl, rfl, rfl, fun c => exec_decodeType c ty site pay s, rfl⟩

/-! ### The record's fields (R134) -/

section Put
variable {name : Text} (v : Value) {fields : List (Text × Value)}

/-- A name already there keeps its place. -/
theorem keys_putField_of_mem (h : name ∈ fields.map Prod.fst) :
    (putField name v fields).map Prod.fst = fields.map Prod.fst := by
  induction fields with
  | nil => cases h
  | cons entry rest ih =>
    rw [putField_cons]
    split
    · rfl
    · next hne =>
      have hrest : name ∈ rest.map Prod.fst := by simpa [Ne.symm hne] using h
      simp [ih hrest]

/-- A new name goes to the end. -/
theorem putField_of_notMem (h : name ∉ fields.map Prod.fst) : putField name v fields = fields ++ [(name, v)] := by
  induction fields with
  | nil => rfl
  | cons entry rest ih =>
    obtain ⟨hne, hrest⟩ := not_or.mp (mt List.mem_cons.mpr h)
    rw [putField_cons, if_neg (Ne.symm hne), ih hrest, List.cons_append]

variable (name fields)

theorem mem_putField_self : (name, v) ∈ putField name v fields := by
  induction fields with
  | nil => simp
  | cons entry rest ih =>
    rw [putField_cons]
    split
    · next heq => simp [heq]
    · exact List.mem_cons_of_mem _ ih

variable {name fields}

/-- The entries of the other names stay as they are. -/
theorem mem_putField_of_ne {n : Text} (w : Value) (hne : n ≠ name) :
    (n, w) ∈ putField name v fields ↔ (n, w) ∈ fields := by
  induction fields with
  | nil => simp [hne]
  | cons entry rest ih =>
    rw [putField_cons]
    split
    · next heq => simp [Prod.ext_iff, heq, hne]
    · rw [List.mem_cons, List.mem_cons, ih]

theorem nodup_keys_putField (h : (fields.map Prod.fst).Nodup) : ((putField name v fields).map Prod.fst).Nodup := by
  by_cases hmem : name ∈ fields.map Prod.fst
  · rwa [keys_putField_of_mem v hmem]
  · simpa [putField_of_notMem v hmem] using h.concat hmem

end Put

/-- Settles O39. -/
theorem putReplacesInPlaceOrAppends : Obligations.PutReplacesInPlaceOrAppends :=
  fun name v fields => ⟨keys_putField_of_mem v, putField_of_notMem v, mem_putField_self name v fields,
    fun _ w => mem_putField_of_ne v w, nodup_keys_putField v⟩

/-! ### Selecting a field map (R122) -/

theorem selectMap_response {m : MessageDef} {t : Tel} {fmap : List Field} {r : Response}
    (hmap : m.responseMap = some fmap) (hrsp : t.rsp = some r) : selectMap m t = some (.rsp, fmap, r.payload) := by
  rw [selectMap, hmap, hrsp]

theorem selectMap_request {m : MessageDef} {t : Tel} (h : m.responseMap = none ∨ t.rsp = none) :
    selectMap m t = m.requestMap.map fun fmap => (.req, fmap, t.payload) := by
  unfold selectMap
  split
  · next hmap hrsp => simp [hmap, hrsp] at h
  · rfl

/-- Settles O40. -/
theorem fieldMapSelection : Obligations.FieldMapSelection := by
  intro m t
  refine ⟨fun _ _ => selectMap_response, fun h => ⟨fun fmap hmap => ?_, fun hmap => ?_⟩⟩
  · rw [selectMap_request h, hmap, Option.map_some]
  · rw [selectMap_request h, hmap, Option.map_none]

/-! ### What a matching definition outputs (R123, R124, R135) -/

section Extract
variable (c : Constants) (ci mi : Nat) (pay : List Byte)

/-- How the extraction reads a field of its map. -/
def fieldRead (f : Field) : FieldRead := readField c f.dataType (siteOf ci mi f) pay

/-- One field of the map adds its event, if it is skipped, or its value. -/
theorem extractField_eq (g : Gathered) (f : Field) :
    extractField c ci mi pay g f =
      { events := g.events ++ (fieldRead c ci mi pay f).event.toList,
        fields := (fieldRead c ci mi pay f).putInto c.float f g.fields } := by
  unfold extractField fieldRead siteOf
  split <;> next hr => simp [hr, FieldRead.event, FieldRead.putInto]

/-- Walking a map gathers the events in map order beside the values. -/
theorem foldl_extractField_eq (fmap : List Field) (g : Gathered) :
    fmap.foldl (extractField c ci mi pay) g =
      { events := g.events ++ fmap.filterMap fun f => (fieldRead c ci mi pay f).event,
        fields := fmap.foldl (fun fs f => (fieldRead c ci mi pay f).putInto c.float f fs) g.fields } := by
  induction fmap generalizing g with
  | nil => simp
  | cons f rest ih =>
    rw [List.foldl_cons, ih, extractField_eq]
    cases h : (fieldRead c ci mi pay f).event <;> simp [h]

theorem nodup_keys_putInto {format : FloatFormat} {f : Field} {fields : List (Text × Value)} (r : FieldRead)
    (h : (fields.map Prod.fst).Nodup) : ((r.putInto format f fields).map Prod.fst).Nodup := by
  cases r with
  | raw n => exact nodup_keys_putField _ h
  | skip e => exact h

theorem nodup_keys_foldl_putInto {format : FloatFormat} (read : Field → FieldRead) (fmap : List Field)
    {fields : List (Text × Value)} (h : (fields.map Prod.fst).Nodup) :
    ((fmap.foldl (fun fs f => (read f).putInto format f fs) fields).map Prod.fst).Nodup := by
  induction fmap generalizing fields with
  | nil => exact h
  | cons f rest ih => exact ih (nodup_keys_putInto (read f) h)

variable {c ci mi}

theorem extract_none {m : MessageDef} {t : Tel} (h : selectMap m t = none) :
    extract c ci mi m t = [.evt (.matchNoExtract ci mi)] := by
  rw [extract, h]

theorem extract_some {m : MessageDef} {t : Tel} {src : Part} {fmap : List Field} {pay : List Byte}
    (h : selectMap m t = some (src, fmap, pay)) :
    extract c ci mi m t =
      (fmap.filterMap fun f => (fieldRead c ci mi pay f).event).map Item.evt ++
        [.record { ci := ci, mi := mi, src := src,
                   fields := fmap.foldl (fun fs f => (fieldRead c ci mi pay f).putInto c.float f fs) [] }] := by
  simp only [extract, h, foldl_extractField_eq, List.nil_append]

end Extract

/-- Settles O41: the walk over the map keeps the names distinct. -/
theorem extractionOutputs : Obligations.ExtractionOutputs := by
  intro c ci mi m t
  refine ⟨extract_none, fun src fmap pay h => ⟨_, _, extract_some h, rfl, rfl, ?_⟩⟩
  exact nodup_keys_foldl_putInto (fieldRead c ci mi pay) fmap List.nodup_nil

end Sys2Proof.Proofs
end

