-- ==== Sys2Proof/Proofs/Float64.lean ====
section
/-! PROOFS. The scaling in binary64 (O42 to O45). The magnitude of a float is the number of its 63 low bits, and a finite
one stands for a whole number of units of 2^-1074. `units` continues that reading past the largest finite value; it is
strictly increasing, and the exact product is a whole number of units too. So the exact product lies between the units of
two consecutive magnitudes, of which `packMagnitude` takes the nearer one, the even one of two equally near; from that
follow nearest rounding (O43) and overflow (O44). -/

namespace Sys2Proof.Proofs
open Sys2Proof Sys2Proof.Machine

/-! ### The three parts of a float -/

theorem floatExp_lt (x : F64) : floatExp x < 2 ^ 11 := BitVec.isLt _

theorem floatFrac_lt (x : F64) : floatFrac x < 2 ^ 52 := BitVec.isLt _

theorem floatIsFinite_iff (x : F64) : floatIsFinite x = true ↔ floatExp x ≠ 2047 := decide_eq_true_iff

theorem floatIsInf_iff (x : F64) : floatIsInf x = true ↔ floatExp x = 2047 ∧ floatFrac x = 0 := by
  simp [floatIsInf]

theorem floatIsNan_iff (x : F64) : floatIsNan x = true ↔ floatExp x = 2047 ∧ floatFrac x ≠ 0 := by
  simp [floatIsNan]

theorem floatSign_packFloat (sign : Bool) (mag : Nat) : floatSign (packFloat sign mag) = sign := by
  rw [floatSign, packFloat, BitVec.msb_append]
  simp

theorem floatExp_packFloat (sign : Bool) {mag : Nat} (h : mag < 2 ^ 63) :
    floatExp (packFloat sign mag) = mag / 2 ^ 52 := by
  rw [floatExp, packFloat, BitVec.extractLsb'_append_eq_of_add_le (by decide), BitVec.extractLsb'_toNat,
    BitVec.toNat_ofNat, Nat.shiftRight_eq_div_pow]
  omega

theorem floatFrac_packFloat (sign : Bool) (mag : Nat) : floatFrac (packFloat sign mag) = mag % 2 ^ 52 := by
  rw [floatFrac, packFloat, BitVec.extractLsb'_append_eq_of_add_le (by decide), BitVec.extractLsb'_toNat,
    BitVec.toNat_ofNat, Nat.shiftRight_zero]
  omega

/-! ### Factors that are no finite number (R132, log entry 5) -/

/-- The free value chooses the sign and a fraction that is not zero. -/
theorem exists_freeNan_eq (n : BitVec 16) (factor : F64) :
    ∃ (sign : BitVec 1) (frac : BitVec 52), frac ≠ 0 ∧ freeNan n factor = sign ++ 2047#11 ++ frac := by
  refine ⟨_, _, ?_, rfl⟩
  split
  · decide
  · assumption

theorem floatIsNan_freeNan (n : BitVec 16) (factor : F64) : floatIsNan (freeNan n factor) = true := by
  obtain ⟨sign, frac, hfrac, h⟩ := exists_freeNan_eq n factor
  have hexp : (freeNan n factor).extractLsb' 52 11 = 2047#11 := by
    rw [h, BitVec.extractLsb'_append_eq_of_le le_rfl, BitVec.extractLsb'_append_eq_right]
  have hlow : (freeNan n factor).extractLsb' 0 52 = frac := by
    rw [h, BitVec.extractLsb'_append_eq_right]
  rw [floatIsNan_iff, floatExp, floatFrac, hexp, hlow]
  exact ⟨rfl, fun hzero => hfrac (BitVec.eq_of_toNat_eq hzero)⟩

theorem floatMulNat_nan (n : BitVec 16) {factor : F64} (h : floatIsNan factor = true) :
    floatMulNat n factor = freeNan n factor := if_pos h

theorem floatMulNat_inf (n : BitVec 16) {factor : F64} (h : floatIsInf factor = true) :
    floatMulNat n factor = if n = 0 then freeNan n factor else factor := by
  have hnan : floatIsNan factor = false := by
    obtain ⟨-, hfrac⟩ := (floatIsInf_iff factor).mp h
    simp [floatIsNan, hfrac]
  simp [floatMulNat, hnan, h]

theorem floatMulNat_finite (n : BitVec 16) {factor : F64} (h : floatIsFinite factor = true) :
    floatMulNat n factor =
      packFloat (floatSign factor) (packMagnitude (n.toNat * floatSig factor) (floatScale factor)) := by
  have hexp := (floatIsFinite_iff factor).mp h
  simp [floatMulNat, floatIsNan, floatIsInf, hexp]

/-- Settles O45. -/
theorem floatSpecialFactors : Obligations.FloatSpecialFactors := by
  intro n factor
  refine ⟨fun h => ?_, fun h hn => ?_, fun h hn => ?_⟩
  · rw [floatMulNat_nan n h, floatIsNan_freeNan]
  · rw [floatMulNat_inf n h, if_neg hn]
  · rw [floatMulNat_inf n h, if_pos hn, floatIsNan_freeNan]

/-- Settles O42: `Config.floatOne` has the bits of 1.0. -/
theorem factorOneKeepsIntegers : Obligations.FactorOneKeepsIntegers :=
  fun _ _ => ⟨fun h => if_pos h, fun h => if_neg h⟩

/-! ### Magnitudes and their units -/

/-- The units of 2^-1074 in the magnitude `m`, as if every exponent stood for a finite number: with the exponent bits
`e`, at least 1, the significand (of 53 bits, fewer for a subnormal) times `2 ^ (e - 1)`. -/
def units (m : Nat) : Nat := (m - (m / 2 ^ 52 - 1) * 2 ^ 52) * 2 ^ (m / 2 ^ 52 - 1)

/-- A significand `q` at the exponent `e + 1`, with the carry into the exponent when `q` is `2 ^ 53`, and subnormal when
`q` has less than 53 bits. -/
theorem units_add {e q : Nat} (hq : q ≤ 2 ^ 53) (he : 2 ^ 52 ≤ q ∨ e = 0) : units (e * 2 ^ 52 + q) = q * 2 ^ e := by
  unfold units
  rcases hq.lt_or_eq with hlt | rfl
  · rw [show (e * 2 ^ 52 + q) / 2 ^ 52 - 1 = e by omega, Nat.add_sub_cancel_left]
  · rw [show (e * 2 ^ 52 + 2 ^ 53) / 2 ^ 52 - 1 = e + 1 by omega,
      show e * 2 ^ 52 + 2 ^ 53 - (e + 1) * 2 ^ 52 = 2 ^ 52 by omega]
    ring

/-- Every magnitude is a significand below `2 ^ 53` at some exponent. -/
theorem exists_significand (m : Nat) : ∃ e q, m = e * 2 ^ 52 + q ∧ q < 2 ^ 53 ∧ (2 ^ 52 ≤ q ∨ e = 0) :=
  ⟨m / 2 ^ 52 - 1, m - (m / 2 ^ 52 - 1) * 2 ^ 52, by omega, by omega, by omega⟩

theorem units_strictMono : StrictMono units := by
  refine strictMono_nat_of_lt_succ fun m => ?_
  obtain ⟨e, q, rfl, hq, he⟩ := exists_significand m
  rw [Nat.add_assoc, units_add hq.le he, units_add hq (he.imp_left Nat.le_succ_of_le)]
  exact Nat.mul_lt_mul_of_pos_right q.lt_succ_self (Nat.two_pow_pos e)

/-- The magnitude of a float: the number of its exponent and fraction bits. -/
def floatMag (x : F64) : Nat := floatExp x * 2 ^ 52 + floatFrac x

theorem one_le_floatScale (x : F64) : 1 ≤ floatScale x := by
  unfold floatScale
  split <;> omega

theorem units_floatMag (x : F64) : units (floatMag x) = floatSig x * 2 ^ (floatScale x - 1) := by
  have hfrac := floatFrac_lt x
  unfold floatMag floatSig floatScale
  split
  · next h => rw [h, units_add (by omega) (.inr rfl)]
  · next h =>
    rw [show floatExp x * 2 ^ 52 + floatFrac x = (floatExp x - 1) * 2 ^ 52 + (floatFrac x + 2 ^ 52) by omega,
      units_add (by omega) (.inl (by omega))]

theorem floatSig_mod_two (x : F64) : floatSig x % 2 = floatMag x % 2 := by
  unfold floatSig floatMag
  split <;> omega

theorem floatMag_packFloat (sign : Bool) {mag : Nat} (h : mag < 2 ^ 63) : floatMag (packFloat sign mag) = mag := by
  rw [floatMag, floatExp_packFloat sign h, floatFrac_packFloat]
  omega

/-! ### Rounding in units -/

/-- Of two consecutive magnitudes, which is the nearer to `P` units: the upper one past the middle, and in the middle
when the lower one is odd. -/
def nearerMag (P lower : Nat) : Nat :=
  if units lower + units (lower + 1) < 2 * P ∨ units lower + units (lower + 1) = 2 * P ∧ lower % 2 = 1
  then lower + 1 else lower

/-- The magnitude `m` rounds `P` units to nearest, ties to even, with no bound on the exponent. -/
def RoundsTo (P m : Nat) : Prop := ∃ lower, units lower ≤ P ∧ P < units (lower + 1) ∧ m = nearerMag P lower

/-- A magnitude is the rounding of its own units. -/
theorem roundsTo_units (m : Nat) : RoundsTo (units m) m := by
  have hlt : units m < units (m + 1) := units_strictMono m.lt_succ_self
  refine ⟨m, le_rfl, hlt, ?_⟩
  rw [nearerMag, if_neg (by omega)]

/-- No other magnitude of either sign is nearer, and one equally near leaves the rounded one even. -/
theorem RoundsTo.nearest {P m : Nat} (h : RoundsTo P m) {c : ℤ} {k : Nat} (hc : c.natAbs = units k) :
    (units m - P : ℤ).natAbs ≤ (c - P).natAbs ∧
      ((units m - P : ℤ).natAbs = (c - P).natAbs → c = units m ∨ m % 2 = 0) := by
  obtain ⟨lower, hlower, hupper, rfl⟩ := h
  have hside : units k ≤ units lower ∨ units (lower + 1) ≤ units k :=
    (Nat.lt_or_ge lower k).symm.imp (units_strictMono.monotone ·) (units_strictMono.monotone ·)
  unfold nearerMag
  split <;> omega

/-- Rounding passes an odd magnitude `k` from the middle between `k` and the next one on. -/
theorem RoundsTo.lt_iff {P m k : Nat} (h : RoundsTo P m) (hodd : k % 2 = 1) :
    k < m ↔ units k + units (k + 1) ≤ 2 * P := by
  obtain ⟨lower, hlower, hupper, rfl⟩ := h
  have hk : units k < units (k + 1) := units_strictMono k.lt_succ_self
  unfold nearerMag
  rcases Nat.lt_trichotomy lower k with hlt | rfl | hgt
  · have : units (lower + 1) ≤ units k := units_strictMono.monotone hlt
    split <;> omega
  · split <;> omega
  · have : units (k + 1) ≤ units lower := units_strictMono.monotone hgt
    split <;> omega

/-! ### `packMagnitude` rounds -/

/-- The magnitude of the infinities, one past the largest finite value. -/
def infinityMag : Nat := 2047 * 2 ^ 52

theorem packMagnitude_zero (eb : Nat) : packMagnitude 0 eb = 0 := if_pos rfl

/-- The bits by which an integer below `2 ^ 53` is shifted up at the exponent `e + 1`. -/
def shiftUp (p e : Nat) : Nat := min (52 - Nat.log2 p) e

theorem packMagnitude_of_lt {p : Nat} (hp : p ≠ 0) (hlt : p < 2 ^ 53) (e : Nat) :
    packMagnitude p (e + 1) = (e - shiftUp p e) * 2 ^ 52 + p * 2 ^ shiftUp p e := by
  rw [packMagnitude, if_neg hp, if_pos hlt]
  simp only [Nat.add_sub_cancel, show ∀ k, e + 1 - k - 1 = e - k by omega, shiftUp]

theorem packMagnitude_of_ge {p : Nat} (hge : 2 ^ 53 ≤ p) (e : Nat) :
    packMagnitude p (e + 1) =
      min ((e + (Nat.log2 p - 52)) * 2 ^ 52 + roundShift p (Nat.log2 p - 52)) infinityMag := by
  rw [packMagnitude, if_neg (by omega), if_neg (by omega)]
  simp only [Nat.add_right_comm e 1, Nat.add_sub_cancel, infinityMag]

/-- Below `2 ^ 53` the integer is shifted up to 53 bits, or as far as the exponent allows, and nothing is lost. -/
theorem packMagnitude_exact {p : Nat} (hp : p ≠ 0) (hlt : p < 2 ^ 53) (e : Nat) :
    units (packMagnitude p (e + 1)) = p * 2 ^ e ∧ (e < 2046 → packMagnitude p (e + 1) < infinityMag) := by
  have hlog : Nat.log2 p ≤ 52 := Nat.le_of_lt_succ ((Nat.log2_lt hp).mpr hlt)
  have hk : shiftUp p e = min (52 - Nat.log2 p) e := rfl
  rw [packMagnitude_of_lt hp hlt]
  generalize shiftUp p e = k at hk ⊢
  have hq : p * 2 ^ k < 2 ^ 53 := calc
    p * 2 ^ k < 2 ^ (Nat.log2 p + 1) * 2 ^ k := Nat.mul_lt_mul_of_pos_right Nat.lt_log2_self (Nat.two_pow_pos k)
    _ = 2 ^ (Nat.log2 p + 1 + k) := (Nat.pow_add ..).symm
    _ ≤ 2 ^ 53 := Nat.pow_le_pow_right two_pos (by omega)
  have he : 2 ^ 52 ≤ p * 2 ^ k ∨ e - k = 0 := by
    rcases Nat.le_total (52 - Nat.log2 p) e with hle | hle
    · left
      calc 2 ^ 52 = 2 ^ Nat.log2 p * 2 ^ k := by rw [← Nat.pow_add]; congr 1; omega
        _ ≤ p * 2 ^ k := Nat.mul_le_mul_right _ (Nat.log2_self_le hp)
    · right; omega
  rw [units_add hq.le he, Nat.mul_assoc, ← Nat.pow_add, infinityMag]
  exact ⟨by congr 2; omega, by omega⟩

section Shifted
variable {p sh : Nat} (e : Nat) (hlow : 2 ^ 52 ≤ p / 2 ^ sh) (hhigh : p / 2 ^ sh < 2 ^ 53)
include hlow hhigh

/-- From `2 ^ 53` on the lowest bits are cut off, and the 53 bits kept are the significand of the lower magnitude, at an
exponent raised by the number of bits cut. -/
theorem units_shifted : units ((e + sh) * 2 ^ 52 + p / 2 ^ sh) = p / 2 ^ sh * 2 ^ sh * 2 ^ e := by
  rw [units_add hhigh.le (.inl hlow), Nat.add_comm e, Nat.pow_add, Nat.mul_assoc]

theorem units_shifted_succ :
    units ((e + sh) * 2 ^ 52 + p / 2 ^ sh + 1) = (p / 2 ^ sh * 2 ^ sh + 2 ^ sh) * 2 ^ e := by
  rw [Nat.add_assoc, units_add hhigh (.inl (Nat.le_succ_of_le hlow)), Nat.add_comm e, Nat.pow_add, ← Nat.mul_assoc,
    Nat.succ_mul]

/-- The lower magnitude and the next one enclose the exact value. -/
theorem shifted_enclose : units ((e + sh) * 2 ^ 52 + p / 2 ^ sh) ≤ p * 2 ^ e ∧
    p * 2 ^ e < units ((e + sh) * 2 ^ 52 + p / 2 ^ sh + 1) := by
  rw [units_shifted e hlow hhigh, units_shifted_succ e hlow hhigh]
  have hcut : p % 2 ^ sh < 2 ^ sh := Nat.mod_lt p (Nat.two_pow_pos sh)
  have hp : p / 2 ^ sh * 2 ^ sh + p % 2 ^ sh = p := Nat.div_add_mod' ..
  exact ⟨Nat.mul_le_mul_right _ (by omega), Nat.mul_lt_mul_of_pos_right (by omega) (Nat.two_pow_pos e)⟩

/-- The bits cut off decide as the distances to the two magnitudes do. -/
theorem nearerMag_shifted :
    nearerMag (p * 2 ^ e) ((e + sh) * 2 ^ 52 + p / 2 ^ sh) = (e + sh) * 2 ^ 52 + roundShift p sh := by
  have hp : p / 2 ^ sh * 2 ^ sh + p % 2 ^ sh = p := Nat.div_add_mod' ..
  have hpos : 0 < 2 ^ e := Nat.two_pow_pos e
  have hmiddle : p / 2 ^ sh * 2 ^ sh * 2 ^ e + (p / 2 ^ sh * 2 ^ sh + 2 ^ sh) * 2 ^ e =
      (2 * (p / 2 ^ sh * 2 ^ sh) + 2 ^ sh) * 2 ^ e := by ring
  have hdouble : 2 * (p * 2 ^ e) = (2 * (p / 2 ^ sh * 2 ^ sh) + 2 * (p % 2 ^ sh)) * 2 ^ e := by
    rw [← Nat.mul_add, hp, Nat.mul_assoc]
  have hparity : ((e + sh) * 2 ^ 52 + p / 2 ^ sh) % 2 = p / 2 ^ sh % 2 := by omega
  simp only [nearerMag, roundShift, units_shifted e hlow hhigh, units_shifted_succ e hlow hhigh, hmiddle, hdouble,
    hparity, Nat.mul_lt_mul_right hpos, Nat.mul_left_inj hpos.ne', Nat.add_lt_add_iff_left, Nat.add_left_cancel_iff,
    gt_iff_lt, eq_comm (a := 2 ^ sh)]
  split
  · exact Nat.add_assoc ..
  · rfl

end Shifted

/-- The result is the rounding of the exact value, and the infinity in place of everything past it. -/
theorem packMagnitude_roundsTo (p : Nat) {e : Nat} (he : e < 2046) :
    ∃ m, RoundsTo (p * 2 ^ e) m ∧ packMagnitude p (e + 1) = min m infinityMag := by
  rcases eq_or_ne p 0 with rfl | hp
  · exact ⟨0, by simpa [units] using roundsTo_units 0, by rw [packMagnitude_zero, Nat.zero_min]⟩
  rcases Nat.lt_or_ge p (2 ^ 53) with hlt | hge
  · obtain ⟨hunits, hfin⟩ := packMagnitude_exact hp hlt e
    exact ⟨_, hunits ▸ roundsTo_units _, (Nat.min_eq_left (hfin he).le).symm⟩
  · have hlog : 53 ≤ Nat.log2 p := (Nat.le_log2 hp).mpr hge
    generalize hsh : Nat.log2 p - 52 = sh
    have hlow : 2 ^ 52 ≤ p / 2 ^ sh := by
      rw [Nat.le_div_iff_mul_le (Nat.two_pow_pos sh), ← Nat.pow_add, show 52 + sh = Nat.log2 p by omega]
      exact Nat.log2_self_le hp
    have hhigh : p / 2 ^ sh < 2 ^ 53 := by
      rw [Nat.div_lt_iff_lt_mul (Nat.two_pow_pos sh), ← Nat.pow_add, show 53 + sh = Nat.log2 p + 1 by omega]
      exact Nat.lt_log2_self
    obtain ⟨hlower, hupper⟩ := shifted_enclose e hlow hhigh
    refine ⟨_, ⟨_, hlower, hupper, rfl⟩, ?_⟩
    rw [nearerMag_shifted e hlow hhigh, packMagnitude_of_ge hge, hsh]

/-! ### Signs and distances -/

/-- A number of units under a sign. -/
def withSign (sign : Bool) (z : ℤ) : ℤ := if sign then -z else z

theorem withSign_withSign (sign : Bool) (z : ℤ) : withSign sign (withSign sign z) = z := by
  cases sign <;> simp [withSign]

theorem natAbs_withSign (sign : Bool) (z : ℤ) : (withSign sign z).natAbs = z.natAbs := by
  cases sign <;> simp [withSign]

theorem mul_withSign (sign : Bool) (a z : ℤ) : a * withSign sign z = withSign sign (a * z) := by
  cases sign <;> simp [withSign]

theorem withSign_sub (sign : Bool) (a b : ℤ) : withSign sign a - withSign sign b = withSign sign (a - b) := by
  cases sign <;> simp [withSign]; ring

/-- The signed number of units of a float. -/
def signedUnits (x : F64) : ℤ := withSign (floatSign x) (units (floatMag x))

theorem natAbs_signedUnits (x : F64) : (signedUnits x).natAbs = units (floatMag x) := by
  rw [signedUnits, natAbs_withSign, Int.natAbs_natCast]

theorem signedUnits_packFloat (sign : Bool) {m : Nat} (h : m < 2 ^ 63) :
    signedUnits (packFloat sign m) = withSign sign (units m) := by
  rw [signedUnits, floatSign_packFloat, floatMag_packFloat sign h]

/-- The value of one unit. -/
def ulp : ℚ := 2 ^ (-1074 : ℤ)

theorem ulp_pos : 0 < ulp := zpow_pos two_pos _

theorem floatValue_eq (x : F64) : floatValue x = signedUnits x * ulp := by
  have hscale : (2 : ℚ) ^ ((floatScale x : ℤ) - 1075) = 2 ^ (floatScale x - 1) * ulp := by
    rw [ulp, ← zpow_natCast, ← zpow_add₀ two_ne_zero, Nat.cast_sub (one_le_floatScale x)]
    congr 1
    push_cast
    ring
  rw [floatValue, hscale, signedUnits, units_floatMag, withSign]
  split <;> push_cast <;> ring

theorem abs_intCast_mul_ulp (z : ℤ) : |z * ulp| = z.natAbs * ulp := by
  rw [abs_mul, abs_of_pos ulp_pos, Nat.cast_natAbs, Int.cast_abs]

theorem abs_floatValue (x : F64) : |floatValue x| = units (floatMag x) * ulp := by
  rw [floatValue_eq, abs_intCast_mul_ulp, natAbs_signedUnits]

/-- The distance of a float from the exact product, in whole units. -/
theorem distance_eq (n : BitVec 16) (factor x : F64) :
    |floatValue x - n.toNat * floatValue factor| =
      (signedUnits x - withSign (floatSign factor) (n.toNat * units (floatMag factor) : ℕ)).natAbs * ulp := by
  rw [← abs_intCast_mul_ulp, floatValue_eq, floatValue_eq, signedUnits.eq_1 factor, Nat.cast_mul, ← mul_withSign]
  push_cast
  ring_nf

/-! ### The product (R132) -/

/-- The multiplication by a finite factor gives the factor's sign, and the magnitude that the product rounds to, or the
infinity from there on. -/
theorem floatMulNat_roundsTo (n : BitVec 16) {factor : F64} (hfin : floatIsFinite factor = true) :
    ∃ m, RoundsTo (n.toNat * units (floatMag factor)) m ∧
      floatMulNat n factor = packFloat (floatSign factor) (min m infinityMag) := by
  have hscale : floatScale factor - 1 < 2046 := by
    have hexp := (floatIsFinite_iff factor).mp hfin
    have hlt := floatExp_lt factor
    unfold floatScale
    split <;> omega
  obtain ⟨m, hm, hpack⟩ := packMagnitude_roundsTo (n.toNat * floatSig factor) hscale
  rw [Nat.sub_add_cancel (one_le_floatScale factor)] at hpack
  refine ⟨m, ?_, by rw [floatMulNat_finite n hfin, hpack]⟩
  rwa [units_floatMag, ← Nat.mul_assoc]

theorem packFloat_isFinite_iff (sign : Bool) (m : Nat) :
    floatIsFinite (packFloat sign (min m infinityMag)) = true ↔ m < infinityMag := by
  rw [floatIsFinite_iff, floatExp_packFloat sign (by unfold infinityMag; omega)]
  unfold infinityMag
  omega

theorem packFloat_isInf (sign : Bool) {m : Nat} (h : infinityMag ≤ m) :
    floatIsInf (packFloat sign (min m infinityMag)) = true := by
  rw [Nat.min_eq_right h, floatIsInf_iff, floatExp_packFloat sign (by decide), floatFrac_packFloat]
  decide

/-- Settles O43: in units, the result is the rounded magnitude under the factor's sign. -/
theorem floatProductIsNearest : Obligations.FloatProductIsNearest := by
  intro n factor hfin hres y _
  obtain ⟨m, hm, hmul⟩ := floatMulNat_roundsTo n hfin
  rw [hmul] at hres ⊢
  have hlt := (packFloat_isFinite_iff _ m).mp hres
  have hbits : m < 2 ^ 63 := hlt.trans (by decide)
  rw [Nat.min_eq_left hlt.le, distance_eq, distance_eq, signedUnits_packFloat _ hbits, floatSig_mod_two,
    floatMag_packFloat _ hbits, mul_left_inj' ulp_pos.ne', mul_le_mul_iff_of_pos_right ulp_pos, Nat.cast_le,
    Nat.cast_inj, ← withSign_withSign (floatSign factor) (signedUnits y), withSign_sub, withSign_sub, natAbs_withSign,
    natAbs_withSign]
  have hy : (withSign (floatSign factor) (signedUnits y)).natAbs = units (floatMag y) := by
    rw [natAbs_withSign, natAbs_signedUnits]
  refine (hm.nearest hy).imp_right fun htie heq => (htie heq).imp_left fun hsame => ?_
  rw [floatValue_eq, floatValue_eq, signedUnits_packFloat _ hbits, ← hsame, withSign_withSign]

/-- The middle between the largest significand at an exponent and the next magnitude. -/
theorem units_largest_add_succ (e : Nat) :
    units ((e + 1) * 2 ^ 52 + (2 ^ 53 - 1)) + units ((e + 1) * 2 ^ 52 + (2 ^ 53 - 1) + 1) =
      2 * ((2 ^ 54 - 1) * 2 ^ e) := by
  rw [Nat.add_assoc _ _ 1, units_add (by decide) (.inl (by decide)), units_add (by decide) (.inl (by decide)),
    Nat.pow_succ]
  ring

/-- A rounding leaves an exponent from that middle on. -/
theorem RoundsTo.largest_lt_iff {P m : Nat} (h : RoundsTo P m) (e : Nat) :
    (e + 1) * 2 ^ 52 + (2 ^ 53 - 1) < m ↔ (2 ^ 54 - 1) * 2 ^ e ≤ P := by
  rw [h.lt_iff (by omega), units_largest_add_succ, Nat.mul_le_mul_left_iff two_pos]

theorem RoundsTo.infinityMag_le_iff {P m : Nat} (h : RoundsTo P m) :
    infinityMag ≤ m ↔ (2 ^ 54 - 1) * 2 ^ (970 + 1074) ≤ P := by
  rw [← h.largest_lt_iff, infinityMag]
  omega

/-- A bound in units, as a number. -/
theorem overflow_le_iff (P e : Nat) :
    (2 ^ 54 - 1) * 2 ^ (e + 1074) ≤ P ↔ ((2 : ℚ) ^ 54 - 1) * 2 ^ e ≤ P * ulp := by
  have hpow : (2 : ℚ) ^ e = 2 ^ (e + 1074) * ulp := by
    rw [ulp, ← zpow_natCast, ← zpow_natCast, ← zpow_add₀ two_ne_zero,
      show ((e + 1074 : ℕ) : ℤ) + -1074 = e by omega]
  have hcast (k : ℕ) : (((2 ^ 54 - 1) * 2 ^ k : ℕ) : ℚ) = (2 ^ 54 - 1) * 2 ^ k := by norm_num
  rw [hpow, ← mul_assoc, mul_le_mul_iff_of_pos_right ulp_pos, ← hcast, Nat.cast_le]

/-- Settles O44: the magnitude reaches the infinity's exactly when the rounding does. -/
theorem floatProductOverflow : Obligations.FloatProductOverflow := by
  intro n factor hfin
  obtain ⟨m, hm, hmul⟩ := floatMulNat_roundsTo n hfin
  have hover : floatIsFinite (floatMulNat n factor) = false ↔ infinityMag ≤ m := by
    rw [hmul, ← Bool.not_eq_true, packFloat_isFinite_iff, Nat.not_lt]
  refine ⟨?_, fun h => ?_, ?_⟩
  · rw [hover, hm.infinityMag_le_iff, overflow_le_iff, abs_floatValue, Nat.cast_mul, mul_assoc]
  · rw [hmul, packFloat_isInf _ (hover.mp h)]
  · rw [hmul, floatSign_packFloat]

end Sys2Proof.Proofs
end

