-- ==== Sys2Proof/Proofs/CoreStep.lean ====
section
/-! PROOFS. Every step goes on (O51), and what a Core step outputs (O52). Both follow from what the Core does with the
byte it takes, `takeByte`. -/

namespace Sys2Proof.Proofs
open Sys2Proof Sys2Proof.Machine

/-! ### Nothing is fatal (R148, R150) -/

/-- The Host's feed leaves the state register alone. -/
theorem execFeed_completesLegal (bytes : List Byte) {s : State} (h : s.Legal) : CompletesLegal (execFeed bytes s) :=
  ⟨_, rfl, h⟩

/-- The Host's reset goes to WaitSYN, whatever the state. -/
theorem execReset_completesLegal (s : State) : CompletesLegal (execReset s) :=
  ⟨_, rfl, FsmState.code_le .waitSyn⟩

section CoreTurn
variable {s : State} {rest : List Turn} {b : Byte} {q : List Byte}

/-- The Core's turn on a non-empty queue takes the head byte. -/
theorem step_coreTurn_takeByte (ht : s.CoreTurn rest) (hq : s.inQ = b :: q) (hl : s.Legal) :
    step s = takeByte { s with agenda := rest, inQ := q } b :=
  step_coreTurn_cons ht hq hl

/-- The Core's turn, idle or not, leaves a legal state. -/
theorem step_coreTurn_completesLegal (ht : s.CoreTurn rest) (hl : s.Legal) : CompletesLegal (step s) := by
  cases hq : s.inQ with
  | nil => rw [step_coreTurn_nil ht hq]; exact ⟨_, rfl, hl⟩
  | cons b q =>
    rw [step_coreTurn_takeByte ht hq hl]
    exact takeByte_completesLegal b (s := { s with agenda := rest, inQ := q }) hl

/-- R17: the Core takes a byte only in a legal state. -/
theorem legal_of_step_coreTurn {t : State} (ht : s.CoreTurn rest) (hq : s.inQ = b :: q) (h : step s = .next t) :
    s.Legal := by
  by_contra hl
  cases h.symm.trans (step_coreTurn_reserved ht hq hl)

end CoreTurn

/-- Settles O51, by whose turn it is. -/
theorem everyStepGoesOn : Obligations.EveryStepGoesOn := by
  intro s hl
  rcases turn_cases s with ⟨bytes, rest, ha, hb⟩ | ⟨rest, ha⟩ | ⟨rest, ht⟩
  · rw [step_feed ha hb]
    exact execFeed_completesLegal bytes (s := { s with agenda := rest }) hl
  · rw [step_reset ha]
    exact execReset_completesLegal _
  · exact step_coreTurn_completesLegal ht hl

/-! ### The order of the output (R149) -/

/-- What the Core outputs on the byte `b`, where `before` and `after` are the output so far. -/
inductive CoreOutputs (b : Byte) (before after : List Item) : Prop where
  | status (c : BitVec 4) (d : Byte) (l : StatusLabel) (out : after = before ++ [.evt (.adapterStatus c d l)])
  | transition (items : List Item) (out : after = before ++ items) (one : TransitionItems items)
  | framing (b1 : Byte) (items : List Item) (out : after = before ++ .evt (.framingError b1 b) :: items)
      (one : TransitionItems items)

/-- R78, R149: a held prefix outputs nothing and a status pair its event; any other symbol hands a byte to the state
machine, after the framing error if there was one. -/
theorem takeByte_outputs {b : Byte} {s t : State} (h : takeByte s b = .next t) : CoreOutputs b s.out t.out := by
  unfold takeByte at h
  rcases exec_decodeStream s.pend b s with
    ⟨-, -, e⟩ | ⟨-, -, e⟩ | ⟨b1, -, -, e⟩ | ⟨b1, -, -, -, e⟩ | ⟨b1, -, -, -, e⟩
  · obtain ⟨items, out, one⟩ := (fsm_outputs (e ▸ h)).transitionItems
    exact .transition items out one
  · cases e ▸ h
    exact .transition [] (List.append_nil _).symm (.inl rfl)
  · obtain ⟨items, out, one⟩ :=
      (fsm_outputs (s := (s.raise (.framingError b1 b)).setPend none) (e ▸ h)).transitionItems
    exact .framing b1 items (by simpa using out) one
  · obtain ⟨items, out, one⟩ := (fsm_outputs (s := s.setPend none) (e ▸ h)).transitionItems
    exact .transition items out one
  · cases e ▸ h
    exact .status _ _ _ (s.takeStatus_out ..)

/-- Settles O52: a Core step that goes on takes the head byte, and outputs what that byte's symbol does. -/
theorem coreStepOutputOrder : Obligations.CoreStepOutputOrder := by
  intro s t rest b q ht hq h
  rw [step_coreTurn_takeByte ht hq (legal_of_step_coreTurn ht hq h)] at h
  cases takeByte_outputs h with
  | status c d l out => exact .inl ⟨c, d, l, out⟩
  | transition items out one => exact .inr (.inl ⟨items, out, one⟩)
  | framing b1 items out one => exact .inr (.inr ⟨b1, items, out, one⟩)

end Sys2Proof.Proofs
end

