-- ==== Sys2Proof/Proofs/HostReset.lean ====
section
/-! PROOFS. The Host's reset gives the reset values (O3): it constructs the block anew with the same parameters (R156),
so its registers are those of construction (O2). -/

namespace Sys2Proof.Proofs
open Sys2Proof Sys2Proof.Machine

/-- R156, log entry 6: a reset completes in every state, with the block constructed anew, what was output behind it and
the same turns to come. -/
theorem exec_reset (s : State) :
    exec .reset s = .next { State.construct s.params with outBeforeReset := s.trace, agenda := s.agenda } := rfl

/-- Settles O3: the values of construction, which leaves the parameters as they are given. -/
theorem hostResetGivesResetValues : Obligations.HostResetGivesResetValues := by
  intro s
  obtain ⟨st, req, rsp, remaining, gotResponse, gotBroadcast, ackReceived, pend, inQ, -, params⟩ :=
    constructionGivesResetValues s.params
  exact ⟨_, exec_reset s, st, req, rsp, remaining, gotResponse, gotBroadcast, ackReceived, pend, inQ, params⟩

end Sys2Proof.Proofs
end
